-- ==== Sys2Proof/Word.lean ====
section
/-! DEFINITION. The word types of the block and their plainest abbreviations (`00_scope.md` R9, R11, R12). -/

namespace Sys2Proof

/-- A byte of the arena (`10_state.md` R48). -/
abbrev Byte := BitVec 8

/-- A register value, an address or a pc: a 64-bit vector (`00_scope.md` R12). -/
abbrev Word := BitVec 64

/-- An instruction word (`30_encoding.md` R90). -/
abbrev InstWord := BitVec 32

/-- A register operand: the 5-bit index naming x0 .. x31 (`30_encoding.md` R103). -/
abbrev RegIdx := BitVec 5

end Sys2Proof
end

