-- ==== Sys2Proof/Config.lean ====
section
/-! DEFINITION. What is fixed for the block: its parameters (`00_scope.md` R9), the kinds of thing it exchanges with
the host, and the free values the spec leaves open (`00_scope.md` R10). A free value is an opaque constant: no proof can
see what it is. -/

namespace Sys2Proof

/-- `MEM_SIZE`, the arena's length in bytes (`00_scope.md` R9). -/
def Config.memSize : Nat := 65536

/-- `LOAD_BASE`, where an image is copied and where execution starts (`00_scope.md` R9, `70_reset_and_hazards.md` R295). -/
def Config.loadBase : Nat := 0x1000

/-- The largest image `load_from_bytes` takes: `MEM_SIZE` − 0x1000 (`00_scope.md` R9). -/
def Config.maxImage : Nat := Config.memSize - Config.loadBase

/-- The widths of an arena access (`20_memory.md` R61, R65). -/
inductive Width where
  | byte
  | half
  | word
  | double
  deriving DecidableEq, Repr

/-- The number of bytes of a width: 1, 2, 4 or 8. -/
def Width.bytes : Width → Nat
  | .byte => 1
  | .half => 2
  | .word => 4
  | .double => 8

/-- The panic reasons (`60_exceptions.md` R261), by the spec's own labels. -/
inductive PanicReason where
  /-- A fetch, load, store or handler access with u(a) + width > `MEM_SIZE`. -/
  | outOfRange
  /-- An unknown primary opcode (`30_encoding.md` R106). -/
  | invalidOpcode
  /-- An unknown funct3/funct7 combination within a recognised opcode (`30_encoding.md` R107). -/
  | invalidFunct
  /-- A SYSTEM word whose funct12 is neither 0 nor 1 (`44_system.md` R236). -/
  | invalidSystem
  /-- ECALL with a non-zero code that has no handler (`44_system.md` R234). -/
  | invalidSyscall
  deriving DecidableEq, Repr

/-- A host handler's name. The handler is a host function (`44_system.md` R238). The model holds only which one it is. -/
structure HandlerId where
  id : Nat
  deriving DecidableEq, Repr

/-- A host callback's name (`10_state.md` R45). -/
structure CallbackId where
  id : Nat
  deriving DecidableEq, Repr

/-- One thing a handler does through the VM handle (`44_system.md` R238). What it only reads without any possible effect
(registers, `is_running`, `get_exit_code`, `get_pointer_param`, `get_string_pointer`) needs no action. A read of the
arena is an action because it can be out of range. -/
inductive HandlerAction where
  | setReg (r : RegIdx) (v : Word)
  | readMem (a : Word) (w : Width)
  | writeMem (a : Word) (w : Width) (v : Word)
  | stop
  deriving DecidableEq, Repr

/-- What a handler that returns has done: its actions in order, then its 64-bit result (`44_system.md` R233, R238). -/
structure HandlerReturn where
  actions : List HandlerAction
  result : Word
  deriving DecidableEq, Repr, Inhabited

/-- One invocation of a handler. `hangs` is the invocation that never returns (`44_system.md` R238,
`93_implementation_defined.md` U11). -/
inductive HandlerMove where
  | returns (r : HandlerReturn)
  | hangs
  deriving DecidableEq, Repr

/-- All that a handler can see of the VM when it is invoked (`44_system.md` R238, left column): registers, arena, the
running flag and the exit code. -/
structure HandlerView where
  regs : Vector Word 31
  mem : List Host.Cell
  running : Bool
  exitCode : Int
  deriving DecidableEq, Repr

/-- FREE VALUE (`60_exceptions.md` R263, D5, U4). Whether the pc has moved past the panicking instruction: the draw of
`pc_after_panic`. The first argument is State's counter of draws. Log entry 2. -/
opaque Config.panicAdvancesPc (draw : Nat) (reason : PanicReason) (pc : Word) : Bool

/-- FREE VALUE (`44_system.md` R238, D11, U9). What a registered handler does in one invocation, where the host's own
list `handlerMoves` says nothing. Log entry 7. -/
opaque Config.handlerReturn (draw : Nat) (handler : HandlerId) (view : HandlerView) : HandlerReturn

/-- FREE VALUE `PanicMessage` (`60_exceptions.md` R261, D17, U3): the text of a panic whose message the document elides.
Log entry 12. -/
opaque Config.panicMessage (reason : PanicReason) : String

/-- FREE VALUE `StringDecodePolicy` (`44_system.md` R243, D21, U2). Log entry 13. -/
opaque Config.decodeString (bytes : List Byte) : String

end Sys2Proof
end

