-- ==== Sys2Proof/WellFormed.lean ====
section
/-! DEFINITION. Which instruction terms an instruction word can hold. Every operand type is as wide as its field but for
three immediates with bits that no word stores: immB and immJ, whose bit 0 is always 0 (`30_encoding.md` R100, R102),
and immU, whose bits 11..0 are 0 (R101). -/

namespace Sys2Proof

/-- Bit 0 of a B- or J-immediate is 0 (`30_encoding.md` R100, R102). -/
def evenOffset {n : Nat} (imm : BitVec n) : Bool := !imm.getLsbD 0

/-- Bits 11..0 of a U-immediate are 0 (`30_encoding.md` R101). -/
def upperOnly (imm : BitVec 32) : Bool := imm.setWidth 12 == 0#12

/-- The instruction is one that some instruction word encodes. -/
def Instr.wellFormed : Instr → Bool
  | .lb _ _ _ | .lh _ _ _ | .lw _ _ _ | .ld _ _ _ | .lbu _ _ _ | .lhu _ _ _ | .lwu _ _ _ => true
  | .sb _ _ _ | .sh _ _ _ | .sw _ _ _ | .sd _ _ _ => true
  | .addi _ _ _ | .slti _ _ _ | .sltiu _ _ _ | .xori _ _ _ | .ori _ _ _ | .andi _ _ _ => true
  | .slli _ _ _ | .srli _ _ _ | .srai _ _ _ => true
  | .addiw _ _ _ | .slliw _ _ _ | .srliw _ _ _ | .sraiw _ _ _ => true
  | .add _ _ _ | .sub _ _ _ | .sll _ _ _ | .slt _ _ _ | .sltu _ _ _ | .xor _ _ _ | .srl _ _ _ | .sra _ _ _ => true
  | .or _ _ _ | .and _ _ _ | .mul _ _ _ | .mulh _ _ _ | .mulhsu _ _ _ | .mulhu _ _ _ => true
  | .div _ _ _ | .divu _ _ _ | .rem _ _ _ | .remu _ _ _ => true
  | .addw _ _ _ | .subw _ _ _ | .sllw _ _ _ | .srlw _ _ _ | .sraw _ _ _ | .mulw _ _ _ => true
  | .divw _ _ _ | .divuw _ _ _ | .remw _ _ _ | .remuw _ _ _ => true
  | .lui _ imm | .auipc _ imm => upperOnly imm
  | .jal _ imm => evenOffset imm
  | .jalr _ _ _ => true
  | .beq _ _ imm | .bne _ _ imm | .blt _ _ imm | .bge _ _ imm | .bltu _ _ imm | .bgeu _ _ imm => evenOffset imm
  | .fence | .ecall | .ebreak => true

end Sys2Proof
end

