-- ==== Sys2Proof/Decode.lean ====
section
/-! DEFINITION. The decoder, a total function of the instruction word alone (`30_encoding.md` R104, R122), and after it
the encoder, written from the same formats (R92 to R97) and opcode table. -/

namespace Sys2Proof

/-! ## Fields (`30_encoding.md` R91) -/

def opcodeOf (w : InstWord) : BitVec 7 := w.extractLsb' 0 7
def rdOf (w : InstWord) : RegIdx := w.extractLsb' 7 5
def funct3Of (w : InstWord) : BitVec 3 := w.extractLsb' 12 3
def rs1Of (w : InstWord) : RegIdx := w.extractLsb' 15 5
def rs2Of (w : InstWord) : RegIdx := w.extractLsb' 20 5
def funct7Of (w : InstWord) : BitVec 7 := w.extractLsb' 25 7
def funct6Of (w : InstWord) : BitVec 6 := w.extractLsb' 26 6
def funct12Of (w : InstWord) : BitVec 12 := w.extractLsb' 20 12
def shamt6Of (w : InstWord) : BitVec 6 := w.extractLsb' 20 6
def shamt5Of (w : InstWord) : BitVec 5 := w.extractLsb' 20 5

/-- The 10-bit key `(funct7 << 3) | funct3` of OP and OP-32 (R105). -/
def keyOf (w : InstWord) : BitVec 10 := funct7Of w ++ funct3Of w

/-! ## Immediates, before sign extension (R98 to R102) -/

/-- `inst[31:20]` (R98). -/
def immIOf (w : InstWord) : BitVec 12 := w.extractLsb' 20 12

/-- `{inst[31:25], inst[11:7]}` (R99). -/
def immSOf (w : InstWord) : BitVec 12 := w.extractLsb' 25 7 ++ w.extractLsb' 7 5

/-- `{inst[31], inst[7], inst[30:25], inst[11:8], 0}` (R100). -/
def immBOf (w : InstWord) : BitVec 13 :=
  w.extractLsb' 31 1 ++ w.extractLsb' 7 1 ++ w.extractLsb' 25 6 ++ w.extractLsb' 8 4 ++ 0#1

/-- `inst & 0xFFFF_F000` (R101). -/
def immUOf (w : InstWord) : BitVec 32 := w &&& 0xFFFFF000#32

/-- `{inst[31], inst[19:12], inst[20], inst[30:21], 0}` (R102). -/
def immJOf (w : InstWord) : BitVec 21 :=
  w.extractLsb' 31 1 ++ w.extractLsb' 12 8 ++ w.extractLsb' 20 1 ++ w.extractLsb' 21 10 ++ 0#1

/-! ## The selection (R104, R105) -/

/-- Opcode 0x03. -/
def decodeLoad (w : InstWord) : Except PanicReason Instr :=
  match funct3Of w with
  | 0#3 => .ok (.lb (rdOf w) (rs1Of w) (immIOf w))
  | 1#3 => .ok (.lh (rdOf w) (rs1Of w) (immIOf w))
  | 2#3 => .ok (.lw (rdOf w) (rs1Of w) (immIOf w))
  | 3#3 => .ok (.ld (rdOf w) (rs1Of w) (immIOf w))
  | 4#3 => .ok (.lbu (rdOf w) (rs1Of w) (immIOf w))
  | 5#3 => .ok (.lhu (rdOf w) (rs1Of w) (immIOf w))
  | 6#3 => .ok (.lwu (rdOf w) (rs1Of w) (immIOf w))
  | _ => .error .invalidFunct

/-- Opcode 0x23. -/
def decodeStore (w : InstWord) : Except PanicReason Instr :=
  match funct3Of w with
  | 0#3 => .ok (.sb (rs1Of w) (rs2Of w) (immSOf w))
  | 1#3 => .ok (.sh (rs1Of w) (rs2Of w) (immSOf w))
  | 2#3 => .ok (.sw (rs1Of w) (rs2Of w) (immSOf w))
  | 3#3 => .ok (.sd (rs1Of w) (rs2Of w) (immSOf w))
  | _ => .error .invalidFunct

/-- Opcode 0x13, funct3 5: `funct6`, not `funct7`, selects (R93, R157). -/
def decodeShiftRightImm (w : InstWord) : Except PanicReason Instr :=
  match funct6Of w with
  | 0b000000#6 => .ok (.srli (rdOf w) (rs1Of w) (shamt6Of w))
  | 0b010000#6 => .ok (.srai (rdOf w) (rs1Of w) (shamt6Of w))
  | _ => .error .invalidFunct

/-- Opcode 0x13. SLLI's `funct6` is not examined (R108, log entry 14). -/
def decodeOpImm (w : InstWord) : Except PanicReason Instr :=
  match funct3Of w with
  | 0#3 => .ok (.addi (rdOf w) (rs1Of w) (immIOf w))
  | 1#3 => .ok (.slli (rdOf w) (rs1Of w) (shamt6Of w))
  | 2#3 => .ok (.slti (rdOf w) (rs1Of w) (immIOf w))
  | 3#3 => .ok (.sltiu (rdOf w) (rs1Of w) (immIOf w))
  | 4#3 => .ok (.xori (rdOf w) (rs1Of w) (immIOf w))
  | 5#3 => decodeShiftRightImm w
  | 6#3 => .ok (.ori (rdOf w) (rs1Of w) (immIOf w))
  | _ => .ok (.andi (rdOf w) (rs1Of w) (immIOf w))

/-- Opcode 0x1B, funct3 1. -/
def decodeShiftLeftImmWord (w : InstWord) : Except PanicReason Instr :=
  match funct7Of w with
  | 0x00#7 => .ok (.slliw (rdOf w) (rs1Of w) (shamt5Of w))
  | _ => .error .invalidFunct

/-- Opcode 0x1B, funct3 5. -/
def decodeShiftRightImmWord (w : InstWord) : Except PanicReason Instr :=
  match funct7Of w with
  | 0x00#7 => .ok (.srliw (rdOf w) (rs1Of w) (shamt5Of w))
  | 0x20#7 => .ok (.sraiw (rdOf w) (rs1Of w) (shamt5Of w))
  | _ => .error .invalidFunct

/-- Opcode 0x1B. -/
def decodeOpImm32 (w : InstWord) : Except PanicReason Instr :=
  match funct3Of w with
  | 0#3 => .ok (.addiw (rdOf w) (rs1Of w) (immIOf w))
  | 1#3 => decodeShiftLeftImmWord w
  | 5#3 => decodeShiftRightImmWord w
  | _ => .error .invalidFunct

/-- Opcode 0x33: the OP column of R105. -/
def decodeOp (w : InstWord) : Except PanicReason Instr :=
  match keyOf w with
  | 0x000#10 => .ok (.add (rdOf w) (rs1Of w) (rs2Of w))
  | 0x100#10 => .ok (.sub (rdOf w) (rs1Of w) (rs2Of w))
  | 0x001#10 => .ok (.sll (rdOf w) (rs1Of w) (rs2Of w))
  | 0x002#10 => .ok (.slt (rdOf w) (rs1Of w) (rs2Of w))
  | 0x003#10 => .ok (.sltu (rdOf w) (rs1Of w) (rs2Of w))
  | 0x004#10 => .ok (.xor (rdOf w) (rs1Of w) (rs2Of w))
  | 0x005#10 => .ok (.srl (rdOf w) (rs1Of w) (rs2Of w))
  | 0x105#10 => .ok (.sra (rdOf w) (rs1Of w) (rs2Of w))
  | 0x006#10 => .ok (.or (rdOf w) (rs1Of w) (rs2Of w))
  | 0x007#10 => .ok (.and (rdOf w) (rs1Of w) (rs2Of w))
  | 0x008#10 => .ok (.mul (rdOf w) (rs1Of w) (rs2Of w))
  | 0x009#10 => .ok (.mulh (rdOf w) (rs1Of w) (rs2Of w))
  | 0x00A#10 => .ok (.mulhsu (rdOf w) (rs1Of w) (rs2Of w))
  | 0x00B#10 => .ok (.mulhu (rdOf w) (rs1Of w) (rs2Of w))
  | 0x00C#10 => .ok (.div (rdOf w) (rs1Of w) (rs2Of w))
  | 0x00D#10 => .ok (.divu (rdOf w) (rs1Of w) (rs2Of w))
  | 0x00E#10 => .ok (.rem (rdOf w) (rs1Of w) (rs2Of w))
  | 0x00F#10 => .ok (.remu (rdOf w) (rs1Of w) (rs2Of w))
  | _ => .error .invalidFunct

/-- Opcode 0x3B: the OP-32 column of R105. -/
def decodeOp32 (w : InstWord) : Except PanicReason Instr :=
  match keyOf w with
  | 0x000#10 => .ok (.addw (rdOf w) (rs1Of w) (rs2Of w))
  | 0x100#10 => .ok (.subw (rdOf w) (rs1Of w) (rs2Of w))
  | 0x001#10 => .ok (.sllw (rdOf w) (rs1Of w) (rs2Of w))
  | 0x005#10 => .ok (.srlw (rdOf w) (rs1Of w) (rs2Of w))
  | 0x105#10 => .ok (.sraw (rdOf w) (rs1Of w) (rs2Of w))
  | 0x008#10 => .ok (.mulw (rdOf w) (rs1Of w) (rs2Of w))
  | 0x00C#10 => .ok (.divw (rdOf w) (rs1Of w) (rs2Of w))
  | 0x00D#10 => .ok (.divuw (rdOf w) (rs1Of w) (rs2Of w))
  | 0x00E#10 => .ok (.remw (rdOf w) (rs1Of w) (rs2Of w))
  | 0x00F#10 => .ok (.remuw (rdOf w) (rs1Of w) (rs2Of w))
  | _ => .error .invalidFunct

/-- Opcode 0x63. The funct3 values are PRESUMED, from the spec's general knowledge (G2, log entry 15). -/
def decodeBranch (w : InstWord) : Except PanicReason Instr :=
  match funct3Of w with
  | 0#3 => .ok (.beq (rs1Of w) (rs2Of w) (immBOf w))
  | 1#3 => .ok (.bne (rs1Of w) (rs2Of w) (immBOf w))
  | 4#3 => .ok (.blt (rs1Of w) (rs2Of w) (immBOf w))
  | 5#3 => .ok (.bge (rs1Of w) (rs2Of w) (immBOf w))
  | 6#3 => .ok (.bltu (rs1Of w) (rs2Of w) (immBOf w))
  | 7#3 => .ok (.bgeu (rs1Of w) (rs2Of w) (immBOf w))
  | _ => .error .invalidFunct

/-- Opcode 0x73: `funct12` alone selects (R104, `44_system.md` R236, log entry 14). -/
def decodeSystem (w : InstWord) : Except PanicReason Instr :=
  match funct12Of w with
  | 0#12 => .ok .ecall
  | 1#12 => .ok .ebreak
  | _ => .error .invalidSystem

/-- The decoder (`30_encoding.md` R104): an instruction with its fields, or the panic the word raises. -/
def decode (w : InstWord) : Except PanicReason Instr :=
  match opcodeOf w with
  | 0x03#7 => decodeLoad w
  | 0x23#7 => decodeStore w
  | 0x13#7 => decodeOpImm w
  | 0x1B#7 => decodeOpImm32 w
  | 0x33#7 => decodeOp w
  | 0x3B#7 => decodeOp32 w
  | 0x37#7 => .ok (.lui (rdOf w) (immUOf w))
  | 0x17#7 => .ok (.auipc (rdOf w) (immUOf w))
  | 0x6F#7 => .ok (.jal (rdOf w) (immJOf w))
  | 0x67#7 => .ok (.jalr (rdOf w) (rs1Of w) (immIOf w))
  | 0x63#7 => decodeBranch w
  | 0x0F#7 => .ok .fence
  | 0x73#7 => decodeSystem w
  | _ => .error .invalidOpcode

/-- The instruction word of four bytes, the first at the lowest address: little-endian (`20_memory.md` R66). -/
def instWordOfBytes (b0 b1 b2 b3 : Byte) : InstWord := b3 ++ b2 ++ b1 ++ b0

/-- The decoder on bytes as the arena stores them. -/
def decodeBytes (b0 b1 b2 b3 : Byte) : Except PanicReason Instr := decode (instWordOfBytes b0 b1 b2 b3)

/-- The decoder on an instruction given as the opcode table numbers its bits: bit 0 is the least significant of the
word. Every row has 32 bits. Bits above `nbits` are 0. -/
def decodeTableWord (nbits w : Nat) : Option Instr :=
  let v := w % 2 ^ nbits
  match decodeBytes (BitVec.ofNat 8 v) (BitVec.ofNat 8 (v >>> 8)) (BitVec.ofNat 8 (v >>> 16))
      (BitVec.ofNat 8 (v >>> 24)) with
  | .ok i => some i
  | .error _ => none

/-! ## The encoder: the canonical word (R108) of a well-formed instruction -/

/-- R92. -/
def encR (f7 : BitVec 7) (rs2 rs1 : RegIdx) (f3 : BitVec 3) (rd : RegIdx) (opc : BitVec 7) : InstWord :=
  f7 ++ rs2 ++ rs1 ++ f3 ++ rd ++ opc

/-- R93. -/
def encI (imm : BitVec 12) (rs1 : RegIdx) (f3 : BitVec 3) (rd : RegIdx) (opc : BitVec 7) : InstWord :=
  imm ++ rs1 ++ f3 ++ rd ++ opc

/-- R93, the I-shift64 layout. -/
def encShift64 (f6 : BitVec 6) (shamt : BitVec 6) (rs1 : RegIdx) (f3 : BitVec 3) (rd : RegIdx) (opc : BitVec 7) :
    InstWord :=
  f6 ++ shamt ++ rs1 ++ f3 ++ rd ++ opc

/-- R94. -/
def encS (imm : BitVec 12) (rs2 rs1 : RegIdx) (f3 : BitVec 3) (opc : BitVec 7) : InstWord :=
  imm.extractLsb' 5 7 ++ rs2 ++ rs1 ++ f3 ++ imm.extractLsb' 0 5 ++ opc

/-- R95. -/
def encB (imm : BitVec 13) (rs2 rs1 : RegIdx) (f3 : BitVec 3) (opc : BitVec 7) : InstWord :=
  imm.extractLsb' 12 1 ++ imm.extractLsb' 5 6 ++ rs2 ++ rs1 ++ f3 ++ imm.extractLsb' 1 4 ++ imm.extractLsb' 11 1 ++ opc

/-- R96. -/
def encU (imm : BitVec 32) (rd : RegIdx) (opc : BitVec 7) : InstWord :=
  imm.extractLsb' 12 20 ++ rd ++ opc

/-- R97. -/
def encJ (imm : BitVec 21) (rd : RegIdx) (opc : BitVec 7) : InstWord :=
  imm.extractLsb' 20 1 ++ imm.extractLsb' 1 10 ++ imm.extractLsb' 11 1 ++ imm.extractLsb' 12 8 ++ rd ++ opc

/-- The word of a well-formed instruction, its ignored fields canonical. FENCE's inst[31:20] may hold anything (R108);
this is the word of `fence` without operands (R111). -/
def encode : Instr → InstWord
  | .lb rd rs1 imm => encI imm rs1 0#3 rd 0x03#7
  | .lh rd rs1 imm => encI imm rs1 1#3 rd 0x03#7
  | .lw rd rs1 imm => encI imm rs1 2#3 rd 0x03#7
  | .ld rd rs1 imm => encI imm rs1 3#3 rd 0x03#7
  | .lbu rd rs1 imm => encI imm rs1 4#3 rd 0x03#7
  | .lhu rd rs1 imm => encI imm rs1 5#3 rd 0x03#7
  | .lwu rd rs1 imm => encI imm rs1 6#3 rd 0x03#7
  | .sb rs1 rs2 imm => encS imm rs2 rs1 0#3 0x23#7
  | .sh rs1 rs2 imm => encS imm rs2 rs1 1#3 0x23#7
  | .sw rs1 rs2 imm => encS imm rs2 rs1 2#3 0x23#7
  | .sd rs1 rs2 imm => encS imm rs2 rs1 3#3 0x23#7
  | .addi rd rs1 imm => encI imm rs1 0#3 rd 0x13#7
  | .slli rd rs1 shamt => encShift64 0b000000#6 shamt rs1 1#3 rd 0x13#7
  | .slti rd rs1 imm => encI imm rs1 2#3 rd 0x13#7
  | .sltiu rd rs1 imm => encI imm rs1 3#3 rd 0x13#7
  | .xori rd rs1 imm => encI imm rs1 4#3 rd 0x13#7
  | .srli rd rs1 shamt => encShift64 0b000000#6 shamt rs1 5#3 rd 0x13#7
  | .srai rd rs1 shamt => encShift64 0b010000#6 shamt rs1 5#3 rd 0x13#7
  | .ori rd rs1 imm => encI imm rs1 6#3 rd 0x13#7
  | .andi rd rs1 imm => encI imm rs1 7#3 rd 0x13#7
  | .addiw rd rs1 imm => encI imm rs1 0#3 rd 0x1B#7
  | .slliw rd rs1 shamt => encR 0x00#7 shamt rs1 1#3 rd 0x1B#7
  | .srliw rd rs1 shamt => encR 0x00#7 shamt rs1 5#3 rd 0x1B#7
  | .sraiw rd rs1 shamt => encR 0x20#7 shamt rs1 5#3 rd 0x1B#7
  | .add rd rs1 rs2 => encR 0x00#7 rs2 rs1 0#3 rd 0x33#7
  | .sub rd rs1 rs2 => encR 0x20#7 rs2 rs1 0#3 rd 0x33#7
  | .sll rd rs1 rs2 => encR 0x00#7 rs2 rs1 1#3 rd 0x33#7
  | .slt rd rs1 rs2 => encR 0x00#7 rs2 rs1 2#3 rd 0x33#7
  | .sltu rd rs1 rs2 => encR 0x00#7 rs2 rs1 3#3 rd 0x33#7
  | .xor rd rs1 rs2 => encR 0x00#7 rs2 rs1 4#3 rd 0x33#7
  | .srl rd rs1 rs2 => encR 0x00#7 rs2 rs1 5#3 rd 0x33#7
  | .sra rd rs1 rs2 => encR 0x20#7 rs2 rs1 5#3 rd 0x33#7
  | .or rd rs1 rs2 => encR 0x00#7 rs2 rs1 6#3 rd 0x33#7
  | .and rd rs1 rs2 => encR 0x00#7 rs2 rs1 7#3 rd 0x33#7
  | .mul rd rs1 rs2 => encR 0x01#7 rs2 rs1 0#3 rd 0x33#7
  | .mulh rd rs1 rs2 => encR 0x01#7 rs2 rs1 1#3 rd 0x33#7
  | .mulhsu rd rs1 rs2 => encR 0x01#7 rs2 rs1 2#3 rd 0x33#7
  | .mulhu rd rs1 rs2 => encR 0x01#7 rs2 rs1 3#3 rd 0x33#7
  | .div rd rs1 rs2 => encR 0x01#7 rs2 rs1 4#3 rd 0x33#7
  | .divu rd rs1 rs2 => encR 0x01#7 rs2 rs1 5#3 rd 0x33#7
  | .rem rd rs1 rs2 => encR 0x01#7 rs2 rs1 6#3 rd 0x33#7
  | .remu rd rs1 rs2 => encR 0x01#7 rs2 rs1 7#3 rd 0x33#7
  | .addw rd rs1 rs2 => encR 0x00#7 rs2 rs1 0#3 rd 0x3B#7
  | .subw rd rs1 rs2 => encR 0x20#7 rs2 rs1 0#3 rd 0x3B#7
  | .sllw rd rs1 rs2 => encR 0x00#7 rs2 rs1 1#3 rd 0x3B#7
  | .srlw rd rs1 rs2 => encR 0x00#7 rs2 rs1 5#3 rd 0x3B#7
  | .sraw rd rs1 rs2 => encR 0x20#7 rs2 rs1 5#3 rd 0x3B#7
  | .mulw rd rs1 rs2 => encR 0x01#7 rs2 rs1 0#3 rd 0x3B#7
  | .divw rd rs1 rs2 => encR 0x01#7 rs2 rs1 4#3 rd 0x3B#7
  | .divuw rd rs1 rs2 => encR 0x01#7 rs2 rs1 5#3 rd 0x3B#7
  | .remw rd rs1 rs2 => encR 0x01#7 rs2 rs1 6#3 rd 0x3B#7
  | .remuw rd rs1 rs2 => encR 0x01#7 rs2 rs1 7#3 rd 0x3B#7
  | .lui rd imm => encU imm rd 0x37#7
  | .auipc rd imm => encU imm rd 0x17#7
  | .jal rd imm => encJ imm rd 0x6F#7
  | .jalr rd rs1 imm => encI imm rs1 0#3 rd 0x67#7
  | .beq rs1 rs2 imm => encB imm rs2 rs1 0#3 0x63#7
  | .bne rs1 rs2 imm => encB imm rs2 rs1 1#3 0x63#7
  | .blt rs1 rs2 imm => encB imm rs2 rs1 4#3 0x63#7
  | .bge rs1 rs2 imm => encB imm rs2 rs1 5#3 0x63#7
  | .bltu rs1 rs2 imm => encB imm rs2 rs1 6#3 0x63#7
  | .bgeu rs1 rs2 imm => encB imm rs2 rs1 7#3 0x63#7
  | .fence => encI 0x0FF#12 0#5 0#3 0#5 0x0F#7
  | .ecall => encI 0#12 0#5 0#3 0#5 0x73#7
  | .ebreak => encI 1#12 0#5 0#3 0#5 0x73#7

/-- A canonical word (R108): it decodes to an instruction and its ignored bits hold the standard values, so that it is
that instruction's encoding; a FENCE word's bits 31..20 may hold anything. -/
def canonicalWord (w : InstWord) : Bool :=
  match decode w with
  | .ok .fence => w.extractLsb' 7 13 == 0#13
  | .ok i => encode i == w
  | .error _ => false

end Sys2Proof
end

