-- ==== Sys2Proof/Machine/State.lean ====
section
/-! DEFINITION. The state of one block instance (`10_state.md` R50), plain data, with the model's own fields after the
spec's; the reasons a step can stop; and the state after reset. -/

namespace Sys2Proof.Machine

/-- The general registers that have storage: x1 .. x31, x1 first. x0 has none (`10_state.md` R31, R50). -/
abbrev Regs := Vector Word 31

/-- The arena (`10_state.md` R48): the bytes that are not 0, by strictly rising address. An unlisted byte is 0
(`10_state.md` R51: "A flat, zero-initialized sequence of bytes"). -/
abbrev Memory := List Host.Cell

/-- The syscall table (`10_state.md` R44): the registered codes, strictly rising, with their handlers. -/
abbrev SyscallTable := List (Nat × HandlerId)

/-- A call the block has made of one of the host's callbacks (`44_system.md` R248, `60_exceptions.md` R262). -/
inductive CallbackCall where
  | exit (cb : CallbackId) (status : Word)
  | panic (cb : CallbackId) (message : String)
  deriving DecidableEq, Repr

/-- How a run ended: the outcome names of `60_exceptions.md` R276. -/
inductive RunOutcome where
  | exited (status : Word)
  | broke
  | stopped
  | panicked (reason : PanicReason)
  deriving DecidableEq, Repr

structure State where
  /-- x1 .. x31 (`10_state.md` R30). Every access goes through `State.reg` and `State.setReg`. -/
  regs : Regs
  /-- The program counter (`10_state.md` R36). -/
  pc : Word
  /-- The arena (`10_state.md` R48). -/
  mem : Memory
  /-- The running flag (`10_state.md` R42). -/
  running : Bool
  /-- `exit_code`, a signed 64-bit integer (`10_state.md` R43, D9, log entry 20). -/
  exitCode : Int
  /-- The syscall table (`10_state.md` R44). -/
  syscalls : SyscallTable
  /-- The exit callback, if one is recorded (`10_state.md` R45). -/
  exitCb : Option CallbackId
  /-- The panic callback, if one is recorded (`10_state.md` R45). -/
  panicCb : Option CallbackId
  /-- THE MODEL'S OWN: how many free values have been drawn (log entry 2). -/
  draws : Nat
  /-- THE MODEL'S OWN: what the host does in its coming handler invocations, the next one first (log entry 7). -/
  handlerMoves : List HandlerMove
  /-- THE MODEL'S OWN: the callbacks' calls so far, oldest first. No instruction reads it (log entry 10). -/
  callbackCalls : List CallbackCall
  /-- THE MODEL'S OWN: how the latest run ended, none since `run()` was called. No instruction reads it (log entry 11). -/
  outcome : Option RunOutcome
  deriving DecidableEq, Repr

/-- What stops the machine with no next state. A panic is not here: it has its own effects and is a next state
(`60_exceptions.md` R262, log entry 1). -/
inductive Fault where
  /-- Raised by ECALL when the handler it invoked never returns: the ECALL has no next state (`44_system.md` R238,
  `93_implementation_defined.md` U11, log entry 8). Safe: the hardware does not go on either. -/
  | handlerNeverReturns (handler : HandlerId)
  deriving DecidableEq, Repr

/-- What the model has no meaning for. -/
inductive Refusal where
  /-- Raised by an arm of `exec` for an instruction that has no meaning yet. Safe: the model stops. -/
  | notModelled (mnemonic : String)
  /-- Raised by the host interface for a host call during a run: the host makes none (`44_system.md` R238, R245, D11,
  D20, log entry 22). Safe: the model has no such move. -/
  | hostCallDuringRun
  /-- Raised by `get_pointer_param(i)` for i ≥ 22 (`44_system.md` R241, D12, U13, log entry 22). Safe: the call is
  refused. -/
  | pointerParamOutOfRange (i : Nat)
  deriving DecidableEq, Repr

/-- The state after creation and `initialize` (`10_state.md` R51, `70_reset_and_hazards.md` R290, R291), with the
callbacks passed to `initialize`. -/
def State.created (exitCb panicCb : Option CallbackId) : State where
  regs := Vector.replicate 31 0#64
  pc := BitVec.ofNat 64 Config.loadBase
  mem := []
  running := false
  exitCode := 0
  syscalls := []
  exitCb := exitCb
  panicCb := panicCb
  draws := 0
  handlerMoves := []
  callbackCalls := []
  outcome := none

/-- The state after reset, no callback recorded (log entry 6). -/
def State.reset : State := State.created none none

end Sys2Proof.Machine
end

