-- ==== Sys2Proof/Machine/Memory.lean ====
section
/-! DEFINITION. The arena as data (`20_memory.md` R60 to R67): reading and writing one byte, little-endian assembly of
wider values, and the canonical form. Range checks stand in Ops.lean. -/

namespace Sys2Proof.Machine

/-- What an unlisted address reads as (`10_state.md` R51). -/
def Memory.unlisted : Byte := 0#8

/-- The byte at an address. -/
def Memory.readByte : Memory → Nat → Byte
  | [], _ => Memory.unlisted
  | (k, v) :: m, a => if k = a then v else Memory.readByte m a

/-- Drop what is listed at an address. -/
def Memory.erase (m : Memory) (a : Nat) : Memory := m.filter fun c => c.1 ≠ a

/-- List a byte at an address, before the first higher address. -/
def Memory.insert (a : Nat) (v : Byte) : Memory → Memory
  | [] => [(a, v)]
  | (k, u) :: m => if k < a then (k, u) :: Memory.insert a v m else (a, v) :: (k, u) :: m

/-- Write one byte and keep the canonical form: the byte an unlisted address reads as is not listed. -/
def Memory.writeByte (m : Memory) (a : Nat) (v : Byte) : Memory :=
  if v = Memory.unlisted then m.erase a else Memory.insert a v (m.erase a)

/-- The `n`-byte little-endian value at `a`, in the low `8 * n` bits of a word (R62). -/
def Memory.readBytes (m : Memory) (a : Nat) : Nat → Word
  | 0 => 0#64
  | n + 1 => (m.readByte a).setWidth 64 ||| Memory.readBytes m (a + 1) n <<< 8

/-- Store the low `8 * n` bits of `v`, the lowest byte at `a` (R63). -/
def Memory.writeBytes (m : Memory) (a : Nat) : Nat → Word → Memory
  | 0, _ => m
  | n + 1, v => Memory.writeBytes (m.writeByte a (v.setWidth 8)) (a + 1) n (v >>> 8)

/-- Copy a sequence of bytes to `a` and up (`70_reset_and_hazards.md` R292). -/
def Memory.copy (m : Memory) (a : Nat) : List Byte → Memory
  | [] => m
  | b :: bs => Memory.copy (m.writeByte a b) (a + 1) bs

/-- Every listed address is at least `lo` and below `MEM_SIZE`, addresses rise strictly, and no listed byte is the one
an unlisted address reads as. -/
def Memory.wfFrom : Nat → Memory → Bool
  | _, [] => true
  | lo, (k, v) :: m =>
    decide (lo ≤ k) && decide (k < Config.memSize) && decide (v ≠ Memory.unlisted) && Memory.wfFrom (k + 1) m

/-- The canonical form of the arena. -/
def Memory.wf (m : Memory) : Bool := Memory.wfFrom 0 m

/-- The bytes from `a` up to (but excluding) the first zero byte, at most `n` of them (`44_system.md` R243). -/
def Memory.stringBytes (m : Memory) (a : Nat) : Nat → List Byte
  | 0 => []
  | n + 1 => if m.readByte a = 0#8 then [] else m.readByte a :: Memory.stringBytes m (a + 1) n

/-- The handler registered at a code (`44_system.md` R237). -/
def SyscallTable.find : SyscallTable → Nat → Option HandlerId
  | [], _ => none
  | (k, h) :: t, c => if k = c then some h else SyscallTable.find t c

/-- Drop what is listed at a code. -/
def SyscallTable.erase (t : SyscallTable) (c : Nat) : SyscallTable := t.filter fun e => e.1 ≠ c

/-- List a handler at a code, before the first higher code. -/
def SyscallTable.insert (c : Nat) (h : HandlerId) : SyscallTable → SyscallTable
  | [] => [(c, h)]
  | (k, g) :: t => if k < c then (k, g) :: SyscallTable.insert c h t else (c, h) :: (k, g) :: t

/-- Install a handler at a code, replacing any handler there (`44_system.md` R237). -/
def SyscallTable.install (t : SyscallTable) (c : Nat) (h : HandlerId) : SyscallTable :=
  SyscallTable.insert c h (SyscallTable.erase t c)

/-- Codes are 64-bit, at least `lo`, and rise strictly. -/
def SyscallTable.wfFrom : Nat → SyscallTable → Bool
  | _, [] => true
  | lo, (k, _) :: t => decide (lo ≤ k) && decide (k < 2 ^ 64) && SyscallTable.wfFrom (k + 1) t

/-- The canonical form of the syscall table. -/
def SyscallTable.wf (t : SyscallTable) : Bool := SyscallTable.wfFrom 0 t

end Sys2Proof.Machine
end

