-- ==== Sys2Proof/Machine/Ops.lean ====
section
/-! DEFINITION. The named operations over registers and arena (`00_scope.md` R14), taking a panic
(`60_exceptions.md` R262, R263) and, in the place of a return from an exception, `run()` (R267). -/

namespace Sys2Proof.Machine

/-! ## Registers -/

/-- The slot of a register with storage: x1 is slot 0. -/
theorem regSlot_lt {i : RegIdx} (h : i ≠ 0#5) : i.toNat - 1 < 31 := by
  have h0 : i.toNat ≠ 0 := fun e => h (BitVec.eq_of_toNat_eq e)
  omega

/-- `x[i]`: register 0 reads 0 (`10_state.md` R31), and x1 .. x31 are read alike (R34). -/
def State.reg (s : State) (i : RegIdx) : Word :=
  if h : i = 0#5 then 0#64 else s.regs[i.toNat - 1]'(regSlot_lt h)

/-- `x[i] <- v`: a write to register 0 is dropped, any other stores the value verbatim (`10_state.md` R31, R32), x1 .. x31
alike (R34). -/
def State.setReg (s : State) (i : RegIdx) (v : Word) : State :=
  if h : i = 0#5 then s else { s with regs := s.regs.set (i.toNat - 1) v (regSlot_lt h) }

/-- x10, syscall argument 0 and result (`10_state.md` R33). -/
def regA0 : RegIdx := 10#5

/-- x17, the syscall code (`10_state.md` R33). -/
def regA7 : RegIdx := 17#5

/-- x2, the stack pointer (`10_state.md` R33). -/
def regSp : RegIdx := 2#5

/-- The standard ABI names of the registers, x0 first (`10_state.md` R34). They are conventions of the assembler: nothing the
block does depends on one. All but zero, sp and a0 .. a7 are the spec's general knowledge (G1, log entry 34). -/
def abiNames : List (String × RegIdx) :=
  [("zero", 0#5), ("ra", 1#5), ("sp", 2#5), ("gp", 3#5), ("tp", 4#5), ("t0", 5#5), ("t1", 6#5), ("t2", 7#5)] ++
  [("s0", 8#5), ("fp", 8#5), ("s1", 9#5)] ++
  [("a0", 10#5), ("a1", 11#5), ("a2", 12#5), ("a3", 13#5), ("a4", 14#5), ("a5", 15#5), ("a6", 16#5), ("a7", 17#5)] ++
  [("s2", 18#5), ("s3", 19#5), ("s4", 20#5), ("s5", 21#5), ("s6", 22#5), ("s7", 23#5), ("s8", 24#5), ("s9", 25#5),
    ("s10", 26#5), ("s11", 27#5)] ++
  [("t3", 28#5), ("t4", 29#5), ("t5", 30#5), ("t6", 31#5)]

/-- The register an ABI name stands for, none for any other name (`10_state.md` R34). -/
def abiRegister (name : String) : Option RegIdx := abiNames.lookup name

/-! ## The pc -/

/-- `pc <- target`. -/
def State.setPc (s : State) (target : Word) : State := { s with pc := target }

/-- The address of the next instruction, `pc + 4` modulo 2⁶⁴ (`10_state.md` R37, R38). -/
def State.nextPc (s : State) : Word := s.pc + 4#64

/-- `pc <- pc + 4`. -/
def State.advance (s : State) : State := s.setPc s.nextPc

/-! ## The arena -/

/-- An access of `w.bytes` bytes at `a` is in range, compared as unbounded integers (`20_memory.md` R61). -/
def inRange (a : Word) (w : Width) : Bool := decide (a.toNat + w.bytes ≤ Config.memSize)

/-- The byte of the arena at an address. -/
def State.byte (s : State) (a : Nat) : Byte := s.mem.readByte a

/-- `MemRead(a, n)` (`20_memory.md` R62, R64): the little-endian value in the low bits of a word, or the panic. -/
def memRead (s : State) (a : Word) (w : Width) : Except PanicReason Word :=
  if inRange a w then .ok (s.mem.readBytes a.toNat w.bytes) else .error .outOfRange

/-- `MemWrite(a, n, v)` (`20_memory.md` R63, R64): the whole access is checked before any byte is written. -/
def memWrite (s : State) (a : Word) (w : Width) (v : Word) : Except PanicReason State :=
  if inRange a w then .ok { s with mem := s.mem.writeBytes a.toNat w.bytes v } else .error .outOfRange

/-- The instruction word at the pc, `MemRead(pc, 4)`, with no alignment check (`20_memory.md` R69, `30_encoding.md`
R120). -/
def fetch (s : State) : Except PanicReason InstWord :=
  match memRead s s.pc .word with
  | .ok v => .ok (v.setWidth 32)
  | .error r => .error r

/-! ## Taking a panic -/

/-- The message handed to the panic callback (`60_exceptions.md` R261). -/
def panicText : PanicReason → String
  | .outOfRange => "out of range"
  | .invalidSyscall => "invalid system call"
  | .invalidOpcode => Config.panicMessage .invalidOpcode
  | .invalidFunct => Config.panicMessage .invalidFunct
  | .invalidSystem => Config.panicMessage .invalidSystem

/-- The calls a panic makes: one of the panic callback, if there is one (`60_exceptions.md` R262). -/
def panicCalls (s : State) (r : PanicReason) : List CallbackCall :=
  match s.panicCb with
  | some cb => [.panic cb (panicText r)]
  | none => []

/-- `pc_after_panic`: a draw from pc and pc + 4 (`60_exceptions.md` R263). -/
def pcAfterPanic (s : State) (r : PanicReason) : Word :=
  if Config.panicAdvancesPc s.draws r s.pc then s.nextPc else s.pc

/-- The panic sequence (`60_exceptions.md` R262): the callback, exit_code ← −1, running ← false, the pc. No register
and no byte changes. -/
def takePanic (r : PanicReason) (s : State) : State :=
  { s with
    callbackCalls := s.callbackCalls ++ panicCalls s r
    exitCode := -1
    running := false
    pc := pcAfterPanic s r
    draws := s.draws + 1
    outcome := some (.panicked r) }

/-- `run()` sets `running` and changes nothing the spec gives the machine: a run goes on from the current pc
(`44_system.md` R244, `60_exceptions.md` R267). There is no trap return and nothing is restored. -/
def startRun (s : State) : State := { s with running := true, outcome := none }

/-! ## Completing an instruction -/

/-- `x[rd] <- v` and `pc <- pc + 4`. -/
def retire (rd : RegIdx) (v : Word) (s : State) : State := (s.setReg rd v).advance

/-- `x[rd] <- pc + 4` and `pc <- target`, the target formed before rd is written (`43_upper_and_control.md` R212, R213). -/
def link (rd : RegIdx) (target : Word) (s : State) : State := (s.setReg rd s.nextPc).setPc target

end Sys2Proof.Machine
end

