-- ==== Sys2Proof/Machine/Operands.lean ====
section
/-! DEFINITION. Operand forms: sign-extended immediates (`30_encoding.md` R98 to R103), effective addresses
(`40_load_store.md` R130, R140), jump targets, word operands and shift amounts. -/

namespace Sys2Proof.Machine

/-- A 12-, 13-, 21- or 32-bit immediate as a 64-bit value, sign-extended from its top bit (`30_encoding.md` R103). -/
def sext {n : Nat} (imm : BitVec n) : Word := imm.signExtend 64

/-- `x[rs1] + imm` modulo 2⁶⁴: the address of a load (immI) or a store (immS) (`40_load_store.md` R130, R140). -/
def effAddr (s : State) (rs1 : RegIdx) (imm : BitVec 12) : Word := s.reg rs1 + sext imm

/-- `pc + imm` modulo 2⁶⁴ (`43_upper_and_control.md` R212, R214). -/
def pcTarget {n : Nat} (s : State) (imm : BitVec n) : Word := s.pc + sext imm

/-- `(x[rs1] + immI) & ~1` (`43_upper_and_control.md` R213). -/
def jalrTarget (s : State) (rs1 : RegIdx) (imm : BitVec 12) : Word := (s.reg rs1 + sext imm) &&& ~~~1#64

/-- The low 32 bits of a value (`41_op_imm.md` R161, `42_op.md` R190). -/
def low32 (v : Word) : BitVec 32 := v.setWidth 32

/-- A 32-bit result as a register value (`41_op_imm.md` R161, `42_op.md` R190). -/
def wordResult (v : BitVec 32) : Word := v.signExtend 64

/-- A 64-bit shift amount: bits 5..0 of rs2 (`42_op.md` R173, R177, R178). -/
def shiftAmount64 (b : Word) : Nat := (b &&& 0x3F#64).toNat

/-- A word shift amount: bits 4..0 of rs2 (`42_op.md` R190, R193 to R195). -/
def shiftAmount32 (b : Word) : Nat := (b &&& 0x1F#64).toNat

end Sys2Proof.Machine
end

