-- ==== Sys2Proof/Machine/Flags.lean ====
section
/-! DEFINITION. The block has no flags (`10_state.md` R40). What another machine would compute as flags is here the
comparison that a set instruction stores as 0 or 1 or that a branch decides on. -/

namespace Sys2Proof.Machine

/-- `bool01(c)` (`00_scope.md` R13). -/
def bool01 (c : Bool) : Word := if c then 1#64 else 0#64

/-- `s(a) < s(b)` (`00_scope.md` R13). -/
def ltSigned (a b : Word) : Bool := decide (a.toInt < b.toInt)

/-- `u(a) < u(b)` (`00_scope.md` R13). -/
def ltUnsigned (a b : Word) : Bool := decide (a.toNat < b.toNat)

end Sys2Proof.Machine
end

