-- ==== Sys2Proof/Machine/Control.lean ====
section
/-! DEFINITION. LUI, AUIPC, JAL, JALR and BRANCH (`43_upper_and_control.md` R210 to R220). There are no delay slots, and a bad target
panics at the next fetch, not here (R212, R264). -/

namespace Sys2Proof.Machine

/-- R210: bits 11..0 zero, bits 63..32 copies of bit 31. -/
def execLui (rd : RegIdx) (imm : BitVec 32) (s : State) : Host.Outcome State Fault Refusal :=
  .next (retire rd (sext imm) s)

/-- R211: the pc of the AUIPC itself, modulo 2⁶⁴. -/
def execAuipc (rd : RegIdx) (imm : BitVec 32) (s : State) : Host.Outcome State Fault Refusal :=
  .next (retire rd (pcTarget s imm) s)

/-- R212. -/
def execJal (rd : RegIdx) (imm : BitVec 21) (s : State) : Host.Outcome State Fault Refusal :=
  .next (link rd (pcTarget s imm) s)

/-- R213: bit 0 of the target is cleared, bit 1 is kept, and the target uses the old value of rs1. -/
def execJalr (rd rs1 : RegIdx) (imm : BitVec 12) (s : State) : Host.Outcome State Fault Refusal :=
  .next (link rd (jalrTarget s rs1 imm) s)

/-- Common to BRANCH (R214): to pc + immB if the comparison holds, else on to pc + 4. -/
def branchIf (taken : Bool) (imm : BitVec 13) (s : State) : State :=
  if taken then s.setPc (pcTarget s imm) else s.advance

/-- R215. -/
def execBeq (rs1 rs2 : RegIdx) (imm : BitVec 13) (s : State) : Host.Outcome State Fault Refusal :=
  .next (branchIf (s.reg rs1 == s.reg rs2) imm s)

/-- R216. -/
def execBne (rs1 rs2 : RegIdx) (imm : BitVec 13) (s : State) : Host.Outcome State Fault Refusal :=
  .next (branchIf (s.reg rs1 != s.reg rs2) imm s)

/-- R217. -/
def execBlt (rs1 rs2 : RegIdx) (imm : BitVec 13) (s : State) : Host.Outcome State Fault Refusal :=
  .next (branchIf (ltSigned (s.reg rs1) (s.reg rs2)) imm s)

/-- R218. -/
def execBge (rs1 rs2 : RegIdx) (imm : BitVec 13) (s : State) : Host.Outcome State Fault Refusal :=
  .next (branchIf (!ltSigned (s.reg rs1) (s.reg rs2)) imm s)

/-- R219. -/
def execBltu (rs1 rs2 : RegIdx) (imm : BitVec 13) (s : State) : Host.Outcome State Fault Refusal :=
  .next (branchIf (ltUnsigned (s.reg rs1) (s.reg rs2)) imm s)

/-- R220. -/
def execBgeu (rs1 rs2 : RegIdx) (imm : BitVec 13) (s : State) : Host.Outcome State Fault Refusal :=
  .next (branchIf (!ltUnsigned (s.reg rs1) (s.reg rs2)) imm s)

end Sys2Proof.Machine
end

