-- ==== Sys2Proof/Machine/Load.lean ====
section
/-! DEFINITION. LOAD, opcode 0x03 (`40_load_store.md` R130 to R137). -/

namespace Sys2Proof.Machine

/-- Common to every load (R130): the access is made even when rd is x0, the extended value goes to rd, and an
out-of-range access panics and writes no register. -/
def loadInto (rd rs1 : RegIdx) (imm : BitVec 12) (w : Width) (extend : Word → Word) (s : State) :
    Host.Outcome State Fault Refusal :=
  match memRead s (effAddr s rs1 imm) w with
  | .ok v => .next (retire rd (extend v) s)
  | .error r => .next (takePanic r s)

/-- R131: sext_8 of one byte. -/
def execLb (rd rs1 : RegIdx) (imm : BitVec 12) (s : State) : Host.Outcome State Fault Refusal :=
  loadInto rd rs1 imm .byte (fun v => (v.setWidth 8).signExtend 64) s

/-- R132: sext_16 of two bytes. -/
def execLh (rd rs1 : RegIdx) (imm : BitVec 12) (s : State) : Host.Outcome State Fault Refusal :=
  loadInto rd rs1 imm .half (fun v => (v.setWidth 16).signExtend 64) s

/-- R133: sext_32 of four bytes. -/
def execLw (rd rs1 : RegIdx) (imm : BitVec 12) (s : State) : Host.Outcome State Fault Refusal :=
  loadInto rd rs1 imm .word (fun v => (v.setWidth 32).signExtend 64) s

/-- R134: eight bytes. -/
def execLd (rd rs1 : RegIdx) (imm : BitVec 12) (s : State) : Host.Outcome State Fault Refusal :=
  loadInto rd rs1 imm .double (fun v => v) s

/-- R135: zext_8 of one byte. -/
def execLbu (rd rs1 : RegIdx) (imm : BitVec 12) (s : State) : Host.Outcome State Fault Refusal :=
  loadInto rd rs1 imm .byte (fun v => (v.setWidth 8).setWidth 64) s

/-- R136: zext_16 of two bytes. -/
def execLhu (rd rs1 : RegIdx) (imm : BitVec 12) (s : State) : Host.Outcome State Fault Refusal :=
  loadInto rd rs1 imm .half (fun v => (v.setWidth 16).setWidth 64) s

/-- R137: zext_32 of four bytes. -/
def execLwu (rd rs1 : RegIdx) (imm : BitVec 12) (s : State) : Host.Outcome State Fault Refusal :=
  loadInto rd rs1 imm .word (fun v => (v.setWidth 32).setWidth 64) s

end Sys2Proof.Machine
end

