-- ==== Sys2Proof/Machine/Alu.lean ====
section
/-! DEFINITION. Multiplication and division (`42_op.md` R181 to R188, R196 to R200): exact integer arithmetic, narrowed
at the end. The 64-bit and the word instructions share the definitions at their two widths, as OP-32 is the "Same table
restricted to word variants" (R190). -/

namespace Sys2Proof.Machine

/-- Bits 127..64 of an exact product (R182 to R184). -/
def highHalf (p : Int) : Word := (BitVec.ofInt 128 p).extractLsb' 64 64

/-- The low bits of the signed product (R181, R196). -/
def mulLow {n : Nat} (a b : BitVec n) : BitVec n := BitVec.ofInt n (a.toInt * b.toInt)

/-- Signed quotient, rounded toward zero; x/0 is all ones and MIN / −1 is MIN (R185, R197; log entries 16, 17). -/
def divSigned {n : Nat} (a b : BitVec n) : BitVec n :=
  if b = 0#n then BitVec.allOnes n
  else if a = BitVec.intMin n ∧ b = BitVec.allOnes n then BitVec.intMin n
  else BitVec.ofInt n (a.toInt.tdiv b.toInt)

/-- Unsigned quotient; x/0 is all ones (R186, R198). -/
def divUnsigned {n : Nat} (a b : BitVec n) : BitVec n :=
  if b = 0#n then BitVec.allOnes n else BitVec.ofNat n (a.toNat / b.toNat)

/-- Signed remainder, a − b × trunc(a / b); x%0 is x and MIN % −1 is 0 (R187, R199). -/
def remSigned {n : Nat} (a b : BitVec n) : BitVec n :=
  if b = 0#n then a
  else if a = BitVec.intMin n ∧ b = BitVec.allOnes n then 0#n
  else BitVec.ofInt n (a.toInt - b.toInt * a.toInt.tdiv b.toInt)

/-- Unsigned remainder; x%0 is x (R188, R200). -/
def remUnsigned {n : Nat} (a b : BitVec n) : BitVec n :=
  if b = 0#n then a else BitVec.ofNat n (a.toNat % b.toNat)

end Sys2Proof.Machine
end

