-- ==== Sys2Proof/Machine/Op.lean ====
section
/-! DEFINITION. OP, opcode 0x33 (`42_op.md` R170 to R188): both operands are read before rd is written, and nothing traps. -/

namespace Sys2Proof.Machine

/-- R171. -/
def execAdd (rd rs1 rs2 : RegIdx) (s : State) : Host.Outcome State Fault Refusal :=
  .next (retire rd (s.reg rs1 + s.reg rs2) s)

/-- R172. -/
def execSub (rd rs1 rs2 : RegIdx) (s : State) : Host.Outcome State Fault Refusal :=
  .next (retire rd (s.reg rs1 - s.reg rs2) s)

/-- R173. -/
def execSll (rd rs1 rs2 : RegIdx) (s : State) : Host.Outcome State Fault Refusal :=
  .next (retire rd (s.reg rs1 <<< shiftAmount64 (s.reg rs2)) s)

/-- R174; operand order PRESUMED (G9), log entry 16. -/
def execSlt (rd rs1 rs2 : RegIdx) (s : State) : Host.Outcome State Fault Refusal :=
  .next (retire rd (bool01 (ltSigned (s.reg rs1) (s.reg rs2))) s)

/-- R175; operand order PRESUMED (G9), log entry 16. -/
def execSltu (rd rs1 rs2 : RegIdx) (s : State) : Host.Outcome State Fault Refusal :=
  .next (retire rd (bool01 (ltUnsigned (s.reg rs1) (s.reg rs2))) s)

/-- R176. -/
def execXor (rd rs1 rs2 : RegIdx) (s : State) : Host.Outcome State Fault Refusal :=
  .next (retire rd (s.reg rs1 ^^^ s.reg rs2) s)

/-- R177. -/
def execSrl (rd rs1 rs2 : RegIdx) (s : State) : Host.Outcome State Fault Refusal :=
  .next (retire rd (s.reg rs1 >>> shiftAmount64 (s.reg rs2)) s)

/-- R178. -/
def execSra (rd rs1 rs2 : RegIdx) (s : State) : Host.Outcome State Fault Refusal :=
  .next (retire rd ((s.reg rs1).sshiftRight (shiftAmount64 (s.reg rs2))) s)

/-- R179. -/
def execOr (rd rs1 rs2 : RegIdx) (s : State) : Host.Outcome State Fault Refusal :=
  .next (retire rd (s.reg rs1 ||| s.reg rs2) s)

/-- R180. -/
def execAnd (rd rs1 rs2 : RegIdx) (s : State) : Host.Outcome State Fault Refusal :=
  .next (retire rd (s.reg rs1 &&& s.reg rs2) s)

/-- R181. -/
def execMul (rd rs1 rs2 : RegIdx) (s : State) : Host.Outcome State Fault Refusal :=
  .next (retire rd (mulLow (s.reg rs1) (s.reg rs2)) s)

/-- R182. -/
def execMulh (rd rs1 rs2 : RegIdx) (s : State) : Host.Outcome State Fault Refusal :=
  .next (retire rd (highHalf ((s.reg rs1).toInt * (s.reg rs2).toInt)) s)

/-- R183: rs1 signed, rs2 unsigned; the roles are PRESUMED (G8), log entry 16. -/
def execMulhsu (rd rs1 rs2 : RegIdx) (s : State) : Host.Outcome State Fault Refusal :=
  .next (retire rd (highHalf ((s.reg rs1).toInt * ((s.reg rs2).toNat : Int))) s)

/-- R184. -/
def execMulhu (rd rs1 rs2 : RegIdx) (s : State) : Host.Outcome State Fault Refusal :=
  .next (retire rd (highHalf (((s.reg rs1).toNat : Int) * ((s.reg rs2).toNat : Int))) s)

/-- R185. -/
def execDiv (rd rs1 rs2 : RegIdx) (s : State) : Host.Outcome State Fault Refusal :=
  .next (retire rd (divSigned (s.reg rs1) (s.reg rs2)) s)

/-- R186. -/
def execDivu (rd rs1 rs2 : RegIdx) (s : State) : Host.Outcome State Fault Refusal :=
  .next (retire rd (divUnsigned (s.reg rs1) (s.reg rs2)) s)

/-- R187. -/
def execRem (rd rs1 rs2 : RegIdx) (s : State) : Host.Outcome State Fault Refusal :=
  .next (retire rd (remSigned (s.reg rs1) (s.reg rs2)) s)

/-- R188. -/
def execRemu (rd rs1 rs2 : RegIdx) (s : State) : Host.Outcome State Fault Refusal :=
  .next (retire rd (remUnsigned (s.reg rs1) (s.reg rs2)) s)

end Sys2Proof.Machine
end

