-- ==== Sys2Proof/Machine/Op32.lean ====
section
/-! DEFINITION. OP-32, opcode 0x3B (`42_op.md` R190 to R200): low 32 bits of the operands, a 32-bit result, sign-extended. -/

namespace Sys2Proof.Machine

/-- R191. -/
def execAddw (rd rs1 rs2 : RegIdx) (s : State) : Host.Outcome State Fault Refusal :=
  .next (retire rd (wordResult (low32 (s.reg rs1) + low32 (s.reg rs2))) s)

/-- R192. -/
def execSubw (rd rs1 rs2 : RegIdx) (s : State) : Host.Outcome State Fault Refusal :=
  .next (retire rd (wordResult (low32 (s.reg rs1) - low32 (s.reg rs2))) s)

/-- R193. -/
def execSllw (rd rs1 rs2 : RegIdx) (s : State) : Host.Outcome State Fault Refusal :=
  .next (retire rd (wordResult (low32 (s.reg rs1) <<< shiftAmount32 (s.reg rs2))) s)

/-- R194. -/
def execSrlw (rd rs1 rs2 : RegIdx) (s : State) : Host.Outcome State Fault Refusal :=
  .next (retire rd (wordResult (low32 (s.reg rs1) >>> shiftAmount32 (s.reg rs2))) s)

/-- R195. -/
def execSraw (rd rs1 rs2 : RegIdx) (s : State) : Host.Outcome State Fault Refusal :=
  .next (retire rd (wordResult ((low32 (s.reg rs1)).sshiftRight (shiftAmount32 (s.reg rs2)))) s)

/-- R196. -/
def execMulw (rd rs1 rs2 : RegIdx) (s : State) : Host.Outcome State Fault Refusal :=
  .next (retire rd (wordResult (mulLow (low32 (s.reg rs1)) (low32 (s.reg rs2)))) s)

/-- R197. -/
def execDivw (rd rs1 rs2 : RegIdx) (s : State) : Host.Outcome State Fault Refusal :=
  .next (retire rd (wordResult (divSigned (low32 (s.reg rs1)) (low32 (s.reg rs2)))) s)

/-- R198. -/
def execDivuw (rd rs1 rs2 : RegIdx) (s : State) : Host.Outcome State Fault Refusal :=
  .next (retire rd (wordResult (divUnsigned (low32 (s.reg rs1)) (low32 (s.reg rs2)))) s)

/-- R199. -/
def execRemw (rd rs1 rs2 : RegIdx) (s : State) : Host.Outcome State Fault Refusal :=
  .next (retire rd (wordResult (remSigned (low32 (s.reg rs1)) (low32 (s.reg rs2)))) s)

/-- R200. -/
def execRemuw (rd rs1 rs2 : RegIdx) (s : State) : Host.Outcome State Fault Refusal :=
  .next (retire rd (wordResult (remUnsigned (low32 (s.reg rs1)) (low32 (s.reg rs2)))) s)

end Sys2Proof.Machine
end

