-- ==== Sys2Proof/Machine/OpImm.lean ====
section
/-! DEFINITION. OP-IMM, opcode 0x13 (`41_op_imm.md` R150 to R159): the operand is read before rd is written. -/

namespace Sys2Proof.Machine

/-- R151. -/
def execAddi (rd rs1 : RegIdx) (imm : BitVec 12) (s : State) : Host.Outcome State Fault Refusal :=
  .next (retire rd (s.reg rs1 + sext imm) s)

/-- R152. -/
def execSlli (rd rs1 : RegIdx) (shamt : BitVec 6) (s : State) : Host.Outcome State Fault Refusal :=
  .next (retire rd (s.reg rs1 <<< shamt.toNat) s)

/-- R153. -/
def execSlti (rd rs1 : RegIdx) (imm : BitVec 12) (s : State) : Host.Outcome State Fault Refusal :=
  .next (retire rd (bool01 (ltSigned (s.reg rs1) (sext imm))) s)

/-- R154: the immediate is sign-extended, then compared as unsigned. -/
def execSltiu (rd rs1 : RegIdx) (imm : BitVec 12) (s : State) : Host.Outcome State Fault Refusal :=
  .next (retire rd (bool01 (ltUnsigned (s.reg rs1) (sext imm))) s)

/-- R155. -/
def execXori (rd rs1 : RegIdx) (imm : BitVec 12) (s : State) : Host.Outcome State Fault Refusal :=
  .next (retire rd (s.reg rs1 ^^^ sext imm) s)

/-- R156. -/
def execSrli (rd rs1 : RegIdx) (shamt : BitVec 6) (s : State) : Host.Outcome State Fault Refusal :=
  .next (retire rd (s.reg rs1 >>> shamt.toNat) s)

/-- R157. -/
def execSrai (rd rs1 : RegIdx) (shamt : BitVec 6) (s : State) : Host.Outcome State Fault Refusal :=
  .next (retire rd ((s.reg rs1).sshiftRight shamt.toNat) s)

/-- R158. -/
def execOri (rd rs1 : RegIdx) (imm : BitVec 12) (s : State) : Host.Outcome State Fault Refusal :=
  .next (retire rd (s.reg rs1 ||| sext imm) s)

/-- R159. -/
def execAndi (rd rs1 : RegIdx) (imm : BitVec 12) (s : State) : Host.Outcome State Fault Refusal :=
  .next (retire rd (s.reg rs1 &&& sext imm) s)

end Sys2Proof.Machine
end

