-- ==== Sys2Proof/Machine/OpImm32.lean ====
section
/-! DEFINITION. OP-IMM-32, opcode 0x1B (`41_op_imm.md` R161 to R165): a 32-bit result, sign-extended. -/

namespace Sys2Proof.Machine

/-- R162. -/
def execAddiw (rd rs1 : RegIdx) (imm : BitVec 12) (s : State) : Host.Outcome State Fault Refusal :=
  .next (retire rd (wordResult (low32 (s.reg rs1 + sext imm))) s)

/-- R163. -/
def execSlliw (rd rs1 : RegIdx) (shamt : BitVec 5) (s : State) : Host.Outcome State Fault Refusal :=
  .next (retire rd (wordResult (low32 (s.reg rs1) <<< shamt.toNat)) s)

/-- R164. -/
def execSrliw (rd rs1 : RegIdx) (shamt : BitVec 5) (s : State) : Host.Outcome State Fault Refusal :=
  .next (retire rd (wordResult (low32 (s.reg rs1) >>> shamt.toNat)) s)

/-- R165. -/
def execSraiw (rd rs1 : RegIdx) (shamt : BitVec 5) (s : State) : Host.Outcome State Fault Refusal :=
  .next (retire rd (wordResult ((low32 (s.reg rs1)).sshiftRight shamt.toNat)) s)

end Sys2Proof.Machine
end

