-- ==== Sys2Proof/Machine/Store.lean ====
section
/-! DEFINITION. STORE, opcode 0x23 (`40_load_store.md` R140 to R144). -/

namespace Sys2Proof.Machine

/-- Common to every store (R140): the low bits of rs2, little-endian, at x[rs1] + immS; an out-of-range access panics
and writes no byte. -/
def storeFrom (rs1 rs2 : RegIdx) (imm : BitVec 12) (w : Width) (s : State) : Host.Outcome State Fault Refusal :=
  match memWrite s (effAddr s rs1 imm) w (s.reg rs2) with
  | .ok t => .next t.advance
  | .error r => .next (takePanic r s)

/-- R141. -/
def execSb (rs1 rs2 : RegIdx) (imm : BitVec 12) (s : State) : Host.Outcome State Fault Refusal :=
  storeFrom rs1 rs2 imm .byte s

/-- R142. -/
def execSh (rs1 rs2 : RegIdx) (imm : BitVec 12) (s : State) : Host.Outcome State Fault Refusal :=
  storeFrom rs1 rs2 imm .half s

/-- R143. -/
def execSw (rs1 rs2 : RegIdx) (imm : BitVec 12) (s : State) : Host.Outcome State Fault Refusal :=
  storeFrom rs1 rs2 imm .word s

/-- R144. -/
def execSd (rs1 rs2 : RegIdx) (imm : BitVec 12) (s : State) : Host.Outcome State Fault Refusal :=
  storeFrom rs1 rs2 imm .double s

end Sys2Proof.Machine
end

