-- ==== Sys2Proof/Machine/System.lean ====
section
/-! DEFINITION. FENCE, ECALL with its dispatch, and EBREAK (`44_system.md` R230 to R240). -/

namespace Sys2Proof.Machine

/-- R230: a no-op. -/
def execFence (s : State) : Host.Outcome State Fault Refusal :=
  .next s.advance

/-! ## The exit syscall (R232) -/

/-- The calls the exit syscall makes: one of the exit callback with the status, if there is one (R248). -/
def exitCalls (s : State) (status : Word) : List CallbackCall :=
  match s.exitCb with
  | some cb => [.exit cb status]
  | none => []

/-- Code 0 (R231, R232): exit_code ← s(x10), the exit callback, running ← false; the status goes back to x10. -/
def exitSyscall (s : State) : State :=
  let status := s.reg regA0
  retire regA0 status
    { s with
      exitCode := status.toInt
      callbackCalls := s.callbackCalls ++ exitCalls s status
      running := false
      outcome := some (.exited status) }

/-! ## A registered handler (R233, R238) -/

/-- What a handler sees of the VM (R238). -/
def handlerView (s : State) : HandlerView where
  regs := s.regs
  mem := s.mem
  running := s.running
  exitCode := s.exitCode

/-- What the invoked handler does, and the state with that choice used up: the host's next listed move, or else a free
value (log entry 7). -/
def nextMove (h : HandlerId) (s : State) : HandlerMove × State :=
  match s.handlerMoves with
  | m :: rest => (m, { s with handlerMoves := rest })
  | [] => (.returns (Config.handlerReturn s.draws h (handlerView s)), { s with draws := s.draws + 1 })

/-- How the actions of a handler end: all done, or at an arena access out of range, with what was done before it
(R238, D23). -/
inductive ActionsEnd where
  | done (s : State)
  | outOfRange (s : State)

/-- The actions of a handler, in order. A write to x0 is dropped; `stop()` clears `running` (R238, R240). -/
def runActions : List HandlerAction → State → ActionsEnd
  | [], s => .done s
  | .setReg r v :: as, s => runActions as (s.setReg r v)
  | .readMem a w :: as, s =>
    match memRead s a w with
    | .ok _ => runActions as s
    | .error _ => .outOfRange s
  | .writeMem a w v :: as, s =>
    match memWrite s a w v with
    | .ok t => runActions as t
    | .error _ => .outOfRange s
  | .stop :: as, s => runActions as { s with running := false }

/-- After the handler has returned (R233): its result goes to x10 whatever it wrote there, the pc advances, and the run
ends here if it called `stop()` (R240). -/
def finishHandler (result : Word) (s : State) : State :=
  retire regA0 result { s with outcome := if s.running then s.outcome else some .stopped }

/-- Invoke the handler of a registered code (R233, R238). -/
def callHandler (h : HandlerId) (s : State) : Host.Outcome State Fault Refusal :=
  match nextMove h s with
  | (.hangs, _) => .fault (.handlerNeverReturns h)
  | (.returns r, t) =>
    match runActions r.actions t with
    | .done u => .next (finishHandler r.result u)
    | .outOfRange u => .next (takePanic .outOfRange u)

/-- R231 to R234: code 0 first, then the table, else the panic. -/
def execEcall (s : State) : Host.Outcome State Fault Refusal :=
  let code := s.reg regA7
  if code = 0#64 then .next (exitSyscall s)
  else
    match SyscallTable.find s.syscalls code.toNat with
    | some h => callHandler h s
    | none => .next (takePanic .invalidSyscall s)

/-- R235: exit_code ← −1 and running ← false, with no callback and no register written. -/
def execEbreak (s : State) : Host.Outcome State Fault Refusal :=
  .next { s.advance with exitCode := -1, running := false, outcome := some .broke }

end Sys2Proof.Machine
end

