-- ==== Sys2Proof/Machine/Step.lean ====
section
/-! DEFINITION. One step of the block (`30_encoding.md` R120, R121). -/

namespace Sys2Proof.Machine

/-- Fetch, decode, execute, taken only while `running` is true. A panic of the fetch or of the decoder is taken here
(`60_exceptions.md` R265). A halted block keeps every state element (R275, log entry 3). -/
def step (s : State) : Host.Outcome State Fault Refusal :=
  if s.running then
    match fetch s with
    | .error r => .next (takePanic r s)
    | .ok w =>
      match decode w with
      | .error r => .next (takePanic r s)
      | .ok i => exec i s
  else .next s

/-- `s` in a run, with the given instruction at its pc: what `load_from_bytes` and `run()` do together for one
instruction (log entry 4). Bits above `nbits` are 0. -/
def State.withFetchWord (s : State) (nbits w : Nat) : State :=
  startRun { s with mem := s.mem.writeBytes s.pc.toNat 4 (BitVec.ofNat 64 (w % 2 ^ nbits % 2 ^ 32)) }

end Sys2Proof.Machine
end

