-- ==== Sys2Proof/OpcodeTable.lean ====
section
/-! DEFINITION. `spec/opcode_table.json` transcribed: for each row, the bits the decoder examines (match, mask) and the
bits a canonical word fixes (canonical_match, canonical_mask, `30_encoding.md` R108). The decoder and the encoder do not
use it; statements hold them against it. -/

namespace Sys2Proof

/-- One row's four words. -/
structure OpcodeRow where
  fixed : InstWord
  mask : InstWord
  canonicalFixed : InstWord
  canonicalMask : InstWord
  deriving DecidableEq, Repr

/-- The row of an instruction. -/
def Instr.row : Instr → OpcodeRow
  | .lb _ _ _ => ⟨0x00000003#32, 0x0000707F#32, 0x00000003#32, 0x0000707F#32⟩
  | .lh _ _ _ => ⟨0x00001003#32, 0x0000707F#32, 0x00001003#32, 0x0000707F#32⟩
  | .lw _ _ _ => ⟨0x00002003#32, 0x0000707F#32, 0x00002003#32, 0x0000707F#32⟩
  | .ld _ _ _ => ⟨0x00003003#32, 0x0000707F#32, 0x00003003#32, 0x0000707F#32⟩
  | .lbu _ _ _ => ⟨0x00004003#32, 0x0000707F#32, 0x00004003#32, 0x0000707F#32⟩
  | .lhu _ _ _ => ⟨0x00005003#32, 0x0000707F#32, 0x00005003#32, 0x0000707F#32⟩
  | .lwu _ _ _ => ⟨0x00006003#32, 0x0000707F#32, 0x00006003#32, 0x0000707F#32⟩
  | .sb _ _ _ => ⟨0x00000023#32, 0x0000707F#32, 0x00000023#32, 0x0000707F#32⟩
  | .sh _ _ _ => ⟨0x00001023#32, 0x0000707F#32, 0x00001023#32, 0x0000707F#32⟩
  | .sw _ _ _ => ⟨0x00002023#32, 0x0000707F#32, 0x00002023#32, 0x0000707F#32⟩
  | .sd _ _ _ => ⟨0x00003023#32, 0x0000707F#32, 0x00003023#32, 0x0000707F#32⟩
  | .addi _ _ _ => ⟨0x00000013#32, 0x0000707F#32, 0x00000013#32, 0x0000707F#32⟩
  | .slli _ _ _ => ⟨0x00001013#32, 0x0000707F#32, 0x00001013#32, 0xFC00707F#32⟩
  | .slti _ _ _ => ⟨0x00002013#32, 0x0000707F#32, 0x00002013#32, 0x0000707F#32⟩
  | .sltiu _ _ _ => ⟨0x00003013#32, 0x0000707F#32, 0x00003013#32, 0x0000707F#32⟩
  | .xori _ _ _ => ⟨0x00004013#32, 0x0000707F#32, 0x00004013#32, 0x0000707F#32⟩
  | .srli _ _ _ => ⟨0x00005013#32, 0xFC00707F#32, 0x00005013#32, 0xFC00707F#32⟩
  | .srai _ _ _ => ⟨0x40005013#32, 0xFC00707F#32, 0x40005013#32, 0xFC00707F#32⟩
  | .ori _ _ _ => ⟨0x00006013#32, 0x0000707F#32, 0x00006013#32, 0x0000707F#32⟩
  | .andi _ _ _ => ⟨0x00007013#32, 0x0000707F#32, 0x00007013#32, 0x0000707F#32⟩
  | .addiw _ _ _ => ⟨0x0000001B#32, 0x0000707F#32, 0x0000001B#32, 0x0000707F#32⟩
  | .slliw _ _ _ => ⟨0x0000101B#32, 0xFE00707F#32, 0x0000101B#32, 0xFE00707F#32⟩
  | .srliw _ _ _ => ⟨0x0000501B#32, 0xFE00707F#32, 0x0000501B#32, 0xFE00707F#32⟩
  | .sraiw _ _ _ => ⟨0x4000501B#32, 0xFE00707F#32, 0x4000501B#32, 0xFE00707F#32⟩
  | .add _ _ _ => ⟨0x00000033#32, 0xFE00707F#32, 0x00000033#32, 0xFE00707F#32⟩
  | .sub _ _ _ => ⟨0x40000033#32, 0xFE00707F#32, 0x40000033#32, 0xFE00707F#32⟩
  | .sll _ _ _ => ⟨0x00001033#32, 0xFE00707F#32, 0x00001033#32, 0xFE00707F#32⟩
  | .slt _ _ _ => ⟨0x00002033#32, 0xFE00707F#32, 0x00002033#32, 0xFE00707F#32⟩
  | .sltu _ _ _ => ⟨0x00003033#32, 0xFE00707F#32, 0x00003033#32, 0xFE00707F#32⟩
  | .xor _ _ _ => ⟨0x00004033#32, 0xFE00707F#32, 0x00004033#32, 0xFE00707F#32⟩
  | .srl _ _ _ => ⟨0x00005033#32, 0xFE00707F#32, 0x00005033#32, 0xFE00707F#32⟩
  | .sra _ _ _ => ⟨0x40005033#32, 0xFE00707F#32, 0x40005033#32, 0xFE00707F#32⟩
  | .or _ _ _ => ⟨0x00006033#32, 0xFE00707F#32, 0x00006033#32, 0xFE00707F#32⟩
  | .and _ _ _ => ⟨0x00007033#32, 0xFE00707F#32, 0x00007033#32, 0xFE00707F#32⟩
  | .mul _ _ _ => ⟨0x02000033#32, 0xFE00707F#32, 0x02000033#32, 0xFE00707F#32⟩
  | .mulh _ _ _ => ⟨0x02001033#32, 0xFE00707F#32, 0x02001033#32, 0xFE00707F#32⟩
  | .mulhsu _ _ _ => ⟨0x02002033#32, 0xFE00707F#32, 0x02002033#32, 0xFE00707F#32⟩
  | .mulhu _ _ _ => ⟨0x02003033#32, 0xFE00707F#32, 0x02003033#32, 0xFE00707F#32⟩
  | .div _ _ _ => ⟨0x02004033#32, 0xFE00707F#32, 0x02004033#32, 0xFE00707F#32⟩
  | .divu _ _ _ => ⟨0x02005033#32, 0xFE00707F#32, 0x02005033#32, 0xFE00707F#32⟩
  | .rem _ _ _ => ⟨0x02006033#32, 0xFE00707F#32, 0x02006033#32, 0xFE00707F#32⟩
  | .remu _ _ _ => ⟨0x02007033#32, 0xFE00707F#32, 0x02007033#32, 0xFE00707F#32⟩
  | .addw _ _ _ => ⟨0x0000003B#32, 0xFE00707F#32, 0x0000003B#32, 0xFE00707F#32⟩
  | .subw _ _ _ => ⟨0x4000003B#32, 0xFE00707F#32, 0x4000003B#32, 0xFE00707F#32⟩
  | .sllw _ _ _ => ⟨0x0000103B#32, 0xFE00707F#32, 0x0000103B#32, 0xFE00707F#32⟩
  | .srlw _ _ _ => ⟨0x0000503B#32, 0xFE00707F#32, 0x0000503B#32, 0xFE00707F#32⟩
  | .sraw _ _ _ => ⟨0x4000503B#32, 0xFE00707F#32, 0x4000503B#32, 0xFE00707F#32⟩
  | .mulw _ _ _ => ⟨0x0200003B#32, 0xFE00707F#32, 0x0200003B#32, 0xFE00707F#32⟩
  | .divw _ _ _ => ⟨0x0200403B#32, 0xFE00707F#32, 0x0200403B#32, 0xFE00707F#32⟩
  | .divuw _ _ _ => ⟨0x0200503B#32, 0xFE00707F#32, 0x0200503B#32, 0xFE00707F#32⟩
  | .remw _ _ _ => ⟨0x0200603B#32, 0xFE00707F#32, 0x0200603B#32, 0xFE00707F#32⟩
  | .remuw _ _ _ => ⟨0x0200703B#32, 0xFE00707F#32, 0x0200703B#32, 0xFE00707F#32⟩
  | .lui _ _ => ⟨0x00000037#32, 0x0000007F#32, 0x00000037#32, 0x0000007F#32⟩
  | .auipc _ _ => ⟨0x00000017#32, 0x0000007F#32, 0x00000017#32, 0x0000007F#32⟩
  | .jal _ _ => ⟨0x0000006F#32, 0x0000007F#32, 0x0000006F#32, 0x0000007F#32⟩
  | .jalr _ _ _ => ⟨0x00000067#32, 0x0000007F#32, 0x00000067#32, 0x0000707F#32⟩
  | .beq _ _ _ => ⟨0x00000063#32, 0x0000707F#32, 0x00000063#32, 0x0000707F#32⟩
  | .bne _ _ _ => ⟨0x00001063#32, 0x0000707F#32, 0x00001063#32, 0x0000707F#32⟩
  | .blt _ _ _ => ⟨0x00004063#32, 0x0000707F#32, 0x00004063#32, 0x0000707F#32⟩
  | .bge _ _ _ => ⟨0x00005063#32, 0x0000707F#32, 0x00005063#32, 0x0000707F#32⟩
  | .bltu _ _ _ => ⟨0x00006063#32, 0x0000707F#32, 0x00006063#32, 0x0000707F#32⟩
  | .bgeu _ _ _ => ⟨0x00007063#32, 0x0000707F#32, 0x00007063#32, 0x0000707F#32⟩
  | .fence => ⟨0x0000000F#32, 0x0000007F#32, 0x0000000F#32, 0x000FFFFF#32⟩
  | .ecall => ⟨0x00000073#32, 0xFFF0007F#32, 0x00000073#32, 0xFFFFFFFF#32⟩
  | .ebreak => ⟨0x00100073#32, 0xFFF0007F#32, 0x00100073#32, 0xFFFFFFFF#32⟩

end Sys2Proof
end

