-- ==== Sys2Proof/Machine/HostApi.lean ====
section
/-! DEFINITION. The host interface (`44_system.md` R237 to R245, `70_reset_and_hazards.md` R290 to R292): the moves the
host makes outside a run. -/

namespace Sys2Proof.Machine

/-- `initialize(exit_cb?, panic_cb?)` (`70_reset_and_hazards.md` R291): pc, exit code, running, table and callbacks; the
registers and the arena keep their values (D1, log entry 24). The outcome of an earlier run is dropped. -/
def hostInit (exitCb panicCb : Option CallbackId) (s : State) : State :=
  { s with
    pc := BitVec.ofNat 64 Config.loadBase
    exitCode := 0
    running := false
    syscalls := []
    exitCb := exitCb
    panicCb := panicCb
    outcome := none }

/-- `load_from_bytes(data)` (`70_reset_and_hazards.md` R292): false with no change if the image is empty or larger than
61 440 bytes; else the image at 0x1000 and up, x2 ← 0x10000, and true. -/
def loadFromBytes (data : List Byte) (s : State) : Bool × State :=
  if data.length = 0 ∨ Config.maxImage < data.length then (false, s)
  else (true, State.setReg { s with mem := Memory.copy s.mem Config.loadBase data } regSp (BitVec.ofNat 64 Config.memSize))

/-- `set_system_call(code, fn)` (`44_system.md` R237). -/
def setSystemCall (code : Word) (h : HandlerId) (s : State) : State :=
  { s with syscalls := SyscallTable.install s.syscalls code.toNat h }

/-- `get_system_call(code)` (`44_system.md` R237). -/
def getSystemCall (code : Word) (s : State) : Option HandlerId := SyscallTable.find s.syscalls code.toNat

/-- `stop()` outside a run (`44_system.md` R240): it only clears the flag. -/
def hostStop (s : State) : State := { s with running := false }

/-- `get_pointer_param(i)` (`44_system.md` R241): x[10 + i] for i up to 21; refused above (D12, log entry 22). -/
def getPointerParam (i : Nat) (s : State) : Except Refusal Word :=
  if i < 22 then .ok (s.reg (BitVec.ofNat 5 (10 + i))) else .error (.pointerParamOutOfRange i)

/-- The bytes `get_string_pointer(ptr)` reads (`44_system.md` R243): from ptr, before the first zero byte or the end of
the arena; none for ptr outside the arena (D13, log entry 23). -/
def stringBytesAt (ptr : Word) (s : State) : List Byte :=
  s.mem.stringBytes ptr.toNat (Config.memSize - ptr.toNat)

/-- `get_string_pointer(ptr)` (`44_system.md` R243). -/
def getStringPointer (ptr : Word) (s : State) : String :=
  if ptr = 0#64 then "(null)" else Config.decodeString (stringBytesAt ptr s)

/-- A call of the host's API (`44_system.md` R245). `run` only starts a run; the steps of the run follow. -/
inductive HostCall where
  | init (exitCb panicCb : Option CallbackId)
  | load (data : List Byte)
  | setSystemCall (code : Word) (h : HandlerId)
  | getSystemCall (code : Word)
  | getPointerParam (i : Nat)
  | getStringPointer (ptr : Word)
  | run
  | stop
  | isRunning
  | getExitCode
  deriving DecidableEq, Repr

/-- What a host call returns. -/
inductive HostReply where
  | unit
  | flag (b : Bool)
  | handler (h : Option HandlerId)
  | word (v : Word)
  | string (t : String)
  | int (i : Int)
  deriving DecidableEq, Repr

/-- A host call outside a run (`44_system.md` R245). During a run the host makes none (R238, D11, D20): refused. -/
def hostCall (c : HostCall) (s : State) : Host.Outcome (State × HostReply) Fault Refusal :=
  if s.running then .refused .hostCallDuringRun
  else
    match c with
    | .init exitCb panicCb => .next (hostInit exitCb panicCb s, .unit)
    | .load data => .next ((loadFromBytes data s).2, .flag (loadFromBytes data s).1)
    | .setSystemCall code h => .next (setSystemCall code h s, .unit)
    | .getSystemCall code => .next (s, .handler (getSystemCall code s))
    | .getPointerParam i =>
      match getPointerParam i s with
      | .ok v => .next (s, .word v)
      | .error r => .refused r
    | .getStringPointer ptr => .next (s, .string (getStringPointer ptr s))
    | .run => .next (startRun s, .unit)
    | .stop => .next (hostStop s, .unit)
    | .isRunning => .next (s, .flag s.running)
    | .getExitCode => .next (s, .int s.exitCode)

end Sys2Proof.Machine
end

