-- ==== Sys2Proof/Machine/Run.lean ====
section
/-! DEFINITION. A run (`70_reset_and_hazards.md` R300, R301): the loop of steps of one `run()` call, under a fuel bound
(D27, log entry 31). -/

namespace Sys2Proof.Machine

/-- What came of a run: R300's pair (outcome, final state); or the fuel ran out first; or a step had no next state. -/
inductive RunResult where
  | ended (outcome : Option RunOutcome) (s : State)
  | outOfFuel (s : State)
  | stuck (r : Fault)
  | refused (r : Refusal)
  deriving DecidableEq, Repr

/-- Steps until `running` is false (R121), at most `fuel` of them. -/
def runLoop : Nat → State → RunResult
  | 0, s => if s.running then .outOfFuel s else .ended s.outcome s
  | n + 1, s =>
    if s.running then
      match step s with
      | .next t => runLoop n t
      | .fault r => .stuck r
      | .refused r => .refused r
    else .ended s.outcome s

/-- `run()` (`44_system.md` R244). -/
def runFor (fuel : Nat) (s : State) : RunResult := runLoop fuel (startRun s)

end Sys2Proof.Machine
end

