-- ==== Sys2Proof/Safety.lean ====
section
/-! DEFINITION. The terms claims use: the invariant of every state the block and its host reach, and what a safe run
is. -/

namespace Sys2Proof.Machine

/-- The pc is even (`10_state.md` R39: "An odd PC is not reachable"). It need not be a multiple of 4 (C3). -/
def State.pcEven (s : State) : Bool := !s.pc.getLsbD 0

/-- `exit_code` is a signed 64-bit integer (`10_state.md` R43). -/
def State.exitCodeFits (s : State) : Bool := decide (-(2 ^ 63) ≤ s.exitCode) && decide (s.exitCode < 2 ^ 63)

/-- The invariant: the arena and the syscall table are in canonical form, the pc is even, the exit code fits 64 bits,
and a block that is running has no outcome yet. -/
def State.inv (s : State) : Bool :=
  s.mem.wf && SyscallTable.wf s.syscalls && s.pcEven && s.exitCodeFits && (!s.running || s.outcome.isNone)

/-- The latest run, if it has ended, did not end in a panic. -/
def State.notPanicked (s : State) : Bool :=
  match s.outcome with
  | some (.panicked _) => false
  | _ => true

/-- A safe run of `n` steps from `s`: none of them panics or stops the machine (`60_exceptions.md` R261). -/
def safeFor : Nat → State → Bool
  | 0, s => s.notPanicked
  | n + 1, s =>
    match step s with
    | .next t => t.notPanicked && safeFor n t
    | .fault _ => false
    | .refused _ => false

end Sys2Proof.Machine
end

