-- ==== Sys2Proof/Certificates/Slice0/Obligations.lean ====
section
/-! DEFINITION. The statements about the block, each a proposition for a prover, and the terms they are written in. Results
are written as exact integers narrowed at the end, apart from the model's own operators; "as before" always compares reads
(`State.reg`, `State.byte`). -/

namespace Sys2Proof.Claims

open Sys2Proof.Machine

/-! ## What changes and what does not -/

/-- Every general register reads as before. -/
def RegsKept (s t : State) : Prop := ∀ j, t.reg j = s.reg j

/-- `x[rd] <- v`, dropped when rd is x0 (`10_state.md` R31, R32), and every other register reads as before. -/
def RegsSet (s t : State) (rd : RegIdx) (v : Word) : Prop :=
  ∀ j, t.reg j = if j = rd ∧ j ≠ 0#5 then v else s.reg j

/-- Every byte reads as before. -/
def MemKept (s t : State) : Prop := ∀ a, t.byte a = s.byte a

/-- The table and the callbacks are as before. -/
def HostSideKept (s t : State) : Prop :=
  t.syscalls = s.syscalls ∧ t.exitCb = s.exitCb ∧ t.panicCb = s.panicCb

/-- Every field but the registers, the pc and the arena is as before. The block has no flags (`10_state.md` R40). -/
def StatusKept (s t : State) : Prop :=
  t.running = s.running ∧ t.exitCode = s.exitCode ∧ HostSideKept s t ∧ t.draws = s.draws ∧
    t.handlerMoves = s.handlerMoves ∧ t.callbackCalls = s.callbackCalls ∧ t.outcome = s.outcome

/-- Byte `i` of a value, byte 0 the least significant. -/
def byteOf (v : Word) (i : Nat) : Byte := BitVec.ofNat 8 (v.toNat / 2 ^ (8 * i))

/-- The `n` bytes of `v` stand at `a` and up, lowest first, and every other byte reads as before. -/
def BytesStored (s t : State) (a n : Nat) (v : Word) : Prop :=
  ∀ b, t.byte b = if a ≤ b ∧ b < a + n then byteOf v (b - a) else s.byte b

/-- The little-endian value of the `n` bytes at `a` (`20_memory.md` R62). -/
def littleEndian (s : State) (a n : Nat) : Nat := ∑ i ∈ Finset.range n, (s.byte (a + i)).toNat * 2 ^ (8 * i)

/-! ## How an instruction ends -/

/-- The instruction completes: `x[rd] <- v`, `pc <- target`, and nothing else. -/
def Completes (i : Instr) (s : State) (rd : RegIdx) (v target : Word) : Prop :=
  ∃ t, exec i s = .next t ∧ RegsSet s t rd v ∧ t.pc = target ∧ MemKept s t ∧ StatusKept s t

/-- The instruction completes: `pc <- target` and nothing else. -/
def CompletesPcOnly (i : Instr) (s : State) (target : Word) : Prop :=
  ∃ t, exec i s = .next t ∧ RegsKept s t ∧ t.pc = target ∧ MemKept s t ∧ StatusKept s t

/-- The instruction completes: the `n` low bytes of `v` are stored at `a`, `pc <- pc + 4`, and nothing else. -/
def CompletesStoring (i : Instr) (s : State) (a n : Nat) (v : Word) : Prop :=
  ∃ t, exec i s = .next t ∧ RegsKept s t ∧ t.pc = s.pc + 4#64 ∧ BytesStored s t a n v ∧ StatusKept s t

/-- What the panic callback receives: one call if it is recorded, none if not (`60_exceptions.md` R261, R262). -/
def PanicReported (s t : State) (r : PanicReason) : Prop :=
  (s.panicCb = none → t.callbackCalls = s.callbackCalls) ∧
  ∀ cb, s.panicCb = some cb → ∃ message, t.callbackCalls = s.callbackCalls ++ [.panic cb message] ∧
    (r = .outOfRange → message = "out of range") ∧ (r = .invalidSyscall → message = "invalid system call")

/-- A panic with reason `r` ends the run: the callback, exit_code −1, running false, and no other effect on what the spec
gives the machine, but for the pc (`60_exceptions.md` R262). -/
def Raises (o : Host.Outcome State Fault Refusal) (s : State) (r : PanicReason) : Prop :=
  ∃ t, o = .next t ∧ t.outcome = some (.panicked r) ∧ t.exitCode = -1 ∧ t.running = false ∧ PanicReported s t r ∧
    RegsKept s t ∧ MemKept s t ∧ HostSideKept s t

/-- The pc after a panic is one of the two the document allows; nothing says which (`60_exceptions.md` R263). -/
def PcAfterPanic (s t : State) : Prop := t.pc = s.pc ∨ t.pc = s.pc + 4#64

/-! ## The instruction at the pc -/

/-- The block is running and the word at its pc, in range, is `w`. -/
def Fetches (s : State) (w : InstWord) : Prop :=
  s.running = true ∧ s.pc.toNat + 4 ≤ 65536 ∧ w.toNat = littleEndian s s.pc.toNat 4

/-- The instruction at the pc is `i`. -/
def Executes (s : State) (i : Instr) : Prop := ∃ w, Fetches s w ∧ decode w = .ok i

/-! ## What an instruction of a format means: its encoding, and its effect on every operand -/

/-- OP and OP-32, `key` as in `30_encoding.md` R105. -/
def MeansOp (opc : BitVec 7) (key : BitVec 10) (mk : RegIdx → RegIdx → RegIdx → Instr) (f : Word → Word → Word) : Prop :=
  (∀ w, opcodeOf w = opc → keyOf w = key → decode w = .ok (mk (rdOf w) (rs1Of w) (rs2Of w))) ∧
  ∀ rd rs1 rs2 s, Completes (mk rd rs1 rs2) s rd (f (s.reg rs1) (s.reg rs2)) (s.pc + 4#64)

/-- OP-IMM and OP-IMM-32 with immI; `f` gets the sign-extended immediate. -/
def MeansImm (opc : BitVec 7) (f3 : BitVec 3) (mk : RegIdx → RegIdx → BitVec 12 → Instr) (f : Word → Word → Word) : Prop :=
  (∀ w, opcodeOf w = opc → funct3Of w = f3 → decode w = .ok (mk (rdOf w) (rs1Of w) (immIOf w))) ∧
  ∀ rd rs1 imm s, Completes (mk rd rs1 imm) s rd (f (s.reg rs1) (imm.signExtend 64)) (s.pc + 4#64)

/-- SRLI and SRAI: funct6 selects, shamt6 is the amount. -/
def MeansShift64 (f6 : BitVec 6) (mk : RegIdx → RegIdx → BitVec 6 → Instr) (f : Word → Nat → Word) : Prop :=
  (∀ w, opcodeOf w = 0x13#7 → funct3Of w = 5#3 → funct6Of w = f6 →
    decode w = .ok (mk (rdOf w) (rs1Of w) (shamt6Of w))) ∧
  ∀ rd rs1 sh s, Completes (mk rd rs1 sh) s rd (f (s.reg rs1) sh.toNat) (s.pc + 4#64)

/-- SLLIW, SRLIW and SRAIW: funct7 selects, shamt5 is the amount. -/
def MeansShift32 (f3 : BitVec 3) (f7 : BitVec 7) (mk : RegIdx → RegIdx → BitVec 5 → Instr) (f : Word → Nat → Word) : Prop :=
  (∀ w, opcodeOf w = 0x1B#7 → funct3Of w = f3 → funct7Of w = f7 →
    decode w = .ok (mk (rdOf w) (rs1Of w) (shamt5Of w))) ∧
  ∀ rd rs1 sh s, Completes (mk rd rs1 sh) s rd (f (s.reg rs1) sh.toNat) (s.pc + 4#64)

/-- LOAD: `f` gets the little-endian value of the `n` bytes at x[rs1] + immI. -/
def MeansLoad (f3 : BitVec 3) (mk : RegIdx → RegIdx → BitVec 12 → Instr) (n : Nat) (f : Nat → Word) : Prop :=
  (∀ w, opcodeOf w = 0x03#7 → funct3Of w = f3 → decode w = .ok (mk (rdOf w) (rs1Of w) (immIOf w))) ∧
  ∀ rd rs1 imm s,
    ((effAddr s rs1 imm).toNat + n ≤ 65536 →
      Completes (mk rd rs1 imm) s rd (f (littleEndian s (effAddr s rs1 imm).toNat n)) (s.pc + 4#64)) ∧
    (65536 < (effAddr s rs1 imm).toNat + n → Raises (exec (mk rd rs1 imm) s) s .outOfRange)

/-- STORE: the `n` low bytes of x[rs2] at x[rs1] + immS. -/
def MeansStore (f3 : BitVec 3) (mk : RegIdx → RegIdx → BitVec 12 → Instr) (n : Nat) : Prop :=
  (∀ w, opcodeOf w = 0x23#7 → funct3Of w = f3 → decode w = .ok (mk (rs1Of w) (rs2Of w) (immSOf w))) ∧
  ∀ rs1 rs2 imm s,
    ((effAddr s rs1 imm).toNat + n ≤ 65536 →
      CompletesStoring (mk rs1 rs2 imm) s (effAddr s rs1 imm).toNat n (s.reg rs2)) ∧
    (65536 < (effAddr s rs1 imm).toNat + n → Raises (exec (mk rs1 rs2 imm) s) s .outOfRange)

/-- BRANCH: to pc + immB when the comparison of x[rs1] and x[rs2] holds, else on to pc + 4. -/
def MeansBranch (f3 : BitVec 3) (mk : RegIdx → RegIdx → BitVec 13 → Instr) (c : Word → Word → Prop) : Prop :=
  (∀ w, opcodeOf w = 0x63#7 → funct3Of w = f3 → decode w = .ok (mk (rs1Of w) (rs2Of w) (immBOf w))) ∧
  ∀ rs1 rs2 imm s,
    (c (s.reg rs1) (s.reg rs2) → CompletesPcOnly (mk rs1 rs2 imm) s (s.pc + imm.signExtend 64)) ∧
    (¬ c (s.reg rs1) (s.reg rs2) → CompletesPcOnly (mk rs1 rs2 imm) s (s.pc + 4#64))

/-! ## Words as integers -/

/-- The low 64 bits of an exact integer. -/
def word (x : Int) : Word := BitVec.ofInt 64 x

/-- The low 32 bits of an exact integer, sign-extended: the result of a word instruction. -/
def word32 (x : Int) : Word := BitVec.ofInt 64 (x.bmod (2 ^ 32))

/-- The low 32 bits of a value, read as unsigned. -/
def lowU (v : Word) : Nat := v.toNat % 2 ^ 32

/-- The low 32 bits of a value, read as signed. -/
def lowS (v : Word) : Int := (v.toNat : Int).bmod (2 ^ 32)

/-- Bits `hi..lo` of a word. -/
def bits (w : InstWord) (hi lo : Nat) : Nat := w.toNat / 2 ^ lo % 2 ^ (hi + 1 - lo)

/-! ## Facts about an instruction as syntax -/

/-- The register an instruction's rd field names (`10_state.md` R35). ECALL is not here: it writes x10. -/
def destination : Instr → Option RegIdx
  | .lb rd _ _ | .lh rd _ _ | .lw rd _ _ | .ld rd _ _ | .lbu rd _ _ | .lhu rd _ _ | .lwu rd _ _ => some rd
  | .sb _ _ _ | .sh _ _ _ | .sw _ _ _ | .sd _ _ _ => none
  | .addi rd _ _ | .slti rd _ _ | .sltiu rd _ _ | .xori rd _ _ | .ori rd _ _ | .andi rd _ _ => some rd
  | .slli rd _ _ | .srli rd _ _ | .srai rd _ _ => some rd
  | .addiw rd _ _ | .slliw rd _ _ | .srliw rd _ _ | .sraiw rd _ _ => some rd
  | .add rd _ _ | .sub rd _ _ | .sll rd _ _ | .slt rd _ _ | .sltu rd _ _ | .xor rd _ _ | .srl rd _ _ => some rd
  | .sra rd _ _ | .or rd _ _ | .and rd _ _ | .mul rd _ _ | .mulh rd _ _ | .mulhsu rd _ _ | .mulhu rd _ _ => some rd
  | .div rd _ _ | .divu rd _ _ | .rem rd _ _ | .remu rd _ _ => some rd
  | .addw rd _ _ | .subw rd _ _ | .sllw rd _ _ | .srlw rd _ _ | .sraw rd _ _ | .mulw rd _ _ => some rd
  | .divw rd _ _ | .divuw rd _ _ | .remw rd _ _ | .remuw rd _ _ => some rd
  | .lui rd _ | .auipc rd _ | .jal rd _ | .jalr rd _ _ => some rd
  | .beq _ _ _ | .bne _ _ _ | .blt _ _ _ | .bge _ _ _ | .bltu _ _ _ | .bgeu _ _ _ => none
  | .fence | .ecall | .ebreak => none

/-- The address and the number of bytes a store stores to, none for every other instruction. -/
def storedAt (s : State) : Instr → Option (Nat × Nat)
  | .sb rs1 _ imm => some ((effAddr s rs1 imm).toNat, 1)
  | .sh rs1 _ imm => some ((effAddr s rs1 imm).toNat, 2)
  | .sw rs1 _ imm => some ((effAddr s rs1 imm).toNat, 4)
  | .sd rs1 _ imm => some ((effAddr s rs1 imm).toNat, 8)
  | _ => none

/-- The fetch of the next step reads a word that has, at each address, the byte given for it, and the step is what that word
decodes to (`30_encoding.md` R120). -/
def FetchesBytes (s : State) (byteAt : Nat → Byte) : Prop :=
  ∃ w, fetch s = .ok w ∧ (∀ k < 4, BitVec.ofNat 8 (w.toNat / 2 ^ (8 * k)) = byteAt (s.pc.toNat + k)) ∧
    (∀ i, decode w = .ok i → step s = exec i s) ∧ ∀ r, decode w = .error r → Raises (step s) s r

/-- Where a jump, or a branch that is taken, goes; none when the instruction goes on to pc + 4. -/
def jumpsTo (s : State) : Instr → Option Word
  | .jal _ imm => some (s.pc + imm.signExtend 64)
  | .jalr _ rs1 imm => some (BitVec.ofNat 64 ((s.reg rs1 + imm.signExtend 64).toNat / 2 * 2))
  | .beq rs1 rs2 imm => if s.reg rs1 = s.reg rs2 then some (s.pc + imm.signExtend 64) else none
  | .bne rs1 rs2 imm => if s.reg rs1 ≠ s.reg rs2 then some (s.pc + imm.signExtend 64) else none
  | .blt rs1 rs2 imm => if (s.reg rs1).toInt < (s.reg rs2).toInt then some (s.pc + imm.signExtend 64) else none
  | .bge rs1 rs2 imm => if (s.reg rs1).toInt ≥ (s.reg rs2).toInt then some (s.pc + imm.signExtend 64) else none
  | .bltu rs1 rs2 imm => if (s.reg rs1).toNat < (s.reg rs2).toNat then some (s.pc + imm.signExtend 64) else none
  | .bgeu rs1 rs2 imm => if (s.reg rs1).toNat ≥ (s.reg rs2).toNat then some (s.pc + imm.signExtend 64) else none
  | _ => none

/-- The instruction with every register operand renamed. -/
def renamed (σ : RegIdx → RegIdx) : Instr → Instr
  | .lb d a x => .lb (σ d) (σ a) x | .lh d a x => .lh (σ d) (σ a) x | .lw d a x => .lw (σ d) (σ a) x
  | .ld d a x => .ld (σ d) (σ a) x | .lbu d a x => .lbu (σ d) (σ a) x | .lhu d a x => .lhu (σ d) (σ a) x
  | .lwu d a x => .lwu (σ d) (σ a) x | .addi d a x => .addi (σ d) (σ a) x | .slli d a x => .slli (σ d) (σ a) x
  | .slti d a x => .slti (σ d) (σ a) x | .sltiu d a x => .sltiu (σ d) (σ a) x | .xori d a x => .xori (σ d) (σ a) x
  | .srli d a x => .srli (σ d) (σ a) x | .srai d a x => .srai (σ d) (σ a) x | .ori d a x => .ori (σ d) (σ a) x
  | .andi d a x => .andi (σ d) (σ a) x | .addiw d a x => .addiw (σ d) (σ a) x | .slliw d a x => .slliw (σ d) (σ a) x
  | .srliw d a x => .srliw (σ d) (σ a) x | .sraiw d a x => .sraiw (σ d) (σ a) x
  | .sb a b x => .sb (σ a) (σ b) x | .sh a b x => .sh (σ a) (σ b) x | .sw a b x => .sw (σ a) (σ b) x
  | .sd a b x => .sd (σ a) (σ b) x | .beq a b x => .beq (σ a) (σ b) x | .bne a b x => .bne (σ a) (σ b) x
  | .blt a b x => .blt (σ a) (σ b) x | .bge a b x => .bge (σ a) (σ b) x | .bltu a b x => .bltu (σ a) (σ b) x
  | .bgeu a b x => .bgeu (σ a) (σ b) x
  | .add d a b => .add (σ d) (σ a) (σ b) | .sub d a b => .sub (σ d) (σ a) (σ b) | .sll d a b => .sll (σ d) (σ a) (σ b)
  | .slt d a b => .slt (σ d) (σ a) (σ b) | .sltu d a b => .sltu (σ d) (σ a) (σ b) | .xor d a b => .xor (σ d) (σ a) (σ b)
  | .srl d a b => .srl (σ d) (σ a) (σ b) | .sra d a b => .sra (σ d) (σ a) (σ b) | .or d a b => .or (σ d) (σ a) (σ b)
  | .and d a b => .and (σ d) (σ a) (σ b) | .mul d a b => .mul (σ d) (σ a) (σ b) | .mulh d a b => .mulh (σ d) (σ a) (σ b)
  | .mulhsu d a b => .mulhsu (σ d) (σ a) (σ b) | .mulhu d a b => .mulhu (σ d) (σ a) (σ b) | .div d a b => .div (σ d) (σ a) (σ b)
  | .divu d a b => .divu (σ d) (σ a) (σ b) | .rem d a b => .rem (σ d) (σ a) (σ b) | .remu d a b => .remu (σ d) (σ a) (σ b)
  | .addw d a b => .addw (σ d) (σ a) (σ b) | .subw d a b => .subw (σ d) (σ a) (σ b) | .sllw d a b => .sllw (σ d) (σ a) (σ b)
  | .srlw d a b => .srlw (σ d) (σ a) (σ b) | .sraw d a b => .sraw (σ d) (σ a) (σ b) | .mulw d a b => .mulw (σ d) (σ a) (σ b)
  | .divw d a b => .divw (σ d) (σ a) (σ b) | .divuw d a b => .divuw (σ d) (σ a) (σ b) | .remw d a b => .remw (σ d) (σ a) (σ b)
  | .remuw d a b => .remuw (σ d) (σ a) (σ b)
  | .lui d x => .lui (σ d) x | .auipc d x => .auipc (σ d) x | .jal d x => .jal (σ d) x
  | .jalr d a x => .jalr (σ d) (σ a) x
  | .fence => .fence | .ecall => .ecall | .ebreak => .ebreak

/-- The two states are one but for the names of the registers. -/
def AlikeUnder (σ : RegIdx → RegIdx) (s t : State) : Prop :=
  (∀ j, t.reg (σ j) = s.reg j) ∧ t.pc = s.pc ∧ MemKept s t ∧ StatusKept s t

/-! ## What a handler does, and what its actions leave, read off the list (`44_system.md` R238) -/

/-- An ECALL now calls a registered handler, which does `r` and returns. What it does is the host's: its next listed move,
or, where it lists none, the free value (log entry 7). -/
def Invokes (s : State) (r : HandlerReturn) : Prop :=
  s.reg 17#5 ≠ 0#64 ∧ ∃ h, getSystemCall (s.reg 17#5) s = some h ∧
    ((∃ rest, s.handlerMoves = .returns r :: rest) ∨
      (s.handlerMoves = [] ∧ r = Config.handlerReturn s.draws h (handlerView s)))

/-- An action that makes no arena access, or one in range. -/
def actionInRange : HandlerAction → Prop
  | .readMem a w => a.toNat + w.bytes ≤ 65536
  | .writeMem a w _ => a.toNat + w.bytes ≤ 65536
  | _ => True

/-- The first arena access out of range comes right after the actions `before`. -/
def FailsAfter (r : HandlerReturn) (before : List HandlerAction) : Prop :=
  (∀ a ∈ before, actionInRange a) ∧ ∃ bad after, r.actions = before ++ bad :: after ∧ ¬ actionInRange bad

/-- Register `j` after the actions, `x` before them. -/
def regAfter (j : RegIdx) : List HandlerAction → Word → Word
  | [], x => x
  | .setReg r v :: as, x => regAfter j as (if r = j ∧ j ≠ 0#5 then v else x)
  | _ :: as, x => regAfter j as x

/-- The byte at `b` after the actions, `x` before them. -/
def byteAfter (b : Nat) : List HandlerAction → Byte → Byte
  | [], x => x
  | .writeMem a w v :: as, x =>
    byteAfter b as (if a.toNat ≤ b ∧ b < a.toNat + w.bytes then byteOf v (b - a.toNat) else x)
  | _ :: as, x => byteAfter b as x

end Sys2Proof.Claims

open Sys2Proof Sys2Proof.Machine Sys2Proof.Claims

/-! ## Encoding -/

/-- Fifteen words that the spec writes out decode to the instructions they stand for: the SRAI word stands in
`95_test_vectors.md` 2.3, every other in the example of its rule (R131, R144, R151, R164, R172, R197, R210 to R213, R217,
R230, R231, R235). Assembler syntax and branch numbers are the spec's general knowledge (G5; G2, log entry 15). -/
def Obligations.SampleWordsDecode : Prop :=
  decode 0x00008283#32 = .ok (.lb 5#5 1#5 0#12) ∧
  decode 0xFE60BC23#32 = .ok (.sd 1#5 6#5 0xFF8#12) ∧
  decode 0xFFF30293#32 = .ok (.addi 5#5 6#5 0xFFF#12) ∧
  decode 0x43F35293#32 = .ok (.srai 5#5 6#5 63#6) ∧
  decode 0x0043529B#32 = .ok (.srliw 5#5 6#5 4#5) ∧
  decode 0x407302B3#32 = .ok (.sub 5#5 6#5 7#5) ∧
  decode 0x027342BB#32 = .ok (.divw 5#5 6#5 7#5) ∧
  decode 0x800002B7#32 = .ok (.lui 5#5 0x80000000#32) ∧
  decode 0x00001297#32 = .ok (.auipc 5#5 0x1000#32) ∧
  decode 0x010000EF#32 = .ok (.jal 1#5 16#21) ∧
  decode 0x003300E7#32 = .ok (.jalr 1#5 6#5 3#12) ∧
  decode 0xFE62C8E3#32 = .ok (.blt 5#5 6#5 0x1FF0#13) ∧
  decode 0x0FF0000F#32 = .ok .fence ∧
  decode 0x00000073#32 = .ok .ecall ∧
  decode 0x00100073#32 = .ok .ebreak

/-- R91: every field is the shift and mask the document writes. -/
def Obligations.FieldsAreShiftAndMask : Prop :=
  ∀ w : InstWord,
    (opcodeOf w).toNat = w.toNat &&& 0x7F ∧
    (rdOf w).toNat = (w.toNat >>> 7) &&& 0x1F ∧
    (rs1Of w).toNat = (w.toNat >>> 15) &&& 0x1F ∧
    (rs2Of w).toNat = (w.toNat >>> 20) &&& 0x1F ∧
    (funct3Of w).toNat = (w.toNat >>> 12) &&& 0x7 ∧
    (funct7Of w).toNat = (w.toNat >>> 25) &&& 0x7F ∧
    (funct12Of w).toNat = bits w 31 20 ∧
    (funct6Of w).toNat = bits w 31 26 ∧
    (shamt6Of w).toNat = bits w 25 20 ∧
    (shamt5Of w).toNat = bits w 24 20

/-- R98 to R102: every immediate, as the 64-bit value an instruction uses, is the sum of its pieces at their places, read
as signed from its top bit, and lies in the stated range. -/
def Obligations.ImmediatesAreAssembled : Prop :=
  ∀ w : InstWord,
    ((immIOf w).signExtend 64).toInt = (bits w 31 20 : Int).bmod (2 ^ 12) ∧
    ((immSOf w).signExtend 64).toInt = ((bits w 31 25 * 2 ^ 5 + bits w 11 7 : Nat) : Int).bmod (2 ^ 12) ∧
    ((immBOf w).signExtend 64).toInt =
      ((bits w 31 31 * 2 ^ 12 + bits w 7 7 * 2 ^ 11 + bits w 30 25 * 2 ^ 5 + bits w 11 8 * 2 : Nat) : Int).bmod (2 ^ 13) ∧
    ((immUOf w).signExtend 64).toInt = ((bits w 31 12 * 2 ^ 12 : Nat) : Int).bmod (2 ^ 32) ∧
    ((immJOf w).signExtend 64).toInt =
      ((bits w 31 31 * 2 ^ 20 + bits w 19 12 * 2 ^ 12 + bits w 20 20 * 2 ^ 11 + bits w 30 21 * 2 : Nat) : Int).bmod
        (2 ^ 21) ∧
    (-2048 ≤ ((immIOf w).signExtend 64).toInt ∧ ((immIOf w).signExtend 64).toInt ≤ 2047) ∧
    (-2048 ≤ ((immSOf w).signExtend 64).toInt ∧ ((immSOf w).signExtend 64).toInt ≤ 2047) ∧
    (-4096 ≤ ((immBOf w).signExtend 64).toInt ∧ ((immBOf w).signExtend 64).toInt ≤ 4094 ∧
      ((immBOf w).signExtend 64).toInt % 2 = 0) ∧
    (-1048576 ≤ ((immJOf w).signExtend 64).toInt ∧ ((immJOf w).signExtend 64).toInt ≤ 1048574 ∧
      ((immJOf w).signExtend 64).toInt % 2 = 0)

/-- A word decodes to an instruction of a row exactly when it has the row's match under the row's mask, and no row's match
is left undecoded (`spec/opcode_table.json`; the six branch rows and the masks of the ignored fields are the spec's G2
and D7, log entries 14 and 15). -/
def Obligations.DecoderFollowsOpcodeTable : Prop :=
  (∀ w i, decode w = .ok i → w &&& i.row.mask = i.row.fixed) ∧
  (∀ (w : InstWord) (i : Instr), w &&& i.row.mask = i.row.fixed → ∃ j, decode w = .ok j ∧ j.row = i.row)

/-- Decoding the encoding of a well-formed instruction gives it back, whatever its operands (R92 to R104). -/
def Obligations.DecodeOfEncode : Prop :=
  ∀ i : Instr, i.wellFormed = true → decode (encode i) = .ok i

/-- A decoded instruction is well-formed, and a canonical word (R108; the canonical values are the spec's general
knowledge, log entry 14) is the encoding of what it decodes to, but for FENCE, whose bits 31..20 may hold anything. -/
def Obligations.CanonicalWordReencodes : Prop :=
  ∀ w i, decode w = .ok i →
    i.wellFormed = true ∧ (w &&& i.row.canonicalMask = i.row.canonicalFixed → i = .fence ∨ encode i = w)

/-- R106: exactly the words with another opcode are unknown, and running into one raises the panic. -/
def Obligations.UnknownOpcodePanics : Prop :=
  (∀ w, decode w = .error .invalidOpcode ↔
    (opcodeOf w).toNat ∉ [0x03, 0x0F, 0x13, 0x17, 0x1B, 0x23, 0x33, 0x37, 0x3B, 0x63, 0x67, 0x6F, 0x73]) ∧
  decode 0x00000000#32 = .error .invalidOpcode ∧
  decode 0xFFFFFFFF#32 = .error .invalidOpcode ∧
  (∀ w : InstWord, w.toNat % 4 ≠ 3 → decode w = .error .invalidOpcode) ∧
  (∀ w, opcodeOf w ∈ [0x07#7, 0x27#7, 0x2F#7, 0x43#7, 0x47#7, 0x4B#7, 0x4F#7, 0x53#7, 0x57#7, 0x0B#7, 0x2B#7, 0x5B#7,
    0x7B#7] → decode w = .error .invalidOpcode) ∧
  ∀ s w, Fetches s w → decode w = .error .invalidOpcode → Raises (step s) s .invalidOpcode

/-- R138, R145, R160, R166, R189 and R201: the sub-fields that are no instruction panic, and no register or byte is
written. -/
def Obligations.IllegalSubfieldsPanic : Prop :=
  (∀ w, opcodeOf w = 0x03#7 → funct3Of w = 7#3 → decode w = .error .invalidFunct) ∧
  (∀ w, opcodeOf w = 0x23#7 → 4 ≤ (funct3Of w).toNat → decode w = .error .invalidFunct) ∧
  (∀ w, opcodeOf w = 0x13#7 → funct3Of w = 5#3 → funct6Of w ≠ 0b000000#6 → funct6Of w ≠ 0b010000#6 →
    decode w = .error .invalidFunct) ∧
  (∀ w, opcodeOf w = 0x1B#7 →
    ((funct3Of w).toNat ∈ [2, 3, 4, 6, 7] ∨ (funct3Of w = 1#3 ∧ funct7Of w ≠ 0x00#7) ∨
      (funct3Of w = 5#3 ∧ funct7Of w ≠ 0x00#7 ∧ funct7Of w ≠ 0x20#7)) → decode w = .error .invalidFunct) ∧
  (∀ w, opcodeOf w = 0x33#7 →
    (keyOf w).toNat ∉ [0x000, 0x100, 0x001, 0x002, 0x003, 0x004, 0x005, 0x105, 0x006, 0x007, 0x008, 0x009, 0x00A, 0x00B,
      0x00C, 0x00D, 0x00E, 0x00F] → decode w = .error .invalidFunct) ∧
  (∀ w, opcodeOf w = 0x3B#7 →
    (keyOf w).toNat ∉ [0x000, 0x100, 0x001, 0x005, 0x105, 0x008, 0x00C, 0x00D, 0x00E, 0x00F] →
      decode w = .error .invalidFunct) ∧
  ∀ s w, Fetches s w → decode w = .error .invalidFunct → Raises (step s) s .invalidFunct

/-- R107 and R221: a word is an illegal sub-field of a recognised opcode exactly in the listed cases. The branch numbers
are the spec's general knowledge (G2, log entry 15). -/
def Obligations.InvalidFunctExactly : Prop :=
  (∀ w, decode w = .error .invalidFunct ↔
    (opcodeOf w = 0x03#7 ∧ funct3Of w = 7#3) ∨
    (opcodeOf w = 0x23#7 ∧ 4 ≤ (funct3Of w).toNat) ∨
    (opcodeOf w = 0x13#7 ∧ funct3Of w = 5#3 ∧ (funct6Of w).toNat ∉ [0b000000, 0b010000]) ∨
    (opcodeOf w = 0x1B#7 ∧
      ¬ (funct3Of w = 0#3 ∨ (funct3Of w = 1#3 ∧ funct7Of w = 0x00#7) ∨
        (funct3Of w = 5#3 ∧ (funct7Of w = 0x00#7 ∨ funct7Of w = 0x20#7)))) ∨
    (opcodeOf w = 0x33#7 ∧
      (keyOf w).toNat ∉ [0x000, 0x100, 0x001, 0x002, 0x003, 0x004, 0x005, 0x105, 0x006, 0x007, 0x008, 0x009, 0x00A, 0x00B,
        0x00C, 0x00D, 0x00E, 0x00F]) ∨
    (opcodeOf w = 0x3B#7 ∧
      (keyOf w).toNat ∉ [0x000, 0x100, 0x001, 0x005, 0x105, 0x008, 0x00C, 0x00D, 0x00E, 0x00F]) ∨
    (opcodeOf w = 0x63#7 ∧ (funct3Of w = 2#3 ∨ funct3Of w = 3#3))) ∧
  ∀ s w, Fetches s w → decode w = .error .invalidFunct → ∃ t, step s = .next t ∧ PcAfterPanic s t

/-- R236: exactly the SYSTEM words with another funct12 raise InvalidSystem, with no other effect. -/
def Obligations.InvalidSystemExactly : Prop :=
  (∀ w, decode w = .error .invalidSystem ↔ opcodeOf w = 0x73#7 ∧ funct12Of w ≠ 0#12 ∧ funct12Of w ≠ 1#12) ∧
  decode 0x30200073#32 = .error .invalidSystem ∧
  decode 0xC0002573#32 = .error .invalidSystem ∧
  ∀ s w, Fetches s w → decode w = .error .invalidSystem → Raises (step s) s .invalidSystem

/-- R108 (the spec's decision D7, log entry 14): bits the decoder does not examine change nothing. -/
def Obligations.IgnoredFieldsHaveNoEffect : Prop :=
  ∀ v w : InstWord,
    ((opcodeOf v = 0x13#7 ∧ funct3Of v = 1#3 ∧ v &&& 0x03FFFFFF#32 = w &&& 0x03FFFFFF#32) ∨
      (opcodeOf v = 0x67#7 ∧ v &&& 0xFFFF8FFF#32 = w &&& 0xFFFF8FFF#32) ∨
      (opcodeOf v = 0x0F#7 ∧ v &&& 0x0000007F#32 = w &&& 0x0000007F#32) ∨
      (opcodeOf v = 0x73#7 ∧ v &&& 0xFFF0007F#32 = w &&& 0xFFF0007F#32)) →
    decode w = decode v

/-! ## Registers and arena -/

/-- R32, and R31 for an instruction's access and for a handler's write through the handle. -/
def Obligations.RegisterFileReadsAndWrites : Prop :=
  ∀ (s : State) (i j : RegIdx) (v : Word),
    s.reg 0#5 = 0#64 ∧
    s.setReg 0#5 v = s ∧
    runActions [.setReg 0#5 v] s = .done s ∧
    (i ≠ 0#5 → (s.setReg i v).reg i = v) ∧
    (j ≠ i → (s.setReg i v).reg j = s.reg j) ∧
    (runActions [.setReg i v] s = .done (s.setReg i v))

/-- R62: an access in range reads the little-endian sum of its bytes, at any alignment, and out of range is the panic. -/
def Obligations.MemReadIsLittleEndian : Prop :=
  ∀ (s : State) (a : Word) (w : Width),
    (a.toNat + w.bytes ≤ 65536 → memRead s a w = .ok (BitVec.ofNat 64 (littleEndian s a.toNat w.bytes))) ∧
    (65536 < a.toNat + w.bytes → memRead s a w = .error .outOfRange)

/-- R63: an access in range stores the low bytes, lowest first, and nothing else; out of range nothing is stored. -/
def Obligations.MemWriteStoresLowBytes : Prop :=
  ∀ (s : State) (a : Word) (w : Width) (v : Word),
    (a.toNat + w.bytes ≤ 65536 →
      ∃ t, memWrite s a w v = .ok t ∧ BytesStored s t a.toNat w.bytes v ∧ RegsKept s t ∧ t.pc = s.pc ∧ StatusKept s t) ∧
    (65536 < a.toNat + w.bytes → memWrite s a w v = .error .outOfRange)

/-- R67: a read after a write gives, byte by byte, what the write left, whatever the two widths and addresses; in
particular the value modulo its width when both are the same. -/
def Obligations.ReadAfterWrite : Prop :=
  ∀ (s t : State) (a b : Word) (w u : Width) (v : Word), memWrite s b u v = .ok t →
    (∀ x, memRead t a w = .ok x → ∀ i < w.bytes,
      byteOf x i = if b.toNat ≤ a.toNat + i ∧ a.toNat + i < b.toNat + u.bytes then byteOf v (a.toNat + i - b.toNat)
        else s.byte (a.toNat + i)) ∧
    memRead t b u = .ok (BitVec.ofNat 64 (v.toNat % 2 ^ (8 * u.bytes)))

/-- The arena's representation (the model's own, log entry 26) is canonical: writes keep the form, and two arenas in the
form that read alike are equal. -/
def Obligations.ArenaIsCanonical : Prop :=
  (∀ (s t : State) (a : Word) (w : Width) (v : Word), s.mem.wf = true → memWrite s a w v = .ok t → t.mem.wf = true) ∧
  ∀ m n : Memory, m.wf = true → n.wf = true → (∀ a, m.readByte a = n.readByte a) → m = n

/-! ## Reset and the invariant -/

/-- What reset leaves: pc, running, exit code, table and arena as R51 and R290 give them; no callback (`initialize` called
without any, log entry 6) and x1 .. x31 zero (the spec's decision D1, log entry 5). -/
def Obligations.ResetState : Prop :=
  State.reset.pc = 0x1000#64 ∧ State.reset.running = false ∧ State.reset.exitCode = 0 ∧
  (∀ code, getSystemCall code State.reset = none) ∧ (∀ a, State.reset.byte a = 0#8) ∧
  State.reset.exitCb = none ∧ State.reset.panicCb = none ∧ ∀ i, State.reset.reg i = 0#64

/-- The invariant holds at reset. -/
def Obligations.ResetMeetsInvariant : Prop := State.reset.inv = true

/-- Every step keeps the invariant: arena and table canonical, pc even (R39), exit code a signed 64-bit integer (R43), and
no outcome while the block runs. -/
def Obligations.StepKeepsInvariant : Prop :=
  ∀ s t : State, s.inv = true → step s = .next t → t.inv = true

/-- Every call of the host keeps the invariant. -/
def Obligations.HostCallKeepsInvariant : Prop :=
  ∀ (s t : State) (c : HostCall) (r : HostReply), s.inv = true → hostCall c s = .next (t, r) → t.inv = true

/-! ## The step -/

/-- When the four bytes at the pc decode to an instruction, the step of a running block is that instruction, and it adds
nothing (R66, R120). -/
def Obligations.StepRunsDecodedInstruction : Prop :=
  ∀ (s : State) (i : Instr), s.running = true → s.pc.toNat + 4 ≤ 65536 →
    decodeBytes (s.byte s.pc.toNat) (s.byte (s.pc.toNat + 1)) (s.byte (s.pc.toNat + 2)) (s.byte (s.pc.toNat + 3)) = .ok i →
    step s = exec i s

/-- A fetch out of range panics before anything else, and a word that decodes to none panics before it executes. Both
panics do all that R262 lists; the priority is the spec's decision D16, the pc its D5 (log entries 2 and 32). -/
def Obligations.FetchAndDecodePanics : Prop :=
  (∀ s : State, s.running = true → 65536 < s.pc.toNat + 4 →
    Raises (step s) s .outOfRange ∧ ∃ t, step s = .next t ∧ PcAfterPanic s t) ∧
  ∀ s w r, Fetches s w → decode w = .error r →
    Raises (step s) s r ∧ ∃ t, step s = .next t ∧ PcAfterPanic s t

/-- R79, R120 and R298: every step fetches from the arena as it stands and runs the word fetched, so the next fetch and step
see each byte that a store of any width, however it overlaps the next word, or a handler in an ECALL (its move is the
host's, D11, log entry 7) has just written, and every other byte as before. -/
def Obligations.NextFetchSeesStore : Prop :=
  (∀ s : State, s.running = true → s.pc.toNat + 4 ≤ 65536 → FetchesBytes s s.byte) ∧
  (∀ st ∈ [(Instr.sb, 1), (.sh, 2), (.sw, 4), (.sd, 8)], ∀ (rs1 rs2 : RegIdx) (imm : BitVec 12) (s : State),
    s.running = true → (effAddr s rs1 imm).toNat + st.2 ≤ 65536 → (s.pc + 4#64).toNat + 4 ≤ 65536 →
    ∃ t, exec (st.1 rs1 rs2 imm) s = .next t ∧ t.pc = s.pc + 4#64 ∧
      FetchesBytes t fun b =>
        if (effAddr s rs1 imm).toNat ≤ b ∧ b < (effAddr s rs1 imm).toNat + st.2 then
          byteOf (s.reg rs2) (b - (effAddr s rs1 imm).toNat)
        else s.byte b) ∧
  ∀ (s : State) (r : HandlerReturn), s.running = true → Invokes s r → (∀ a ∈ r.actions, actionInRange a) →
    .stop ∉ r.actions → (s.pc + 4#64).toNat + 4 ≤ 65536 →
    ∃ t, exec .ecall s = .next t ∧ t.pc = s.pc + 4#64 ∧ FetchesBytes t fun b => byteAfter b r.actions (s.byte b)

/-- R37: an instruction that completes leaves the pc at its jump target or branch target, or 4 further. -/
def Obligations.PcAdvancesOrJumps : Prop :=
  ∀ (s t : State) (i : Instr), exec i s = .next t → (∀ r, t.outcome ≠ some (.panicked r)) →
    t.pc = (jumpsTo s i).getD (s.pc + 4#64)

/-- No instruction but ECALL and the stores writes the arena, and a store writes only the bytes at its address. -/
def Obligations.OnlyStoresWriteArena : Prop :=
  ∀ (s t : State) (i : Instr), i ≠ .ecall → exec i s = .next t →
    ∀ b, (∀ a n, storedAt s i = some (a, n) → ¬ (a ≤ b ∧ b < a + n)) → t.byte b = s.byte b

/-- R35: an instruction with an rd field writes no other register, STORE, BRANCH, FENCE and EBREAK write none, and an ECALL
with code 0 or with no handler writes none but x10. And R34's last clause: x1 .. x31 are treated alike, so an instruction
with its registers renamed, in the state with the same renaming, does the same; an ECALL reads x10 and x17 by their numbers
(R33), and what a handler does with registers is the host's. Where the instruction panics, that the two pcs are equal is log
entry 2's choice of what the draw depends on, the counter, the reason and the pc, which both states share: R263 gives no
more than that each is pc or pc + 4. -/
def Obligations.OnlyDestinationIsWritten : Prop :=
  (∀ (s t : State) (i : Instr) (j : RegIdx), exec i s = .next t → destination i ≠ some j →
    (i = .ecall → j ≠ 10#5 ∧ (s.reg 17#5 = 0#64 ∨ getSystemCall (s.reg 17#5) s = none)) → t.reg j = s.reg j) ∧
  ∀ (σ : Equiv.Perm RegIdx) (i : Instr) (s t : State), σ 0#5 = 0#5 → AlikeUnder σ s t →
    (i = .ecall → σ 10#5 = 10#5 ∧ σ 17#5 = 17#5 ∧ (s.reg 17#5 = 0#64 ∨ getSystemCall (s.reg 17#5) s = none)) →
    ∃ s' t', exec i s = .next s' ∧ exec (renamed σ i) t = .next t' ∧ AlikeUnder σ s' t'

/-- No instruction ever stops the machine: each has a next state (R120), an ECALL too, but for the one that calls a handler
which never returns (R238, log entry 8); and none is refused. That a load, a store or an ECALL that panics (R262) has a next
state is log entry 1. -/
def Obligations.EveryInstructionHasNextState : Prop :=
  (∀ (s : State) (i : Instr), i ≠ .ecall → ∃ t, exec i s = .next t) ∧
  ∀ s : State, (∃ t, exec .ecall s = .next t) ∨
    ∃ h rest, exec .ecall s = .fault (.handlerNeverReturns h) ∧ s.reg 17#5 ≠ 0#64 ∧
      getSystemCall (s.reg 17#5) s = some h ∧ s.handlerMoves = .hangs :: rest

/-- No step changes the table or the callbacks: only the host does, between runs (R44, R45, R238). -/
def Obligations.StepKeepsTableAndCallbacks : Prop :=
  ∀ s t : State, step s = .next t → HostSideKept s t

/-- R276: a step of a run leaves it running, with exit code and callbacks' calls as before, or ends it in exactly one of four
ways, each with the row's exit code, callback, x10 and pc. The exit code's width is the spec's decision D9, the pc after
ECALL and EBREAK its D6 and after a panic its D5, that EBREAK calls no callback its D24, what `stop()` in a handler leaves
its D26, a handler's access out of range its D23, and the handler's move is the host's, D11 (log entries 2, 7, 18, 19, 20,
28, 29). -/
def Obligations.RunEndsInFourWays : Prop :=
  ∀ s t : State, s.running = true → s.outcome = none → step s = .next t →
    (t.running = true ∧ t.outcome = none ∧ t.exitCode = s.exitCode ∧ t.callbackCalls = s.callbackCalls) ∨
    (t.running = false ∧
      ((Executes s .ecall ∧ s.reg 17#5 = 0#64 ∧ t.outcome = some (.exited (s.reg 10#5)) ∧
          t.exitCode = (s.reg 10#5).toInt ∧ RegsKept s t ∧ t.pc = s.pc + 4#64 ∧
          t.callbackCalls = s.callbackCalls ++ (s.exitCb.toList.map fun cb => .exit cb (s.reg 10#5))) ∨
        (Executes s .ebreak ∧ t.outcome = some .broke ∧ t.exitCode = -1 ∧ RegsKept s t ∧ t.pc = s.pc + 4#64 ∧
          t.callbackCalls = s.callbackCalls) ∨
        (Executes s .ecall ∧ t.outcome = some .stopped ∧ t.exitCode = s.exitCode ∧
          (∃ m, Invokes s m ∧ .stop ∈ m.actions ∧ t.reg 10#5 = m.result) ∧ t.pc = s.pc + 4#64 ∧
          t.callbackCalls = s.callbackCalls) ∨
        ∃ r, t.outcome = some (.panicked r) ∧ t.exitCode = -1 ∧ PcAfterPanic s t ∧ PanicReported s t r ∧
          (RegsKept s t ∨ (Executes s .ecall ∧ r = .outOfRange ∧
            ∃ m before, Invokes s m ∧ FailsAfter m before ∧ ∀ j, t.reg j = regAfter j before (s.reg j)))))

/-! ## Loads and stores -/

/-- R131 to R137, at the address of R130. -/
def Obligations.LoadsExtendLittleEndianValue : Prop :=
  (∀ (s : State) (rs1 : RegIdx) (imm : BitVec 12), effAddr s rs1 imm = word ((s.reg rs1).toNat + imm.toInt)) ∧
  MeansLoad 0#3 .lb 1 (fun x => word ((x : Int).bmod (2 ^ 8))) ∧
  MeansLoad 1#3 .lh 2 (fun x => word ((x : Int).bmod (2 ^ 16))) ∧
  MeansLoad 2#3 .lw 4 (fun x => word ((x : Int).bmod (2 ^ 32))) ∧
  MeansLoad 3#3 .ld 8 (fun x => BitVec.ofNat 64 x) ∧
  MeansLoad 4#3 .lbu 1 (fun x => BitVec.ofNat 64 x) ∧
  MeansLoad 5#3 .lhu 2 (fun x => BitVec.ofNat 64 x) ∧
  MeansLoad 6#3 .lwu 4 (fun x => BitVec.ofNat 64 x)

/-- R141 to R144, at the address of R140. -/
def Obligations.StoresWriteLowBytes : Prop :=
  (∀ (s : State) (rs1 : RegIdx) (imm : BitVec 12), effAddr s rs1 imm = word ((s.reg rs1).toNat + imm.toInt)) ∧
  MeansStore 0#3 .sb 1 ∧ MeansStore 1#3 .sh 2 ∧ MeansStore 2#3 .sw 4 ∧ MeansStore 3#3 .sd 8

/-! ## Register-immediate arithmetic -/

/-- R151, R153, R154, R155, R158 and R159. -/
def Obligations.OpImmResults : Prop :=
  MeansImm 0x13#7 0#3 .addi (fun a b => word (a.toInt + b.toInt)) ∧
  MeansImm 0x13#7 2#3 .slti (fun a b => if a.toInt < b.toInt then 1#64 else 0#64) ∧
  MeansImm 0x13#7 3#3 .sltiu (fun a b => if a.toNat < b.toNat then 1#64 else 0#64) ∧
  MeansImm 0x13#7 4#3 .xori (fun a b => BitVec.ofNat 64 (a.toNat ^^^ b.toNat)) ∧
  MeansImm 0x13#7 6#3 .ori (fun a b => BitVec.ofNat 64 (a.toNat ||| b.toNat)) ∧
  MeansImm 0x13#7 7#3 .andi (fun a b => BitVec.ofNat 64 (a.toNat &&& b.toNat))

/-- R152, R156 and R157. That SLLI's funct6 is not examined is the spec's decision D7 (log entry 14). -/
def Obligations.OpImmShiftResults : Prop :=
  ((∀ w, opcodeOf w = 0x13#7 → funct3Of w = 1#3 → decode w = .ok (.slli (rdOf w) (rs1Of w) (shamt6Of w))) ∧
    ∀ rd rs1 (sh : BitVec 6) s,
      Completes (.slli rd rs1 sh) s rd (BitVec.ofNat 64 ((s.reg rs1).toNat * 2 ^ sh.toNat)) (s.pc + 4#64)) ∧
  MeansShift64 0b000000#6 .srli (fun a n => BitVec.ofNat 64 (a.toNat / 2 ^ n)) ∧
  MeansShift64 0b010000#6 .srai (fun a n => word (a.toInt / 2 ^ n))

/-- R162 to R165. -/
def Obligations.OpImm32Results : Prop :=
  MeansImm 0x1B#7 0#3 .addiw (fun a b => word32 (a.toInt + b.toInt)) ∧
  MeansShift32 1#3 0x00#7 .slliw (fun a n => word32 ((lowU a * 2 ^ n : Nat) : Int)) ∧
  MeansShift32 5#3 0x00#7 .srliw (fun a n => word32 ((lowU a / 2 ^ n : Nat) : Int)) ∧
  MeansShift32 5#3 0x20#7 .sraiw (fun a n => word32 (lowS a / 2 ^ n))

/-! ## Register-register arithmetic -/

/-- R171, R172, R173, R176, R177, R178, R179 and R180. -/
def Obligations.OpResults : Prop :=
  MeansOp 0x33#7 0x000#10 .add (fun a b => word (a.toInt + b.toInt)) ∧
  MeansOp 0x33#7 0x100#10 .sub (fun a b => word (a.toInt - b.toInt)) ∧
  MeansOp 0x33#7 0x001#10 .sll (fun a b => BitVec.ofNat 64 (a.toNat * 2 ^ (b.toNat % 64))) ∧
  MeansOp 0x33#7 0x004#10 .xor (fun a b => BitVec.ofNat 64 (a.toNat ^^^ b.toNat)) ∧
  MeansOp 0x33#7 0x005#10 .srl (fun a b => BitVec.ofNat 64 (a.toNat / 2 ^ (b.toNat % 64))) ∧
  MeansOp 0x33#7 0x105#10 .sra (fun a b => word (a.toInt / 2 ^ (b.toNat % 64))) ∧
  MeansOp 0x33#7 0x006#10 .or (fun a b => BitVec.ofNat 64 (a.toNat ||| b.toNat)) ∧
  MeansOp 0x33#7 0x007#10 .and (fun a b => BitVec.ofNat 64 (a.toNat &&& b.toNat))

/-- R174, R175, R181 and R183. The operand order of SLT and SLTU and the signed operand of MULHSU are the spec's general
knowledge (G9, G8, log entry 16); that MUL is the same signed and unsigned is its inference. -/
def Obligations.OpSetAndMulResults : Prop :=
  MeansOp 0x33#7 0x002#10 .slt (fun a b => if a.toInt < b.toInt then 1#64 else 0#64) ∧
  MeansOp 0x33#7 0x003#10 .sltu (fun a b => if a.toNat < b.toNat then 1#64 else 0#64) ∧
  MeansOp 0x33#7 0x008#10 .mul (fun a b => word (a.toInt * b.toInt)) ∧
  (∀ a b : Word, word (a.toInt * b.toInt) = BitVec.ofNat 64 (a.toNat * b.toNat)) ∧
  MeansOp 0x33#7 0x00A#10 .mulhsu (fun a b => word (a.toInt * (b.toNat : Int) / 2 ^ 64))

/-- R182 and R184: bits 127..64 of the exact product. -/
def Obligations.MulHighResults : Prop :=
  MeansOp 0x33#7 0x009#10 .mulh (fun a b => word (a.toInt * b.toInt / 2 ^ 64)) ∧
  MeansOp 0x33#7 0x00B#10 .mulhu (fun a b => BitVec.ofNat 64 (a.toNat * b.toNat / 2 ^ 64))

/-- R186 and R188. -/
def Obligations.UnsignedDivisionResults : Prop :=
  MeansOp 0x33#7 0x00D#10 .divu (fun a b => if b.toNat = 0 then word (-1) else BitVec.ofNat 64 (a.toNat / b.toNat)) ∧
  MeansOp 0x33#7 0x00F#10 .remu (fun a b => if b.toNat = 0 then a else BitVec.ofNat 64 (a.toNat % b.toNat))

/-- R185 and R187. Rounding toward zero is the spec's general knowledge (G4, log entry 16). -/
def Obligations.SignedDivisionResults : Prop :=
  MeansOp 0x33#7 0x00C#10 .div (fun a b =>
    if b.toInt = 0 then word (-1)
    else if a.toInt = -(2 ^ 63) ∧ b.toInt = -1 then word (-(2 ^ 63))
    else word (a.toInt.tdiv b.toInt)) ∧
  MeansOp 0x33#7 0x00E#10 .rem (fun a b =>
    if b.toInt = 0 then a
    else if a.toInt = -(2 ^ 63) ∧ b.toInt = -1 then word 0
    else word (a.toInt - b.toInt * a.toInt.tdiv b.toInt))

/-- R191 to R196. -/
def Obligations.Op32Results : Prop :=
  MeansOp 0x3B#7 0x000#10 .addw (fun a b => word32 ((lowU a : Int) + lowU b)) ∧
  MeansOp 0x3B#7 0x100#10 .subw (fun a b => word32 ((lowU a : Int) - lowU b)) ∧
  MeansOp 0x3B#7 0x001#10 .sllw (fun a b => word32 ((lowU a * 2 ^ (b.toNat % 32) : Nat) : Int)) ∧
  MeansOp 0x3B#7 0x005#10 .srlw (fun a b => word32 ((lowU a / 2 ^ (b.toNat % 32) : Nat) : Int)) ∧
  MeansOp 0x3B#7 0x105#10 .sraw (fun a b => word32 (lowS a / 2 ^ (b.toNat % 32))) ∧
  MeansOp 0x3B#7 0x008#10 .mulw (fun a b => word32 ((lowU a : Int) * lowU b))

/-- R197 to R200. The corners are the spec's decision D8, rounding toward zero its general knowledge (G4, log entries 16
and 17). -/
def Obligations.Op32DivisionResults : Prop :=
  MeansOp 0x3B#7 0x00C#10 .divw (fun a b =>
    if lowU b = 0 then word32 (-1)
    else if lowS a = -(2 ^ 31) ∧ lowS b = -1 then word32 (-(2 ^ 31))
    else word32 ((lowS a).tdiv (lowS b))) ∧
  MeansOp 0x3B#7 0x00D#10 .divuw (fun a b => if lowU b = 0 then word32 (-1) else word32 ((lowU a / lowU b : Nat) : Int)) ∧
  MeansOp 0x3B#7 0x00E#10 .remw (fun a b =>
    if lowU b = 0 then word32 (lowU a)
    else if lowS a = -(2 ^ 31) ∧ lowS b = -1 then word32 0
    else word32 (lowS a - lowS b * (lowS a).tdiv (lowS b))) ∧
  MeansOp 0x3B#7 0x00F#10 .remuw (fun a b =>
    if lowU b = 0 then word32 (lowU a) else word32 ((lowU a % lowU b : Nat) : Int))

/-- R190, R161: bits 63..32 of the sources never affect a word instruction's result. -/
def Obligations.WordInstructionsIgnoreUpperHalf : Prop :=
  (∀ mk ∈ [Instr.addw, .subw, .sllw, .srlw, .sraw, .mulw, .divw, .divuw, .remw, .remuw],
    ∀ (rd rs1 rs2 : RegIdx) (s t s' t' : State), lowU (s.reg rs1) = lowU (t.reg rs1) →
      lowU (s.reg rs2) = lowU (t.reg rs2) → exec (mk rd rs1 rs2) s = .next s' → exec (mk rd rs1 rs2) t = .next t' →
      s'.reg rd = t'.reg rd) ∧
  (∀ mk ∈ [Instr.slliw, .srliw, .sraiw],
    ∀ (rd rs1 : RegIdx) (sh : BitVec 5) (s t s' t' : State), lowU (s.reg rs1) = lowU (t.reg rs1) →
      exec (mk rd rs1 sh) s = .next s' → exec (mk rd rs1 sh) t = .next t' → s'.reg rd = t'.reg rd) ∧
  ∀ (rd rs1 : RegIdx) (imm : BitVec 12) (s t s' t' : State), lowU (s.reg rs1) = lowU (t.reg rs1) →
    exec (.addiw rd rs1 imm) s = .next s' → exec (.addiw rd rs1 imm) t = .next t' → s'.reg rd = t'.reg rd

/-- Quotient times divisor plus remainder is the dividend modulo 2⁶⁴, for every divisor, zero and −1 too, signed and
unsigned; and where the divisor is not zero the unsigned remainder is below it, and the signed one below it in magnitude
with the sign of the dividend (R185 to R188; truncation is G4, log entry 16). -/
def Obligations.QuotientAndRemainderAgree : Prop :=
  ∀ (rd rs1 rs2 : RegIdx) (s : State), rd ≠ 0#5 →
    (∀ q r, exec (.div rd rs1 rs2) s = .next q → exec (.rem rd rs1 rs2) s = .next r →
      q.reg rd * s.reg rs2 + r.reg rd = s.reg rs1 ∧
      (s.reg rs2 ≠ 0#64 → (r.reg rd).toInt.natAbs < (s.reg rs2).toInt.natAbs ∧
        0 ≤ (r.reg rd).toInt * (s.reg rs1).toInt)) ∧
    ∀ q r, exec (.divu rd rs1 rs2) s = .next q → exec (.remu rd rs1 rs2) s = .next r →
      q.reg rd * s.reg rs2 + r.reg rd = s.reg rs1 ∧
      (s.reg rs2 ≠ 0#64 → (r.reg rd).toNat < (s.reg rs2).toNat)

/-! ## Upper immediates and control transfer -/

/-- R210 and R211. -/
def Obligations.UpperImmediateResults : Prop :=
  (∀ w, opcodeOf w = 0x37#7 → decode w = .ok (.lui (rdOf w) (immUOf w))) ∧
  (∀ rd imm s, Completes (.lui rd imm) s rd (word imm.toInt) (s.pc + 4#64)) ∧
  (∀ w, opcodeOf w = 0x17#7 → decode w = .ok (.auipc (rdOf w) (immUOf w))) ∧
  (∀ rd imm s, Completes (.auipc rd imm) s rd (word ((s.pc.toNat : Int) + imm.toInt)) (s.pc + 4#64))

/-- R212: the link register gets pc + 4 and the pc the target; a target out of range, or whose word does not decode, panics
at the next fetch, with the link register written. -/
def Obligations.JalLinksAndJumps : Prop :=
  (∀ w, opcodeOf w = 0x6F#7 → decode w = .ok (.jal (rdOf w) (immJOf w))) ∧
  ∀ rd (imm : BitVec 21) s,
    Completes (.jal rd imm) s rd (s.pc + 4#64) (word ((s.pc.toNat : Int) + imm.toInt)) ∧
    (s.running = true → ∃ t, exec (.jal rd imm) s = .next t ∧ RegsSet s t rd (s.pc + 4#64) ∧
      (65536 < t.pc.toNat + 4 → Raises (step t) t .outOfRange) ∧
      ∀ w r, Fetches t w → decode w = .error r → Raises (step t) t r)

/-- R213: the target is formed from the old x[rs1] and its bit 0 cleared, also when rd = rs1. That funct3 is not examined is
the spec's decision D7 (log entry 14). -/
def Obligations.JalrLinksAndJumps : Prop :=
  (∀ w, opcodeOf w = 0x67#7 → decode w = .ok (.jalr (rdOf w) (rs1Of w) (immIOf w))) ∧
  ∀ rd rs1 (imm : BitVec 12) s,
    Completes (.jalr rd rs1 imm) s rd (s.pc + 4#64)
      (BitVec.ofNat 64 ((s.reg rs1 + imm.signExtend 64).toNat / 2 * 2))

/-- R214 to R220. The funct3 numbers and that "less than" is rs1 < rs2 are the spec's general knowledge (G2, log entry
15). -/
def Obligations.BranchesCompare : Prop :=
  MeansBranch 0#3 .beq (fun a b => a = b) ∧
  MeansBranch 1#3 .bne (fun a b => a ≠ b) ∧
  MeansBranch 4#3 .blt (fun a b => a.toInt < b.toInt) ∧
  MeansBranch 5#3 .bge (fun a b => a.toInt ≥ b.toInt) ∧
  MeansBranch 6#3 .bltu (fun a b => a.toNat < b.toNat) ∧
  MeansBranch 7#3 .bgeu (fun a b => a.toNat ≥ b.toNat)

/-! ## System -/

/-- R230: every word with opcode 0x0F is a no-op. That no other field is examined is the spec's decision D7 (log entry
14). -/
def Obligations.FenceIsNoOp : Prop :=
  (∀ w, opcodeOf w = 0x0F#7 → decode w = .ok .fence) ∧
  ∀ s, CompletesPcOnly .fence s (s.pc + 4#64)

/-- R231, R232 and R248: code 0 exits, whatever the table holds at code 0. The exit code's width is D9, the pc D6 (log
entries 19 and 20). -/
def Obligations.EcallExits : Prop :=
  (∀ w, opcodeOf w = 0x73#7 → funct12Of w = 0#12 → decode w = .ok .ecall) ∧
  ∀ s : State, s.reg 17#5 = 0#64 →
    ∃ t, exec .ecall s = .next t ∧ t.exitCode = (s.reg 10#5).toInt ∧ t.running = false ∧
      t.outcome = some (.exited (s.reg 10#5)) ∧ RegsKept s t ∧ t.pc = s.pc + 4#64 ∧ MemKept s t ∧ HostSideKept s t ∧
      t.handlerMoves = s.handlerMoves ∧ t.draws = s.draws ∧
      (s.exitCb = none → t.callbackCalls = s.callbackCalls) ∧
      ∀ cb, s.exitCb = some cb → t.callbackCalls = s.callbackCalls ++ [.exit cb (s.reg 10#5)]

/-- R234: a code that is not 0 and has no handler panics. That x10 is not written is D4, the pc D5 (log entries 2 and
18). -/
def Obligations.EcallUnregisteredPanics : Prop :=
  ∀ s : State, s.reg 17#5 ≠ 0#64 → getSystemCall (s.reg 17#5) s = none →
    Raises (exec .ecall s) s .invalidSyscall ∧
    ∃ t, exec .ecall s = .next t ∧ PcAfterPanic s t ∧ t.handlerMoves = s.handlerMoves

/-- R233 and R238: a handler that returns. Its actions take effect in order, its result goes to x10 whatever it wrote
there, the pc advances, and the run ends exactly if it called `stop()` (D26, log entry 28). What it does is the host's
(D11, log entry 7), listed or, as in every state reached from reset, the free value; the statement is the same for both. -/
def Obligations.EcallRunsHandler : Prop :=
  ∀ (s : State) (r : HandlerReturn), Invokes s r → (∀ a ∈ r.actions, actionInRange a) →
    ∃ t, exec .ecall s = .next t ∧
      (∀ j, t.reg j = if j = 10#5 then r.result else regAfter j r.actions (s.reg j)) ∧
      (∀ b, t.byte b = byteAfter b r.actions (s.byte b)) ∧
      t.pc = s.pc + 4#64 ∧ t.exitCode = s.exitCode ∧ HostSideKept s t ∧ t.callbackCalls = s.callbackCalls ∧
      t.handlerMoves = s.handlerMoves.tail ∧ (s.handlerMoves = [] → t.draws = s.draws + 1) ∧
      (s.handlerMoves ≠ [] → t.draws = s.draws) ∧
      (.stop ∈ r.actions → t.running = false ∧ t.outcome = some .stopped) ∧
      (.stop ∉ r.actions → t.running = s.running ∧ (s.running = true → t.outcome = s.outcome))

/-- R238 and R263 (D23, log entry 18): a handler's access out of range is the ECALL's panic; what the handler did before it
stays, what stands after it is not done, and x10 is not written by the ECALL. The pc after it is D5 (log entry 2). What the handler does is listed or the free
value, as in EcallRunsHandler. -/
def Obligations.HandlerOutOfRangePanics : Prop :=
  ∀ (s : State) (r : HandlerReturn) (before : List HandlerAction), Invokes s r → FailsAfter r before →
    ∃ t, exec .ecall s = .next t ∧
      t.outcome = some (.panicked .outOfRange) ∧ t.exitCode = -1 ∧ t.running = false ∧
      (∀ j, t.reg j = regAfter j before (s.reg j)) ∧ (∀ b, t.byte b = byteAfter b before (s.byte b)) ∧
      PcAfterPanic s t ∧ PanicReported s t .outOfRange ∧ HostSideKept s t ∧ t.handlerMoves = s.handlerMoves.tail

/-- R238: a handler that never returns hangs the ECALL, which has no next state (log entry 8). -/
def Obligations.HangingHandlerHangsEcall : Prop :=
  ∀ (s : State) (h : HandlerId) (rest : List HandlerMove), s.reg 17#5 ≠ 0#64 →
    getSystemCall (s.reg 17#5) s = some h → s.handlerMoves = .hangs :: rest →
    exec .ecall s = .fault (.handlerNeverReturns h)

/-- R235: EBREAK ends the run with −1 and writes no register. That no callback is called is D24, the pc D6 (log entries 19
and 29). -/
def Obligations.EbreakHalts : Prop :=
  (∀ w, opcodeOf w = 0x73#7 → funct12Of w = 1#12 → decode w = .ok .ebreak) ∧
  ∀ s : State, ∃ t, exec .ebreak s = .next t ∧ t.exitCode = -1 ∧ t.running = false ∧ t.outcome = some .broke ∧
    RegsKept s t ∧ t.pc = s.pc + 4#64 ∧ MemKept s t ∧ HostSideKept s t ∧ t.callbackCalls = s.callbackCalls ∧
    t.handlerMoves = s.handlerMoves ∧ t.draws = s.draws

/-! ## The host interface -/

/-- R291 (that registers and arena keep their values is D1, log entry 24). -/
def Obligations.InitializeResets : Prop :=
  ∀ (s : State) (e p : Option CallbackId), s.running = false →
    ∃ t, hostCall (.init e p) s = .next (t, .unit) ∧ t.pc = 0x1000#64 ∧ t.exitCode = 0 ∧ t.running = false ∧
      (∀ code, getSystemCall code t = none) ∧ t.exitCb = e ∧ t.panicCb = p ∧ RegsKept s t ∧ MemKept s t

/-- R292: an image of 1 to 61 440 bytes is copied to 0x1000 and x2 is set; any other is turned away with no change (D2, log
entry 24). -/
def Obligations.LoadFromBytesCopiesImage : Prop :=
  ∀ (s : State) (data : List Byte), s.running = false →
    ((1 ≤ data.length ∧ data.length ≤ 61440) →
      ∃ t, hostCall (.load data) s = .next (t, .flag true) ∧ RegsSet s t 2#5 0x10000#64 ∧ t.pc = s.pc ∧ StatusKept s t ∧
        ∀ b, t.byte b = if 0x1000 ≤ b ∧ b < 0x1000 + data.length then data.getD (b - 0x1000) 0#8 else s.byte b) ∧
    (¬ (1 ≤ data.length ∧ data.length ≤ 61440) → hostCall (.load data) s = .next (s, .flag false))

/-- R237 (D19, log entry 22): installing a handler replaces the one at that code, leaves every other code alone, and changes
nothing else. -/
def Obligations.SetSystemCallInstalls : Prop :=
  ∀ (s : State) (code : Word) (h : HandlerId), s.running = false →
    ∃ t, hostCall (.setSystemCall code h) s = .next (t, .unit) ∧
      (∀ c, hostCall (.getSystemCall c) t = .next (t, .handler (if c = code then some h else getSystemCall c s))) ∧
      RegsKept s t ∧ MemKept s t ∧ t.pc = s.pc ∧ t.running = s.running ∧ t.exitCode = s.exitCode ∧
      t.exitCb = s.exitCb ∧ t.panicCb = s.panicCb

/-- R241 to R243: what the host reads between runs, and that reading changes nothing. Above a21 is refused (D12), past the
arena the string is empty (D13), and how bytes become a string is open (D21; log entries 13, 22 and 23). -/
def Obligations.HostReads : Prop :=
  ∀ s : State, s.running = false →
    (∀ i, i ≤ 21 → hostCall (.getPointerParam i) s = .next (s, .word (s.reg (BitVec.ofNat 5 (10 + i))))) ∧
    (∀ i, 22 ≤ i → hostCall (.getPointerParam i) s = .refused (.pointerParamOutOfRange i)) ∧
    hostCall (.getStringPointer 0#64) s = .next (s, .string "(null)") ∧
    (∀ p : Word, p ≠ 0#64 → ∃ bytes, hostCall (.getStringPointer p) s = .next (s, .string (Config.decodeString bytes)) ∧
      p.toNat + bytes.length ≤ max 65536 p.toNat ∧
      (∀ i < bytes.length, bytes.getD i 0#8 = s.byte (p.toNat + i) ∧ s.byte (p.toNat + i) ≠ 0#8) ∧
      (p.toNat + bytes.length < 65536 → s.byte (p.toNat + bytes.length) = 0#8)) ∧
    hostCall .isRunning s = .next (s, .flag false) ∧
    hostCall .getExitCode s = .next (s, .int s.exitCode)

/-- R42, R240, R244 and R267: `run()` sets `running`, `stop()` clears it, and each changes nothing else that the spec gives
the machine, so a run goes on from where the last one ended; no other host call sets `running`, no step does, and during a
run the host's calls are refused (D11, D20, log entry 22). -/
def Obligations.OnlyRunStartsARun : Prop :=
  (∀ s : State, s.running = false →
    ∃ t, hostCall .run s = .next (t, .unit) ∧ t.running = true ∧ RegsKept s t ∧ MemKept s t ∧ t.pc = s.pc ∧
      t.exitCode = s.exitCode ∧ HostSideKept s t) ∧
  (∀ s : State, s.running = false → hostCall .stop s = .next (s, .unit)) ∧
  (∀ (s t : State) (c : HostCall) (r : HostReply), hostCall c s = .next (t, r) → t.running = true → c = .run) ∧
  (∀ s t : State, step s = .next t → t.running = true → s.running = true) ∧
  ∀ (s : State) (c : HostCall), s.running = true → hostCall c s = .refused .hostCallDuringRun

/-- R121, R275 and R300: a halted block keeps its state; a run that has ended is not running, its result is its outcome and
its state, and one that ended within some number of steps has ended the same way within any larger number (the fuel bound
is the spec's decision D27, log entry 31). -/
def Obligations.RunResultIsFinal : Prop :=
  (∀ s : State, s.running = false → step s = .next s) ∧
  ∀ (n m : Nat) (s t : State) (o : Option RunOutcome), runFor n s = .ended o t →
    t.running = false ∧ o = t.outcome ∧ o ≠ none ∧ runFor (n + m) s = .ended o t
end

