-- ==== Sys2Proof/Laws/Alu.lean ====
section
/-! SUPPORT. The shared arithmetic as exact integers narrowed at the end, one lemma an operation: operands, results, the
corners of division, and targets. -/

namespace Sys2Proof.Machine

/-! ## Operands and results -/

/-- A shift amount is bits 5..0 (`42_op.md` R173). -/
theorem shiftAmount64_eq (b : Word) : shiftAmount64 b = b.toNat % 64 := by
  rw [shiftAmount64, BitVec.toNat_and]; exact Nat.and_two_pow_sub_one_eq_mod b.toNat 6

/-- A word shift amount is bits 4..0 (R193). -/
theorem shiftAmount32_eq (b : Word) : shiftAmount32 b = b.toNat % 32 := by
  rw [shiftAmount32, BitVec.toNat_and]; exact Nat.and_two_pow_sub_one_eq_mod b.toNat 5

theorem low32_toNat (a : Word) : (low32 a).toNat = a.toNat % 2 ^ 32 := by rw [low32, BitVec.toNat_setWidth]

theorem low32_toInt (a : Word) : (low32 a).toInt = (a.toNat : Int).bmod (2 ^ 32) := by rw [low32, BitVec.toInt_setWidth]

/-- The low half of an exact integer's 64 bits is its own low 32 bits. -/
theorem low32_ofInt (x : Int) : low32 (BitVec.ofInt 64 x) = BitVec.ofInt 32 x := by
  apply BitVec.eq_of_toNat_eq
  rw [low32, BitVec.toNat_setWidth, BitVec.toNat_ofInt, BitVec.toNat_ofInt]
  norm_num; omega

/-- An immediate as a value is its signed integer (`30_encoding.md` R103). -/
theorem sext_eq {n : Nat} (imm : BitVec n) (hn : n ≤ 64) : sext imm = BitVec.ofInt 64 imm.toInt := by
  apply BitVec.eq_of_toInt_eq
  rw [sext, BitVec.toInt_signExtend_of_le hn, ← BitVec.toInt_signExtend_of_le hn, BitVec.ofInt_toInt]

/-- A comparison's result is 1 exactly when it holds (`00_scope.md` R13). -/
theorem bool01_decide (c : Prop) [Decidable c] : bool01 (decide c) = if c then 1#64 else 0#64 := by
  unfold bool01; by_cases h : c <;> simp [h]

/-- The high half of an exact product is its floor by 2⁶⁴ (R182 to R184). -/
theorem highHalf_eq (x : Int) : highHalf x = BitVec.ofInt 64 (x / 2 ^ 64) := by
  apply BitVec.eq_of_toNat_eq
  rw [highHalf, BitVec.extractLsb'_toNat, BitVec.toNat_ofInt, BitVec.toNat_ofInt, Nat.shiftRight_eq_div_pow]
  norm_num; omega

/-! ## The corners of division (R185 to R188, R197 to R200) -/

theorem divSigned_zero {n : Nat} (a : BitVec n) : divSigned a 0#n = BitVec.allOnes n := by rw [divSigned, if_pos rfl]

theorem divUnsigned_zero {n : Nat} (a : BitVec n) : divUnsigned a 0#n = BitVec.allOnes n := by
  rw [divUnsigned, if_pos rfl]

theorem remSigned_zero {n : Nat} (a : BitVec n) : remSigned a 0#n = a := by rw [remSigned, if_pos rfl]

theorem remUnsigned_zero {n : Nat} (a : BitVec n) : remUnsigned a 0#n = a := by rw [remUnsigned, if_pos rfl]

/-- Away from the corners the quotient is the exact one, rounded toward zero. -/
theorem divSigned_of_ne {n : Nat} {a b : BitVec n} (h : b ≠ 0#n)
    (hc : ¬ (a = BitVec.intMin n ∧ b = BitVec.allOnes n)) : divSigned a b = BitVec.ofInt n (a.toInt.tdiv b.toInt) := by
  rw [divSigned, if_neg h, if_neg hc]

/-- And the remainder is what it leaves. -/
theorem remSigned_of_ne {n : Nat} {a b : BitVec n} (h : b ≠ 0#n)
    (hc : ¬ (a = BitVec.intMin n ∧ b = BitVec.allOnes n)) :
    remSigned a b = BitVec.ofInt n (a.toInt - b.toInt * a.toInt.tdiv b.toInt) := by
  rw [remSigned, if_neg h, if_neg hc]

/-! ## Targets -/

/-- Clearing bit 0 rounds down to an even number (`43_upper_and_control.md` R213). -/
theorem clearBit0_eq (x : Word) : x &&& ~~~1#64 = BitVec.ofNat 64 (x.toNat / 2 * 2) := by
  apply BitVec.eq_of_getLsbD_eq
  intro i hi
  have e : (BitVec.ofNat 64 (x.toNat / 2 * 2)).getLsbD i = (x.toNat / 2 * 2).testBit i := by
    rw [BitVec.getLsbD_ofNat]; simp [hi]
  rw [e, BitVec.getLsbD_and, BitVec.getLsbD_not]
  rcases i with _ | i
  · rw [Nat.testBit_zero]; simp
  · rw [Nat.mul_comm, Nat.testBit_succ, Nat.mul_div_cancel_left _ (by norm_num), Nat.testBit_div_two]
    simp [hi, BitVec.getLsbD]
    intro _; rw [Nat.testBit_succ]; simp

/-- A branch that is taken sets the pc to its target and nothing else (R214). -/
theorem branchIf_true (imm : BitVec 13) (s : State) : branchIf true imm s = s.setPc (pcTarget s imm) := by
  rw [branchIf, if_pos rfl]

/-- A branch that is not taken goes on to pc + 4 (R214). -/
theorem branchIf_false (imm : BitVec 13) (s : State) : branchIf false imm s = s.advance := by
  rw [branchIf, if_neg (by decide)]

end Sys2Proof.Machine
end

