-- ==== Sys2Proof/Laws/Decode.lean ====
section
/-! SUPPORT. The decoder's fields of each format's encoder, and each format rebuilt from its fields (`30_encoding.md` R91
to R102). Every lemma goes through the fields' values as numbers. -/

namespace Sys2Proof

theorem append_toNat {m n : Nat} (x : BitVec m) (y : BitVec n) : (x ++ y).toNat = x.toNat * 2 ^ n + y.toNat := by
  rw [BitVec.toNat_append, ← Nat.shiftLeft_add_eq_or_of_lt y.isLt, Nat.shiftLeft_eq]

theorem extract_toNat {n : Nat} (lo len : Nat) (x : BitVec n) :
    (x.extractLsb' lo len).toNat = x.toNat / 2 ^ lo % 2 ^ len := by
  rw [BitVec.extractLsb'_toNat, Nat.shiftRight_eq_div_pow]

/-- The U-immediate as a concatenation (R101). -/
theorem immUOf_eq (w : InstWord) : immUOf w = w.extractLsb' 12 20 ++ 0#12 := by
  have mask : ∀ j : Fin 32, (0xFFFFF000#32)[j] = decide (12 ≤ j.val) := by decide
  apply BitVec.eq_of_getElem_eq
  intro i hi
  have hm : (0xFFFFF000#32)[i] = decide (12 ≤ i) := mask ⟨i, hi⟩
  unfold immUOf
  rw [BitVec.getElem_and, BitVec.getElem_append, hm]
  by_cases h : i < 12
  · simp [h, show ¬ 12 ≤ i by omega]
  · have e : 12 + (i - 12) = i := by omega
    simp [h, show 12 ≤ i by omega, e, BitVec.getLsbD_eq_getElem hi]

@[simp] theorem opcodeOf_encR (f7 : BitVec 7) (rs2 : RegIdx) (rs1 : RegIdx) (f3 : BitVec 3) (rd : RegIdx) (opc : BitVec 7) :
    opcodeOf (encR f7 rs2 rs1 f3 rd opc) = opc := by
  apply BitVec.eq_of_toNat_eq
  simp only [opcodeOf, encR, append_toNat, extract_toNat]
  have := f7.isLt; have := rs2.isLt; have := rs1.isLt; have := f3.isLt; have := rd.isLt; have := opc.isLt
  omega

@[simp] theorem rdOf_encR (f7 : BitVec 7) (rs2 : RegIdx) (rs1 : RegIdx) (f3 : BitVec 3) (rd : RegIdx) (opc : BitVec 7) :
    rdOf (encR f7 rs2 rs1 f3 rd opc) = rd := by
  apply BitVec.eq_of_toNat_eq
  simp only [rdOf, encR, append_toNat, extract_toNat]
  have := f7.isLt; have := rs2.isLt; have := rs1.isLt; have := f3.isLt; have := rd.isLt; have := opc.isLt
  omega

@[simp] theorem funct3Of_encR (f7 : BitVec 7) (rs2 : RegIdx) (rs1 : RegIdx) (f3 : BitVec 3) (rd : RegIdx) (opc : BitVec 7) :
    funct3Of (encR f7 rs2 rs1 f3 rd opc) = f3 := by
  apply BitVec.eq_of_toNat_eq
  simp only [funct3Of, encR, append_toNat, extract_toNat]
  have := f7.isLt; have := rs2.isLt; have := rs1.isLt; have := f3.isLt; have := rd.isLt; have := opc.isLt
  omega

@[simp] theorem rs1Of_encR (f7 : BitVec 7) (rs2 : RegIdx) (rs1 : RegIdx) (f3 : BitVec 3) (rd : RegIdx) (opc : BitVec 7) :
    rs1Of (encR f7 rs2 rs1 f3 rd opc) = rs1 := by
  apply BitVec.eq_of_toNat_eq
  simp only [rs1Of, encR, append_toNat, extract_toNat]
  have := f7.isLt; have := rs2.isLt; have := rs1.isLt; have := f3.isLt; have := rd.isLt; have := opc.isLt
  omega

@[simp] theorem rs2Of_encR (f7 : BitVec 7) (rs2 : RegIdx) (rs1 : RegIdx) (f3 : BitVec 3) (rd : RegIdx) (opc : BitVec 7) :
    rs2Of (encR f7 rs2 rs1 f3 rd opc) = rs2 := by
  apply BitVec.eq_of_toNat_eq
  simp only [rs2Of, encR, append_toNat, extract_toNat]
  have := f7.isLt; have := rs2.isLt; have := rs1.isLt; have := f3.isLt; have := rd.isLt; have := opc.isLt
  omega

@[simp] theorem shamt5Of_encR (f7 : BitVec 7) (rs2 : RegIdx) (rs1 : RegIdx) (f3 : BitVec 3) (rd : RegIdx) (opc : BitVec 7) :
    shamt5Of (encR f7 rs2 rs1 f3 rd opc) = rs2 := by
  apply BitVec.eq_of_toNat_eq
  simp only [shamt5Of, encR, append_toNat, extract_toNat]
  have := f7.isLt; have := rs2.isLt; have := rs1.isLt; have := f3.isLt; have := rd.isLt; have := opc.isLt
  omega

@[simp] theorem funct7Of_encR (f7 : BitVec 7) (rs2 : RegIdx) (rs1 : RegIdx) (f3 : BitVec 3) (rd : RegIdx) (opc : BitVec 7) :
    funct7Of (encR f7 rs2 rs1 f3 rd opc) = f7 := by
  apply BitVec.eq_of_toNat_eq
  simp only [funct7Of, encR, append_toNat, extract_toNat]
  have := f7.isLt; have := rs2.isLt; have := rs1.isLt; have := f3.isLt; have := rd.isLt; have := opc.isLt
  omega

@[simp] theorem keyOf_encR (f7 : BitVec 7) (rs2 : RegIdx) (rs1 : RegIdx) (f3 : BitVec 3) (rd : RegIdx) (opc : BitVec 7) :
    keyOf (encR f7 rs2 rs1 f3 rd opc) = f7 ++ f3 := by
  apply BitVec.eq_of_toNat_eq
  simp only [keyOf, funct7Of, funct3Of, encR, append_toNat, extract_toNat]
  have := f7.isLt; have := rs2.isLt; have := rs1.isLt; have := f3.isLt; have := rd.isLt; have := opc.isLt
  omega

@[simp] theorem opcodeOf_encI (imm : BitVec 12) (rs1 : RegIdx) (f3 : BitVec 3) (rd : RegIdx) (opc : BitVec 7) :
    opcodeOf (encI imm rs1 f3 rd opc) = opc := by
  apply BitVec.eq_of_toNat_eq
  simp only [opcodeOf, encI, append_toNat, extract_toNat]
  have := imm.isLt; have := rs1.isLt; have := f3.isLt; have := rd.isLt; have := opc.isLt
  omega

@[simp] theorem rdOf_encI (imm : BitVec 12) (rs1 : RegIdx) (f3 : BitVec 3) (rd : RegIdx) (opc : BitVec 7) :
    rdOf (encI imm rs1 f3 rd opc) = rd := by
  apply BitVec.eq_of_toNat_eq
  simp only [rdOf, encI, append_toNat, extract_toNat]
  have := imm.isLt; have := rs1.isLt; have := f3.isLt; have := rd.isLt; have := opc.isLt
  omega

@[simp] theorem funct3Of_encI (imm : BitVec 12) (rs1 : RegIdx) (f3 : BitVec 3) (rd : RegIdx) (opc : BitVec 7) :
    funct3Of (encI imm rs1 f3 rd opc) = f3 := by
  apply BitVec.eq_of_toNat_eq
  simp only [funct3Of, encI, append_toNat, extract_toNat]
  have := imm.isLt; have := rs1.isLt; have := f3.isLt; have := rd.isLt; have := opc.isLt
  omega

@[simp] theorem rs1Of_encI (imm : BitVec 12) (rs1 : RegIdx) (f3 : BitVec 3) (rd : RegIdx) (opc : BitVec 7) :
    rs1Of (encI imm rs1 f3 rd opc) = rs1 := by
  apply BitVec.eq_of_toNat_eq
  simp only [rs1Of, encI, append_toNat, extract_toNat]
  have := imm.isLt; have := rs1.isLt; have := f3.isLt; have := rd.isLt; have := opc.isLt
  omega

@[simp] theorem immIOf_encI (imm : BitVec 12) (rs1 : RegIdx) (f3 : BitVec 3) (rd : RegIdx) (opc : BitVec 7) :
    immIOf (encI imm rs1 f3 rd opc) = imm := by
  apply BitVec.eq_of_toNat_eq
  simp only [immIOf, encI, append_toNat, extract_toNat]
  have := imm.isLt; have := rs1.isLt; have := f3.isLt; have := rd.isLt; have := opc.isLt
  omega

@[simp] theorem funct12Of_encI (imm : BitVec 12) (rs1 : RegIdx) (f3 : BitVec 3) (rd : RegIdx) (opc : BitVec 7) :
    funct12Of (encI imm rs1 f3 rd opc) = imm := by
  apply BitVec.eq_of_toNat_eq
  simp only [funct12Of, encI, append_toNat, extract_toNat]
  have := imm.isLt; have := rs1.isLt; have := f3.isLt; have := rd.isLt; have := opc.isLt
  omega

@[simp] theorem opcodeOf_encShift64 (f6 : BitVec 6) (shamt : BitVec 6) (rs1 : RegIdx) (f3 : BitVec 3) (rd : RegIdx) (opc : BitVec 7) :
    opcodeOf (encShift64 f6 shamt rs1 f3 rd opc) = opc := by
  apply BitVec.eq_of_toNat_eq
  simp only [opcodeOf, encShift64, append_toNat, extract_toNat]
  have := f6.isLt; have := shamt.isLt; have := rs1.isLt; have := f3.isLt; have := rd.isLt; have := opc.isLt
  omega

@[simp] theorem rdOf_encShift64 (f6 : BitVec 6) (shamt : BitVec 6) (rs1 : RegIdx) (f3 : BitVec 3) (rd : RegIdx) (opc : BitVec 7) :
    rdOf (encShift64 f6 shamt rs1 f3 rd opc) = rd := by
  apply BitVec.eq_of_toNat_eq
  simp only [rdOf, encShift64, append_toNat, extract_toNat]
  have := f6.isLt; have := shamt.isLt; have := rs1.isLt; have := f3.isLt; have := rd.isLt; have := opc.isLt
  omega

@[simp] theorem funct3Of_encShift64 (f6 : BitVec 6) (shamt : BitVec 6) (rs1 : RegIdx) (f3 : BitVec 3) (rd : RegIdx) (opc : BitVec 7) :
    funct3Of (encShift64 f6 shamt rs1 f3 rd opc) = f3 := by
  apply BitVec.eq_of_toNat_eq
  simp only [funct3Of, encShift64, append_toNat, extract_toNat]
  have := f6.isLt; have := shamt.isLt; have := rs1.isLt; have := f3.isLt; have := rd.isLt; have := opc.isLt
  omega

@[simp] theorem rs1Of_encShift64 (f6 : BitVec 6) (shamt : BitVec 6) (rs1 : RegIdx) (f3 : BitVec 3) (rd : RegIdx) (opc : BitVec 7) :
    rs1Of (encShift64 f6 shamt rs1 f3 rd opc) = rs1 := by
  apply BitVec.eq_of_toNat_eq
  simp only [rs1Of, encShift64, append_toNat, extract_toNat]
  have := f6.isLt; have := shamt.isLt; have := rs1.isLt; have := f3.isLt; have := rd.isLt; have := opc.isLt
  omega

@[simp] theorem shamt6Of_encShift64 (f6 : BitVec 6) (shamt : BitVec 6) (rs1 : RegIdx) (f3 : BitVec 3) (rd : RegIdx) (opc : BitVec 7) :
    shamt6Of (encShift64 f6 shamt rs1 f3 rd opc) = shamt := by
  apply BitVec.eq_of_toNat_eq
  simp only [shamt6Of, encShift64, append_toNat, extract_toNat]
  have := f6.isLt; have := shamt.isLt; have := rs1.isLt; have := f3.isLt; have := rd.isLt; have := opc.isLt
  omega

@[simp] theorem funct6Of_encShift64 (f6 : BitVec 6) (shamt : BitVec 6) (rs1 : RegIdx) (f3 : BitVec 3) (rd : RegIdx) (opc : BitVec 7) :
    funct6Of (encShift64 f6 shamt rs1 f3 rd opc) = f6 := by
  apply BitVec.eq_of_toNat_eq
  simp only [funct6Of, encShift64, append_toNat, extract_toNat]
  have := f6.isLt; have := shamt.isLt; have := rs1.isLt; have := f3.isLt; have := rd.isLt; have := opc.isLt
  omega

@[simp] theorem opcodeOf_encS (imm : BitVec 12) (rs2 : RegIdx) (rs1 : RegIdx) (f3 : BitVec 3) (opc : BitVec 7) :
    opcodeOf (encS imm rs2 rs1 f3 opc) = opc := by
  unfold encS
  generalize imm.extractLsb' 5 7 = p0
  generalize imm.extractLsb' 0 5 = p1
  apply BitVec.eq_of_toNat_eq
  simp only [opcodeOf, append_toNat, extract_toNat]
  have := p0.isLt; have := p1.isLt; have := rs2.isLt; have := rs1.isLt; have := f3.isLt; have := opc.isLt
  omega

@[simp] theorem funct3Of_encS (imm : BitVec 12) (rs2 : RegIdx) (rs1 : RegIdx) (f3 : BitVec 3) (opc : BitVec 7) :
    funct3Of (encS imm rs2 rs1 f3 opc) = f3 := by
  unfold encS
  generalize imm.extractLsb' 5 7 = p0
  generalize imm.extractLsb' 0 5 = p1
  apply BitVec.eq_of_toNat_eq
  simp only [funct3Of, append_toNat, extract_toNat]
  have := p0.isLt; have := p1.isLt; have := rs2.isLt; have := rs1.isLt; have := f3.isLt; have := opc.isLt
  omega

@[simp] theorem rs1Of_encS (imm : BitVec 12) (rs2 : RegIdx) (rs1 : RegIdx) (f3 : BitVec 3) (opc : BitVec 7) :
    rs1Of (encS imm rs2 rs1 f3 opc) = rs1 := by
  unfold encS
  generalize imm.extractLsb' 5 7 = p0
  generalize imm.extractLsb' 0 5 = p1
  apply BitVec.eq_of_toNat_eq
  simp only [rs1Of, append_toNat, extract_toNat]
  have := p0.isLt; have := p1.isLt; have := rs2.isLt; have := rs1.isLt; have := f3.isLt; have := opc.isLt
  omega

@[simp] theorem rs2Of_encS (imm : BitVec 12) (rs2 : RegIdx) (rs1 : RegIdx) (f3 : BitVec 3) (opc : BitVec 7) :
    rs2Of (encS imm rs2 rs1 f3 opc) = rs2 := by
  unfold encS
  generalize imm.extractLsb' 5 7 = p0
  generalize imm.extractLsb' 0 5 = p1
  apply BitVec.eq_of_toNat_eq
  simp only [rs2Of, append_toNat, extract_toNat]
  have := p0.isLt; have := p1.isLt; have := rs2.isLt; have := rs1.isLt; have := f3.isLt; have := opc.isLt
  omega

@[simp] theorem immSOf_encS (imm : BitVec 12) (rs2 : RegIdx) (rs1 : RegIdx) (f3 : BitVec 3) (opc : BitVec 7) :
    immSOf (encS imm rs2 rs1 f3 opc) = imm := by
  have e0 : (encS imm rs2 rs1 f3 opc).extractLsb' 25 7 = imm.extractLsb' 5 7 := by
    unfold encS
    generalize imm.extractLsb' 5 7 = p0
    generalize imm.extractLsb' 0 5 = p1
    apply BitVec.eq_of_toNat_eq
    simp only [append_toNat, extract_toNat]
    have := p0.isLt; have := p1.isLt; have := rs2.isLt; have := rs1.isLt; have := f3.isLt; have := opc.isLt
    omega
  have e1 : (encS imm rs2 rs1 f3 opc).extractLsb' 7 5 = imm.extractLsb' 0 5 := by
    unfold encS
    generalize imm.extractLsb' 5 7 = p0
    generalize imm.extractLsb' 0 5 = p1
    apply BitVec.eq_of_toNat_eq
    simp only [append_toNat, extract_toNat]
    have := p0.isLt; have := p1.isLt; have := rs2.isLt; have := rs1.isLt; have := f3.isLt; have := opc.isLt
    omega
  rw [immSOf, e0, e1]
  apply BitVec.eq_of_toNat_eq
  simp only [append_toNat, extract_toNat]
  have := imm.isLt
  omega

@[simp] theorem opcodeOf_encB (imm : BitVec 13) (rs2 : RegIdx) (rs1 : RegIdx) (f3 : BitVec 3) (opc : BitVec 7) :
    opcodeOf (encB imm rs2 rs1 f3 opc) = opc := by
  unfold encB
  generalize imm.extractLsb' 12 1 = p0
  generalize imm.extractLsb' 5 6 = p1
  generalize imm.extractLsb' 1 4 = p2
  generalize imm.extractLsb' 11 1 = p3
  apply BitVec.eq_of_toNat_eq
  simp only [opcodeOf, append_toNat, extract_toNat]
  have := p0.isLt; have := p1.isLt; have := p2.isLt; have := p3.isLt; have := rs2.isLt; have := rs1.isLt; have := f3.isLt; have := opc.isLt
  omega

@[simp] theorem funct3Of_encB (imm : BitVec 13) (rs2 : RegIdx) (rs1 : RegIdx) (f3 : BitVec 3) (opc : BitVec 7) :
    funct3Of (encB imm rs2 rs1 f3 opc) = f3 := by
  unfold encB
  generalize imm.extractLsb' 12 1 = p0
  generalize imm.extractLsb' 5 6 = p1
  generalize imm.extractLsb' 1 4 = p2
  generalize imm.extractLsb' 11 1 = p3
  apply BitVec.eq_of_toNat_eq
  simp only [funct3Of, append_toNat, extract_toNat]
  have := p0.isLt; have := p1.isLt; have := p2.isLt; have := p3.isLt; have := rs2.isLt; have := rs1.isLt; have := f3.isLt; have := opc.isLt
  omega

@[simp] theorem rs1Of_encB (imm : BitVec 13) (rs2 : RegIdx) (rs1 : RegIdx) (f3 : BitVec 3) (opc : BitVec 7) :
    rs1Of (encB imm rs2 rs1 f3 opc) = rs1 := by
  unfold encB
  generalize imm.extractLsb' 12 1 = p0
  generalize imm.extractLsb' 5 6 = p1
  generalize imm.extractLsb' 1 4 = p2
  generalize imm.extractLsb' 11 1 = p3
  apply BitVec.eq_of_toNat_eq
  simp only [rs1Of, append_toNat, extract_toNat]
  have := p0.isLt; have := p1.isLt; have := p2.isLt; have := p3.isLt; have := rs2.isLt; have := rs1.isLt; have := f3.isLt; have := opc.isLt
  omega

@[simp] theorem rs2Of_encB (imm : BitVec 13) (rs2 : RegIdx) (rs1 : RegIdx) (f3 : BitVec 3) (opc : BitVec 7) :
    rs2Of (encB imm rs2 rs1 f3 opc) = rs2 := by
  unfold encB
  generalize imm.extractLsb' 12 1 = p0
  generalize imm.extractLsb' 5 6 = p1
  generalize imm.extractLsb' 1 4 = p2
  generalize imm.extractLsb' 11 1 = p3
  apply BitVec.eq_of_toNat_eq
  simp only [rs2Of, append_toNat, extract_toNat]
  have := p0.isLt; have := p1.isLt; have := p2.isLt; have := p3.isLt; have := rs2.isLt; have := rs1.isLt; have := f3.isLt; have := opc.isLt
  omega

theorem immBOf_encB (imm : BitVec 13) (rs2 : RegIdx) (rs1 : RegIdx) (f3 : BitVec 3) (opc : BitVec 7) (h : imm.getLsbD 0 = false) :
    immBOf (encB imm rs2 rs1 f3 opc) = imm := by
  have h0 : imm.toNat % 2 = 0 := by
    have := BitVec.getLsbD_eq_getElem (x := imm) (i := 0) (by omega)
    rw [this, BitVec.getElem_eq_testBit_toNat, Nat.testBit_zero] at h
    simpa using h
  have e0 : (encB imm rs2 rs1 f3 opc).extractLsb' 31 1 = imm.extractLsb' 12 1 := by
    unfold encB
    generalize imm.extractLsb' 12 1 = p0
    generalize imm.extractLsb' 5 6 = p1
    generalize imm.extractLsb' 1 4 = p2
    generalize imm.extractLsb' 11 1 = p3
    generalize rs2 = p4
    generalize rs1 = p5
    generalize f3 = p6
    generalize opc = p7
    apply BitVec.eq_of_toNat_eq
    simp only [append_toNat, extract_toNat]
    have := p0.isLt; have := p1.isLt; have := p2.isLt; have := p3.isLt; have := p4.isLt; have := p5.isLt; have := p6.isLt; have := p7.isLt
    omega
  have e1 : (encB imm rs2 rs1 f3 opc).extractLsb' 7 1 = imm.extractLsb' 11 1 := by
    unfold encB
    generalize imm.extractLsb' 12 1 = p0
    generalize imm.extractLsb' 5 6 = p1
    generalize imm.extractLsb' 1 4 = p2
    generalize imm.extractLsb' 11 1 = p3
    generalize rs2 = p4
    generalize rs1 = p5
    generalize f3 = p6
    generalize opc = p7
    apply BitVec.eq_of_toNat_eq
    simp only [append_toNat, extract_toNat]
    have := p0.isLt; have := p1.isLt; have := p2.isLt; have := p3.isLt; have := p4.isLt; have := p5.isLt; have := p6.isLt; have := p7.isLt
    omega
  have e2 : (encB imm rs2 rs1 f3 opc).extractLsb' 25 6 = imm.extractLsb' 5 6 := by
    unfold encB
    generalize imm.extractLsb' 12 1 = p0
    generalize imm.extractLsb' 5 6 = p1
    generalize imm.extractLsb' 1 4 = p2
    generalize imm.extractLsb' 11 1 = p3
    generalize rs2 = p4
    generalize rs1 = p5
    generalize f3 = p6
    generalize opc = p7
    apply BitVec.eq_of_toNat_eq
    simp only [append_toNat, extract_toNat]
    have := p0.isLt; have := p1.isLt; have := p2.isLt; have := p3.isLt; have := p4.isLt; have := p5.isLt; have := p6.isLt; have := p7.isLt
    omega
  have e3 : (encB imm rs2 rs1 f3 opc).extractLsb' 8 4 = imm.extractLsb' 1 4 := by
    unfold encB
    generalize imm.extractLsb' 12 1 = p0
    generalize imm.extractLsb' 5 6 = p1
    generalize imm.extractLsb' 1 4 = p2
    generalize imm.extractLsb' 11 1 = p3
    generalize rs2 = p4
    generalize rs1 = p5
    generalize f3 = p6
    generalize opc = p7
    apply BitVec.eq_of_toNat_eq
    simp only [append_toNat, extract_toNat]
    have := p0.isLt; have := p1.isLt; have := p2.isLt; have := p3.isLt; have := p4.isLt; have := p5.isLt; have := p6.isLt; have := p7.isLt
    omega
  rw [immBOf, e0, e1, e2, e3]
  apply BitVec.eq_of_toNat_eq
  simp only [append_toNat, extract_toNat, BitVec.toNat_ofNat]
  have := imm.isLt
  omega

@[simp] theorem opcodeOf_encU (imm : BitVec 32) (rd : RegIdx) (opc : BitVec 7) :
    opcodeOf (encU imm rd opc) = opc := by
  unfold encU
  generalize imm.extractLsb' 12 20 = p0
  apply BitVec.eq_of_toNat_eq
  simp only [opcodeOf, append_toNat, extract_toNat]
  have := p0.isLt; have := rd.isLt; have := opc.isLt
  omega

@[simp] theorem rdOf_encU (imm : BitVec 32) (rd : RegIdx) (opc : BitVec 7) :
    rdOf (encU imm rd opc) = rd := by
  unfold encU
  generalize imm.extractLsb' 12 20 = p0
  apply BitVec.eq_of_toNat_eq
  simp only [rdOf, append_toNat, extract_toNat]
  have := p0.isLt; have := rd.isLt; have := opc.isLt
  omega

theorem immUOf_encU (imm : BitVec 32) (rd : RegIdx) (opc : BitVec 7) (h : imm.setWidth 12 = 0#12) :
    immUOf (encU imm rd opc) = imm := by
  have h0 : imm.toNat % 4096 = 0 := by
    have := congrArg BitVec.toNat h
    simpa using this
  rw [immUOf_eq]
  apply BitVec.eq_of_toNat_eq
  simp only [encU, append_toNat, extract_toNat, BitVec.toNat_ofNat]
  have := imm.isLt; have := rd.isLt; have := opc.isLt
  omega

@[simp] theorem opcodeOf_encJ (imm : BitVec 21) (rd : RegIdx) (opc : BitVec 7) :
    opcodeOf (encJ imm rd opc) = opc := by
  unfold encJ
  generalize imm.extractLsb' 20 1 = p0
  generalize imm.extractLsb' 1 10 = p1
  generalize imm.extractLsb' 11 1 = p2
  generalize imm.extractLsb' 12 8 = p3
  apply BitVec.eq_of_toNat_eq
  simp only [opcodeOf, append_toNat, extract_toNat]
  have := p0.isLt; have := p1.isLt; have := p2.isLt; have := p3.isLt; have := rd.isLt; have := opc.isLt
  omega

@[simp] theorem rdOf_encJ (imm : BitVec 21) (rd : RegIdx) (opc : BitVec 7) :
    rdOf (encJ imm rd opc) = rd := by
  unfold encJ
  generalize imm.extractLsb' 20 1 = p0
  generalize imm.extractLsb' 1 10 = p1
  generalize imm.extractLsb' 11 1 = p2
  generalize imm.extractLsb' 12 8 = p3
  apply BitVec.eq_of_toNat_eq
  simp only [rdOf, append_toNat, extract_toNat]
  have := p0.isLt; have := p1.isLt; have := p2.isLt; have := p3.isLt; have := rd.isLt; have := opc.isLt
  omega

theorem immJOf_encJ (imm : BitVec 21) (rd : RegIdx) (opc : BitVec 7) (h : imm.getLsbD 0 = false) :
    immJOf (encJ imm rd opc) = imm := by
  have h0 : imm.toNat % 2 = 0 := by
    have := BitVec.getLsbD_eq_getElem (x := imm) (i := 0) (by omega)
    rw [this, BitVec.getElem_eq_testBit_toNat, Nat.testBit_zero] at h
    simpa using h
  have e0 : (encJ imm rd opc).extractLsb' 31 1 = imm.extractLsb' 20 1 := by
    unfold encJ
    generalize imm.extractLsb' 20 1 = p0
    generalize imm.extractLsb' 1 10 = p1
    generalize imm.extractLsb' 11 1 = p2
    generalize imm.extractLsb' 12 8 = p3
    generalize rd = p4
    generalize opc = p5
    apply BitVec.eq_of_toNat_eq
    simp only [append_toNat, extract_toNat]
    have := p0.isLt; have := p1.isLt; have := p2.isLt; have := p3.isLt; have := p4.isLt; have := p5.isLt
    omega
  have e1 : (encJ imm rd opc).extractLsb' 12 8 = imm.extractLsb' 12 8 := by
    unfold encJ
    generalize imm.extractLsb' 20 1 = p0
    generalize imm.extractLsb' 1 10 = p1
    generalize imm.extractLsb' 11 1 = p2
    generalize imm.extractLsb' 12 8 = p3
    generalize rd = p4
    generalize opc = p5
    apply BitVec.eq_of_toNat_eq
    simp only [append_toNat, extract_toNat]
    have := p0.isLt; have := p1.isLt; have := p2.isLt; have := p3.isLt; have := p4.isLt; have := p5.isLt
    omega
  have e2 : (encJ imm rd opc).extractLsb' 20 1 = imm.extractLsb' 11 1 := by
    unfold encJ
    generalize imm.extractLsb' 20 1 = p0
    generalize imm.extractLsb' 1 10 = p1
    generalize imm.extractLsb' 11 1 = p2
    generalize imm.extractLsb' 12 8 = p3
    generalize rd = p4
    generalize opc = p5
    apply BitVec.eq_of_toNat_eq
    simp only [append_toNat, extract_toNat]
    have := p0.isLt; have := p1.isLt; have := p2.isLt; have := p3.isLt; have := p4.isLt; have := p5.isLt
    omega
  have e3 : (encJ imm rd opc).extractLsb' 21 10 = imm.extractLsb' 1 10 := by
    unfold encJ
    generalize imm.extractLsb' 20 1 = p0
    generalize imm.extractLsb' 1 10 = p1
    generalize imm.extractLsb' 11 1 = p2
    generalize imm.extractLsb' 12 8 = p3
    generalize rd = p4
    generalize opc = p5
    apply BitVec.eq_of_toNat_eq
    simp only [append_toNat, extract_toNat]
    have := p0.isLt; have := p1.isLt; have := p2.isLt; have := p3.isLt; have := p4.isLt; have := p5.isLt
    omega
  rw [immJOf, e0, e1, e2, e3]
  apply BitVec.eq_of_toNat_eq
  simp only [append_toNat, extract_toNat, BitVec.toNat_ofNat]
  have := imm.isLt
  omega

/-! ## A word is its format's encoder at its own fields -/

theorem encR_fields (w : InstWord) :
    encR (funct7Of w) (rs2Of w) (rs1Of w) (funct3Of w) (rdOf w) (opcodeOf w) = w := by
  apply BitVec.eq_of_toNat_eq
  simp only [encR, funct7Of, rs2Of, rs1Of, funct3Of, rdOf, opcodeOf, append_toNat, extract_toNat]
  have := w.isLt
  omega

theorem encI_fields (w : InstWord) :
    encI (immIOf w) (rs1Of w) (funct3Of w) (rdOf w) (opcodeOf w) = w := by
  apply BitVec.eq_of_toNat_eq
  simp only [encI, immIOf, rs1Of, funct3Of, rdOf, opcodeOf, append_toNat, extract_toNat]
  have := w.isLt
  omega

theorem encShift64_fields (w : InstWord) :
    encShift64 (funct6Of w) (shamt6Of w) (rs1Of w) (funct3Of w) (rdOf w) (opcodeOf w) = w := by
  apply BitVec.eq_of_toNat_eq
  simp only [encShift64, funct6Of, shamt6Of, rs1Of, funct3Of, rdOf, opcodeOf, append_toNat, extract_toNat]
  have := w.isLt
  omega

theorem encS_fields (w : InstWord) :
    encS (immSOf w) (rs2Of w) (rs1Of w) (funct3Of w) (opcodeOf w) = w := by
  apply BitVec.eq_of_toNat_eq
  simp only [encS, immSOf, rs2Of, rs1Of, funct3Of, opcodeOf, append_toNat, extract_toNat]
  have := w.isLt
  omega

theorem encB_fields (w : InstWord) :
    encB (immBOf w) (rs2Of w) (rs1Of w) (funct3Of w) (opcodeOf w) = w := by
  have e0 : (immBOf w).extractLsb' 12 1 = w.extractLsb' 31 1 := by
    unfold immBOf
    generalize w.extractLsb' 31 1 = p0
    generalize w.extractLsb' 7 1 = p1
    generalize w.extractLsb' 25 6 = p2
    generalize w.extractLsb' 8 4 = p3
    apply BitVec.eq_of_toNat_eq
    simp only [append_toNat, extract_toNat, BitVec.toNat_ofNat]
    have := p0.isLt; have := p1.isLt; have := p2.isLt; have := p3.isLt
    omega
  have e1 : (immBOf w).extractLsb' 5 6 = w.extractLsb' 25 6 := by
    unfold immBOf
    generalize w.extractLsb' 31 1 = p0
    generalize w.extractLsb' 7 1 = p1
    generalize w.extractLsb' 25 6 = p2
    generalize w.extractLsb' 8 4 = p3
    apply BitVec.eq_of_toNat_eq
    simp only [append_toNat, extract_toNat, BitVec.toNat_ofNat]
    have := p0.isLt; have := p1.isLt; have := p2.isLt; have := p3.isLt
    omega
  have e2 : (immBOf w).extractLsb' 1 4 = w.extractLsb' 8 4 := by
    unfold immBOf
    generalize w.extractLsb' 31 1 = p0
    generalize w.extractLsb' 7 1 = p1
    generalize w.extractLsb' 25 6 = p2
    generalize w.extractLsb' 8 4 = p3
    apply BitVec.eq_of_toNat_eq
    simp only [append_toNat, extract_toNat, BitVec.toNat_ofNat]
    have := p0.isLt; have := p1.isLt; have := p2.isLt; have := p3.isLt
    omega
  have e3 : (immBOf w).extractLsb' 11 1 = w.extractLsb' 7 1 := by
    unfold immBOf
    generalize w.extractLsb' 31 1 = p0
    generalize w.extractLsb' 7 1 = p1
    generalize w.extractLsb' 25 6 = p2
    generalize w.extractLsb' 8 4 = p3
    apply BitVec.eq_of_toNat_eq
    simp only [append_toNat, extract_toNat, BitVec.toNat_ofNat]
    have := p0.isLt; have := p1.isLt; have := p2.isLt; have := p3.isLt
    omega
  rw [encB, e0, e1, e2, e3]
  apply BitVec.eq_of_toNat_eq
  simp only [rs2Of, rs1Of, funct3Of, opcodeOf, append_toNat, extract_toNat]
  have := w.isLt
  omega

theorem encU_fields (w : InstWord) :
    encU (immUOf w) (rdOf w) (opcodeOf w) = w := by
  rw [immUOf_eq]
  apply BitVec.eq_of_toNat_eq
  simp only [encU, rdOf, opcodeOf, append_toNat, extract_toNat]
  have := w.isLt
  omega

theorem encJ_fields (w : InstWord) :
    encJ (immJOf w) (rdOf w) (opcodeOf w) = w := by
  have e0 : (immJOf w).extractLsb' 20 1 = w.extractLsb' 31 1 := by
    unfold immJOf
    generalize w.extractLsb' 31 1 = p0
    generalize w.extractLsb' 12 8 = p1
    generalize w.extractLsb' 20 1 = p2
    generalize w.extractLsb' 21 10 = p3
    apply BitVec.eq_of_toNat_eq
    simp only [append_toNat, extract_toNat, BitVec.toNat_ofNat]
    have := p0.isLt; have := p1.isLt; have := p2.isLt; have := p3.isLt
    omega
  have e1 : (immJOf w).extractLsb' 1 10 = w.extractLsb' 21 10 := by
    unfold immJOf
    generalize w.extractLsb' 31 1 = p0
    generalize w.extractLsb' 12 8 = p1
    generalize w.extractLsb' 20 1 = p2
    generalize w.extractLsb' 21 10 = p3
    apply BitVec.eq_of_toNat_eq
    simp only [append_toNat, extract_toNat, BitVec.toNat_ofNat]
    have := p0.isLt; have := p1.isLt; have := p2.isLt; have := p3.isLt
    omega
  have e2 : (immJOf w).extractLsb' 11 1 = w.extractLsb' 20 1 := by
    unfold immJOf
    generalize w.extractLsb' 31 1 = p0
    generalize w.extractLsb' 12 8 = p1
    generalize w.extractLsb' 20 1 = p2
    generalize w.extractLsb' 21 10 = p3
    apply BitVec.eq_of_toNat_eq
    simp only [append_toNat, extract_toNat, BitVec.toNat_ofNat]
    have := p0.isLt; have := p1.isLt; have := p2.isLt; have := p3.isLt
    omega
  have e3 : (immJOf w).extractLsb' 12 8 = w.extractLsb' 12 8 := by
    unfold immJOf
    generalize w.extractLsb' 31 1 = p0
    generalize w.extractLsb' 12 8 = p1
    generalize w.extractLsb' 20 1 = p2
    generalize w.extractLsb' 21 10 = p3
    apply BitVec.eq_of_toNat_eq
    simp only [append_toNat, extract_toNat, BitVec.toNat_ofNat]
    have := p0.isLt; have := p1.isLt; have := p2.isLt; have := p3.isLt
    omega
  rw [encJ, e0, e1, e2, e3]
  apply BitVec.eq_of_toNat_eq
  simp only [rdOf, opcodeOf, append_toNat, extract_toNat]
  have := w.isLt
  omega

/-! ## The decoded immediates are well-formed -/

theorem immBOf_even (w : InstWord) : (immBOf w).getLsbD 0 = false := by
  unfold immBOf
  rw [BitVec.getLsbD_append]
  simp

theorem immJOf_even (w : InstWord) : (immJOf w).getLsbD 0 = false := by
  unfold immJOf
  rw [BitVec.getLsbD_append]
  simp

theorem immUOf_upper (w : InstWord) : (immUOf w).setWidth 12 = 0#12 := by
  apply BitVec.eq_of_toNat_eq
  rw [immUOf_eq]
  simp only [BitVec.toNat_setWidth, append_toNat, extract_toNat]
  omega

end Sys2Proof
end

