-- ==== Sys2Proof/Laws/Memory.lean ====
section
/-! SUPPORT. The laws of the arena and of the syscall table: read after write, the rest unchanged, little-endian sums,
and that every operation keeps the canonical form (`20_memory.md` R62, R63, R67). -/

namespace Sys2Proof.Machine

/-! ## One byte -/

theorem Memory.readByte_erase (m : Memory) (a b : Nat) :
    (m.erase a).readByte b = if b = a then Memory.unlisted else m.readByte b := by
  induction m with
  | nil => simp [Memory.erase, Memory.readByte]
  | cons c m ih =>
    obtain ⟨k, u⟩ := c
    unfold Memory.erase at ih ⊢
    by_cases hk : k = a
    · subst hk
      simp only [List.filter_cons, ne_eq, not_true, decide_false, Bool.false_eq_true, if_false, ih, Memory.readByte]
      split_ifs <;> simp_all
    · simp only [List.filter_cons, ne_eq, hk, not_false_eq_true, decide_true, if_true, Memory.readByte, ih]
      split_ifs <;> simp_all

theorem Memory.readByte_insert (m : Memory) (a b : Nat) (v : Byte) :
    (Memory.insert a v (m.erase a)).readByte b = if b = a then v else m.readByte b := by
  have key : ∀ l : Memory, (∀ c ∈ l, c.1 ≠ a) →
      (Memory.insert a v l).readByte b = if b = a then v else l.readByte b := by
    intro l hl
    induction l with
    | nil => simp only [Memory.insert, Memory.readByte]; split_ifs <;> first | rfl | (exfalso; omega)
    | cons c l ih =>
      obtain ⟨k, u⟩ := c
      have hk : k ≠ a := hl (k, u) (by simp)
      have ih := ih fun c hc => hl c (by simp [hc])
      simp only [Memory.insert]
      split
      · simp only [Memory.readByte, ih]; split_ifs <;> first | rfl | (exfalso; omega)
      · simp only [Memory.readByte]; split_ifs <;> first | rfl | (exfalso; omega)
  rw [key, Memory.readByte_erase]
  · split_ifs <;> rfl
  · intro c hc; simp [Memory.erase] at hc; exact hc.2

/-- A write of one byte: that byte, and no other, reads as written. -/
theorem Memory.readByte_writeByte (m : Memory) (a b : Nat) (v : Byte) :
    (m.writeByte a v).readByte b = if b = a then v else m.readByte b := by
  unfold Memory.writeByte
  split
  · next h => rw [Memory.readByte_erase, h]
  · exact Memory.readByte_insert m a b v

/-! ## Wider accesses -/

/-- What a wide write leaves at each address: byte i of the value at a + i, and every other byte as before (R63). -/
theorem Memory.readByte_writeBytes (n : Nat) (m : Memory) (a b : Nat) (v : Word) :
    (m.writeBytes a n v).readByte b =
      if a ≤ b ∧ b < a + n then (v >>> (8 * (b - a))).setWidth 8 else m.readByte b := by
  induction n generalizing m a v with
  | zero => simp only [Memory.writeBytes]; split_ifs <;> [omega; rfl]
  | succ n ih =>
    simp only [Memory.writeBytes, ih, Memory.readByte_writeByte]
    by_cases hb : b = a
    · subst hb; simp
    · by_cases h : a + 1 ≤ b ∧ b < a + 1 + n
      · rw [if_pos h, if_pos (by omega), ← BitVec.shiftRight_add]
        congr 2; omega
      · rw [if_neg h, if_neg hb, if_neg (by omega)]

/-- What copying leaves at each address (`70_reset_and_hazards.md` R292). -/
theorem Memory.readByte_copy (bs : List Byte) (m : Memory) (a b : Nat) :
    (m.copy a bs).readByte b = if h : a ≤ b ∧ b < a + bs.length then bs[b - a]'(by omega) else m.readByte b := by
  induction bs generalizing m a with
  | nil =>
    have : ¬ (a ≤ b ∧ b < a + ([] : List Byte).length) := by simp only [List.length_nil]; omega
    rw [dif_neg this]; rfl
  | cons x bs ih =>
    simp only [Memory.copy, ih, Memory.readByte_writeByte, List.length_cons]
    by_cases hb : b = a
    · subst hb; simp
    · by_cases h : a + 1 ≤ b ∧ b < a + 1 + bs.length
      · rw [dif_pos h, dif_pos (by omega)]
        have : b - a = (b - (a + 1)) + 1 := by omega
        simp [this]
      · rw [dif_neg h, if_neg hb, dif_neg (by omega)]

/-- The little-endian sum of R62. -/
def Memory.leSum (m : Memory) (a : Nat) : Nat → Nat
  | 0 => 0
  | n + 1 => (m.readByte a).toNat + 256 * Memory.leSum m (a + 1) n

theorem Memory.leSum_lt (n : Nat) (m : Memory) (a : Nat) : m.leSum a n < 2 ^ (8 * n) := by
  induction n generalizing a with
  | zero => simp [Memory.leSum]
  | succ n ih =>
    have h := ih (a + 1)
    have hb := (m.readByte a).isLt
    have e : 2 ^ (8 * (n + 1)) = 256 * 2 ^ (8 * n) := by rw [show 8 * (n + 1) = 8 + 8 * n by ring, pow_add]; norm_num
    simp only [Memory.leSum, e]
    omega

theorem Memory.readBytes_toNat (n : Nat) (hn : n ≤ 8) (m : Memory) (a : Nat) :
    (m.readBytes a n).toNat = m.leSum a n := by
  induction n generalizing a with
  | zero => rfl
  | succ n ih =>
    have h := Memory.leSum_lt n m (a + 1)
    have hp : 2 ^ (8 * n) ≤ 2 ^ 56 := Nat.pow_le_pow_right (by norm_num) (by omega)
    have hb := (m.readByte a).isLt
    have hs : (m.leSum (a + 1) n) <<< 8 % 2 ^ 64 = (m.leSum (a + 1) n) <<< 8 := by
      rw [Nat.shiftLeft_eq]; apply Nat.mod_eq_of_lt; omega
    have hz : (m.readByte a).toNat % 2 ^ 64 = (m.readByte a).toNat := Nat.mod_eq_of_lt (by omega)
    simp only [Memory.readBytes, Memory.leSum, BitVec.toNat_or, BitVec.toNat_setWidth, BitVec.toNat_shiftLeft,
      ih (by omega), hs, hz]
    rw [Nat.or_comm, ← Nat.shiftLeft_add_eq_or_of_lt hb, Nat.shiftLeft_eq]
    omega

/-- A read of the bytes of a value gives its low bytes back (R67). -/
theorem Memory.leSum_writeBytes (n : Nat) (m : Memory) (a : Nat) (v : Word) :
    (m.writeBytes a n v).leSum a n = v.toNat % 2 ^ (8 * n) := by
  have key : ∀ k a' (m' : Memory) (u : Nat), (∀ i, i < k → (m'.readByte (a' + i)).toNat = u / 2 ^ (8 * i) % 256) →
      m'.leSum a' k = u % 2 ^ (8 * k) := by
    intro k
    induction k with
    | zero => intro a' m' u _; simp [Memory.leSum, Nat.mod_one]
    | succ k ih =>
      intro a' m' u h
      have h0 := h 0 (by omega)
      have := ih (a' + 1) m' (u / 256) fun i hi => by
        rw [show a' + 1 + i = a' + (i + 1) by omega, h (i + 1) (by omega), Nat.div_div_eq_div_mul]
        congr 2; rw [show 8 * (i + 1) = 8 + 8 * i by ring, pow_add]; norm_num
      have e : 2 ^ (8 * (k + 1)) = 256 * 2 ^ (8 * k) := by
        rw [show 8 * (k + 1) = 8 + 8 * k by ring, pow_add]; norm_num
      simp only [Nat.mul_zero, pow_zero, Nat.div_one, Nat.add_zero] at h0
      simp only [Memory.leSum, h0, this, e]
      rw [Nat.mod_mul]
  apply key
  intro i hi
  rw [Memory.readByte_writeBytes, if_pos (by omega)]
  simp [Nat.shiftRight_eq_div_pow]

theorem Memory.leSum_congr (n : Nat) {m m' : Memory} {a : Nat}
    (h : ∀ b, a ≤ b → b < a + n → m'.readByte b = m.readByte b) : m'.leSum a n = m.leSum a n := by
  induction n generalizing a with
  | zero => rfl
  | succ n ih =>
    simp only [Memory.leSum, h a le_rfl (by omega)]
    rw [ih fun b h1 h2 => h b (by omega) (by omega)]

/-! ## The canonical form -/

theorem Memory.wfFrom_mono {lo lo' : Nat} (h : lo' ≤ lo) {m : Memory} (hm : Memory.wfFrom lo m = true) :
    Memory.wfFrom lo' m = true := by
  cases m with
  | nil => rfl
  | cons c m => simp only [Memory.wfFrom, Bool.and_eq_true, decide_eq_true_eq] at hm ⊢; exact ⟨⟨⟨by omega, hm.1.1.2⟩, hm.1.2⟩, hm.2⟩

theorem Memory.wfFrom_erase (a : Nat) (m : Memory) (lo : Nat) (hm : Memory.wfFrom lo m = true) :
    Memory.wfFrom lo (m.erase a) = true := by
  induction m generalizing lo with
  | nil => rfl
  | cons c m ih =>
    obtain ⟨k, u⟩ := c
    simp only [Memory.wfFrom, Bool.and_eq_true, decide_eq_true_eq] at hm
    have h := ih (k + 1) hm.2
    unfold Memory.erase at h ⊢
    by_cases hk : k = a
    · simp only [List.filter_cons, hk, ne_eq, not_true, decide_false, Bool.false_eq_true, if_false]
      subst hk
      exact Memory.wfFrom_mono (by omega) h
    · simp only [List.filter_cons, ne_eq, hk, not_false_eq_true, decide_true, if_true, Memory.wfFrom,
        Bool.and_eq_true, decide_eq_true_eq]
      exact ⟨hm.1, h⟩

theorem Memory.wfFrom_insert (a : Nat) (v : Byte) (ha : a < Config.memSize) (hv : v ≠ Memory.unlisted) (m : Memory)
    (lo : Nat) (hlo : lo ≤ a) (hm : Memory.wfFrom lo m = true) (hne : ∀ c ∈ m, c.1 ≠ a) :
    Memory.wfFrom lo (Memory.insert a v m) = true := by
  induction m generalizing lo with
  | nil => simp [Memory.insert, Memory.wfFrom, hlo, ha, hv]
  | cons c m ih =>
    obtain ⟨k, u⟩ := c
    have hk : k ≠ a := hne (k, u) (by simp)
    simp only [Memory.wfFrom, Bool.and_eq_true, decide_eq_true_eq] at hm
    simp only [Memory.insert]
    split
    · simp only [Memory.wfFrom, Bool.and_eq_true, decide_eq_true_eq]
      exact ⟨hm.1, ih (k + 1) (by omega) hm.2 fun c hc => hne c (by simp [hc])⟩
    · simp only [Memory.wfFrom, Bool.and_eq_true, decide_eq_true_eq]
      exact ⟨⟨⟨hlo, ha⟩, hv⟩, ⟨⟨by omega, hm.1.1.2⟩, hm.1.2⟩, hm.2⟩

theorem Memory.wf_writeByte {m : Memory} (hm : m.wf = true) {a : Nat} (ha : a < Config.memSize) (v : Byte) :
    (m.writeByte a v).wf = true := by
  unfold Memory.writeByte
  split
  · exact Memory.wfFrom_erase a m 0 hm
  · next hv =>
    refine Memory.wfFrom_insert a v ha hv _ 0 (by omega) (Memory.wfFrom_erase a m 0 hm) fun c hc => ?_
    simp [Memory.erase] at hc; exact hc.2

theorem Memory.wf_writeBytes (n : Nat) {m : Memory} (hm : m.wf = true) {a : Nat} (ha : a + n ≤ Config.memSize)
    (v : Word) : (m.writeBytes a n v).wf = true := by
  induction n generalizing m a v with
  | zero => exact hm
  | succ n ih => exact ih (Memory.wf_writeByte hm (by omega) _) (by omega) _

theorem Memory.wf_copy (bs : List Byte) {m : Memory} (hm : m.wf = true) {a : Nat}
    (ha : a + bs.length ≤ Config.memSize) : (m.copy a bs).wf = true := by
  induction bs generalizing m a with
  | nil => exact hm
  | cons b bs ih =>
    simp only [List.length_cons] at ha
    exact ih (Memory.wf_writeByte hm (by omega) _) (by omega)

/-! ## The syscall table -/

theorem SyscallTable.find_erase (t : SyscallTable) (c d : Nat) :
    SyscallTable.find (SyscallTable.erase t c) d = if d = c then none else SyscallTable.find t d := by
  induction t with
  | nil => simp [SyscallTable.erase, SyscallTable.find]
  | cons e t ih =>
    obtain ⟨k, g⟩ := e
    unfold SyscallTable.erase at ih ⊢
    by_cases hk : k = c
    · subst hk
      simp only [List.filter_cons, ne_eq, not_true, decide_false, Bool.false_eq_true, if_false, ih, SyscallTable.find]
      split_ifs <;> simp_all
    · simp only [List.filter_cons, ne_eq, hk, not_false_eq_true, decide_true, if_true, SyscallTable.find, ih]
      split_ifs <;> simp_all

/-- `get_system_call` after `set_system_call` (`44_system.md` R237). -/
theorem SyscallTable.find_install (t : SyscallTable) (c d : Nat) (h : HandlerId) :
    SyscallTable.find (SyscallTable.install t c h) d = if d = c then some h else SyscallTable.find t d := by
  have key : ∀ l : SyscallTable, (∀ e ∈ l, e.1 ≠ c) →
      SyscallTable.find (SyscallTable.insert c h l) d = if d = c then some h else SyscallTable.find l d := by
    intro l hl
    induction l with
    | nil => simp only [SyscallTable.insert, SyscallTable.find]; split_ifs <;> first | rfl | (exfalso; omega)
    | cons e l ih =>
      obtain ⟨k, u⟩ := e
      have hk : k ≠ c := hl (k, u) (by simp)
      have ih := ih fun e he => hl e (by simp [he])
      simp only [SyscallTable.insert]
      split
      · simp only [SyscallTable.find, ih]; split_ifs <;> first | rfl | (exfalso; omega)
      · simp only [SyscallTable.find]; split_ifs <;> first | rfl | (exfalso; omega)
  unfold SyscallTable.install
  rw [key, SyscallTable.find_erase]
  · split_ifs <;> rfl
  · intro e he; simp [SyscallTable.erase] at he; exact he.2

theorem SyscallTable.wfFrom_mono {lo lo' : Nat} (h : lo' ≤ lo) {t : SyscallTable}
    (ht : SyscallTable.wfFrom lo t = true) : SyscallTable.wfFrom lo' t = true := by
  cases t with
  | nil => rfl
  | cons e t => simp only [SyscallTable.wfFrom, Bool.and_eq_true, decide_eq_true_eq] at ht ⊢; exact ⟨⟨by omega, ht.1.2⟩, ht.2⟩

theorem SyscallTable.wfFrom_erase (c : Nat) (t : SyscallTable) (lo : Nat) (ht : SyscallTable.wfFrom lo t = true) :
    SyscallTable.wfFrom lo (SyscallTable.erase t c) = true := by
  induction t generalizing lo with
  | nil => rfl
  | cons e t ih =>
    obtain ⟨k, g⟩ := e
    simp only [SyscallTable.wfFrom, Bool.and_eq_true, decide_eq_true_eq] at ht
    have h := ih (k + 1) ht.2
    unfold SyscallTable.erase at h ⊢
    by_cases hk : k = c
    · simp only [List.filter_cons, hk, ne_eq, not_true, decide_false, Bool.false_eq_true, if_false]
      subst hk
      exact SyscallTable.wfFrom_mono (by omega) h
    · simp only [List.filter_cons, ne_eq, hk, not_false_eq_true, decide_true, if_true, SyscallTable.wfFrom,
        Bool.and_eq_true, decide_eq_true_eq]
      exact ⟨ht.1, h⟩

theorem SyscallTable.wfFrom_insert (c : Nat) (h : HandlerId) (hc : c < 2 ^ 64) (t : SyscallTable) (lo : Nat)
    (hlo : lo ≤ c) (ht : SyscallTable.wfFrom lo t = true) (hne : ∀ e ∈ t, e.1 ≠ c) :
    SyscallTable.wfFrom lo (SyscallTable.insert c h t) = true := by
  induction t generalizing lo with
  | nil => simp only [SyscallTable.insert, SyscallTable.wfFrom, hlo, hc, decide_true, Bool.and_self]
  | cons e t ih =>
    obtain ⟨k, g⟩ := e
    have hk : k ≠ c := hne (k, g) (by simp)
    simp only [SyscallTable.wfFrom, Bool.and_eq_true, decide_eq_true_eq] at ht
    simp only [SyscallTable.insert]
    split
    · simp only [SyscallTable.wfFrom, Bool.and_eq_true, decide_eq_true_eq]
      exact ⟨ht.1, ih (k + 1) (by omega) ht.2 fun e he => hne e (by simp [he])⟩
    · simp only [SyscallTable.wfFrom, Bool.and_eq_true, decide_eq_true_eq]
      exact ⟨⟨hlo, hc⟩, ⟨by omega, ht.1.2⟩, ht.2⟩

theorem SyscallTable.wf_install {t : SyscallTable} (ht : SyscallTable.wf t = true) {c : Nat} (hc : c < 2 ^ 64)
    (h : HandlerId) : SyscallTable.wf (SyscallTable.install t c h) = true := by
  refine SyscallTable.wfFrom_insert c h hc _ 0 (by omega) (SyscallTable.wfFrom_erase c t 0 ht) fun e he => ?_
  simp [SyscallTable.erase] at he; exact he.2

end Sys2Proof.Machine
end

