-- ==== Sys2Proof/Laws/OpcodeTable.lean ====
section
/-! SUPPORT. What a word has under each mask of the opcode table, in terms of its fields, and when it is a row's match. -/

namespace Sys2Proof

theorem and_ones7 (v : BitVec 7) : v &&& 0x7F#7 = v := by revert v; decide

theorem and_ones6 (v : BitVec 6) : v &&& 0x3F#6 = v := by revert v; decide

theorem and_ones5 (v : BitVec 5) : v &&& 0x1F#5 = v := by revert v; decide

theorem and_ones3 (v : BitVec 3) : v &&& 7#3 = v := by revert v; decide

theorem and_ones12 (v : BitVec 12) : v &&& 0xFFF#12 = v := BitVec.and_allOnes (x := v)

/-- Two words of one format agree exactly when their fields do. -/
theorem encR_inj {f7 f7' : BitVec 7} {rs2 rs2' rs1 rs1' : RegIdx} {f3 f3' : BitVec 3} {rd rd' : RegIdx}
    {opc opc' : BitVec 7} :
    encR f7 rs2 rs1 f3 rd opc = encR f7' rs2' rs1' f3' rd' opc' ↔
      f7 = f7' ∧ rs2 = rs2' ∧ rs1 = rs1' ∧ f3 = f3' ∧ rd = rd' ∧ opc = opc' := by
  constructor
  · intro h
    exact ⟨by simpa using congrArg funct7Of h, by simpa using congrArg rs2Of h, by simpa using congrArg rs1Of h,
      by simpa using congrArg funct3Of h, by simpa using congrArg rdOf h, by simpa using congrArg opcodeOf h⟩
  · rintro ⟨rfl, rfl, rfl, rfl, rfl, rfl⟩; rfl

theorem encI_inj {imm imm' : BitVec 12} {rs1 rs1' : RegIdx} {f3 f3' : BitVec 3} {rd rd' : RegIdx} {opc opc' : BitVec 7} :
    encI imm rs1 f3 rd opc = encI imm' rs1' f3' rd' opc' ↔
      imm = imm' ∧ rs1 = rs1' ∧ f3 = f3' ∧ rd = rd' ∧ opc = opc' := by
  constructor
  · intro h
    exact ⟨by simpa using congrArg immIOf h, by simpa using congrArg rs1Of h, by simpa using congrArg funct3Of h,
      by simpa using congrArg rdOf h, by simpa using congrArg opcodeOf h⟩
  · rintro ⟨rfl, rfl, rfl, rfl, rfl⟩; rfl

theorem encShift64_inj {f6 f6' shamt shamt' : BitVec 6} {rs1 rs1' : RegIdx} {f3 f3' : BitVec 3} {rd rd' : RegIdx}
    {opc opc' : BitVec 7} :
    encShift64 f6 shamt rs1 f3 rd opc = encShift64 f6' shamt' rs1' f3' rd' opc' ↔
      f6 = f6' ∧ shamt = shamt' ∧ rs1 = rs1' ∧ f3 = f3' ∧ rd = rd' ∧ opc = opc' := by
  constructor
  · intro h
    exact ⟨by simpa using congrArg funct6Of h, by simpa using congrArg shamt6Of h, by simpa using congrArg rs1Of h,
      by simpa using congrArg funct3Of h, by simpa using congrArg rdOf h, by simpa using congrArg opcodeOf h⟩
  · rintro ⟨rfl, rfl, rfl, rfl, rfl, rfl⟩; rfl

/-! ## Each mask keeps the fields it covers -/

theorem encR_and (f7 m7 : BitVec 7) (rs2 m2 rs1 m1 : RegIdx) (f3 m3 : BitVec 3) (rd md : RegIdx) (opc mo : BitVec 7) :
    encR f7 rs2 rs1 f3 rd opc &&& encR m7 m2 m1 m3 md mo =
      encR (f7 &&& m7) (rs2 &&& m2) (rs1 &&& m1) (f3 &&& m3) (rd &&& md) (opc &&& mo) := by
  have h : ((f7 ++ rs2 ++ rs1 ++ f3 ++ rd ++ opc) &&& (m7 ++ m2 ++ m1 ++ m3 ++ md ++ mo) : BitVec (7 + 5 + 5 + 3 + 5 + 7))
      = (f7 &&& m7) ++ (rs2 &&& m2) ++ (rs1 &&& m1) ++ (f3 &&& m3) ++ (rd &&& md) ++ (opc &&& mo) := by
    simp only [BitVec.and_append]
  exact h

theorem encI_and (imm mi : BitVec 12) (rs1 m1 : RegIdx) (f3 m3 : BitVec 3) (rd md : RegIdx) (opc mo : BitVec 7) :
    encI imm rs1 f3 rd opc &&& encI mi m1 m3 md mo =
      encI (imm &&& mi) (rs1 &&& m1) (f3 &&& m3) (rd &&& md) (opc &&& mo) := by
  have h : ((imm ++ rs1 ++ f3 ++ rd ++ opc) &&& (mi ++ m1 ++ m3 ++ md ++ mo) : BitVec (12 + 5 + 3 + 5 + 7))
      = (imm &&& mi) ++ (rs1 &&& m1) ++ (f3 &&& m3) ++ (rd &&& md) ++ (opc &&& mo) := by
    simp only [BitVec.and_append]
  exact h

theorem encShift64_and (f6 m6 sh ms : BitVec 6) (rs1 m1 : RegIdx) (f3 m3 : BitVec 3) (rd md : RegIdx)
    (opc mo : BitVec 7) :
    encShift64 f6 sh rs1 f3 rd opc &&& encShift64 m6 ms m1 m3 md mo =
      encShift64 (f6 &&& m6) (sh &&& ms) (rs1 &&& m1) (f3 &&& m3) (rd &&& md) (opc &&& mo) := by
  have h : ((f6 ++ sh ++ rs1 ++ f3 ++ rd ++ opc) &&& (m6 ++ ms ++ m1 ++ m3 ++ md ++ mo) : BitVec (6 + 6 + 5 + 3 + 5 + 7))
      = (f6 &&& m6) ++ (sh &&& ms) ++ (rs1 &&& m1) ++ (f3 &&& m3) ++ (rd &&& md) ++ (opc &&& mo) := by
    simp only [BitVec.and_append]
  exact h

theorem and_opcodeMask (w : InstWord) :
    w &&& 0x0000007F#32 = encR 0#7 0#5 0#5 0#3 0#5 (opcodeOf w) := by
  conv_lhs => rw [← encR_fields w, show 0x0000007F#32 = encR 0#7 0#5 0#5 0#3 0#5 0x7F#7 by decide]
  simp only [encR_and, and_ones7, BitVec.and_zero]

theorem and_funct3Mask (w : InstWord) :
    w &&& 0x0000707F#32 = encR 0#7 0#5 0#5 (funct3Of w) 0#5 (opcodeOf w) := by
  conv_lhs => rw [← encR_fields w, show 0x0000707F#32 = encR 0#7 0#5 0#5 7#3 0#5 0x7F#7 by decide]
  simp only [encR_and, and_ones7, and_ones3, BitVec.and_zero]

theorem and_funct7Mask (w : InstWord) :
    w &&& 0xFE00707F#32 = encR (funct7Of w) 0#5 0#5 (funct3Of w) 0#5 (opcodeOf w) := by
  conv_lhs => rw [← encR_fields w, show 0xFE00707F#32 = encR 0x7F#7 0#5 0#5 7#3 0#5 0x7F#7 by decide]
  simp only [encR_and, and_ones7, and_ones3, BitVec.and_zero]

theorem and_funct6Mask (w : InstWord) :
    w &&& 0xFC00707F#32 = encShift64 (funct6Of w) 0#6 0#5 (funct3Of w) 0#5 (opcodeOf w) := by
  conv_lhs => rw [← encShift64_fields w, show 0xFC00707F#32 = encShift64 0x3F#6 0#6 0#5 7#3 0#5 0x7F#7 by decide]
  simp only [encShift64_and, and_ones7, and_ones6, and_ones3, BitVec.and_zero]

theorem and_funct12Mask (w : InstWord) :
    w &&& 0xFFF0007F#32 = encI (immIOf w) 0#5 0#3 0#5 (opcodeOf w) := by
  conv_lhs => rw [← encI_fields w, show 0xFFF0007F#32 = encI 0xFFF#12 0#5 0#3 0#5 0x7F#7 by decide]
  simp only [encI_and, and_ones7, and_ones12, BitVec.and_zero]

theorem and_fenceMask (w : InstWord) :
    w &&& 0x000FFFFF#32 = encI 0#12 (rs1Of w) (funct3Of w) (rdOf w) (opcodeOf w) := by
  conv_lhs => rw [← encI_fields w, show 0x000FFFFF#32 = encI 0#12 0x1F#5 7#3 0x1F#5 0x7F#7 by decide]
  simp only [encI_and, and_ones7, and_ones5, and_ones3, BitVec.and_zero]

theorem and_wholeMask (w : InstWord) : w &&& 0xFFFFFFFF#32 = w := BitVec.and_allOnes (x := w)

/-! ## The decoder, one lemma per opcode (R104) -/

theorem decode_by_opcode (w : InstWord) :
    (opcodeOf w = 0x03#7 → decode w = decodeLoad w) ∧
    (opcodeOf w = 0x23#7 → decode w = decodeStore w) ∧
    (opcodeOf w = 0x13#7 → decode w = decodeOpImm w) ∧
    (opcodeOf w = 0x1B#7 → decode w = decodeOpImm32 w) ∧
    (opcodeOf w = 0x33#7 → decode w = decodeOp w) ∧
    (opcodeOf w = 0x3B#7 → decode w = decodeOp32 w) ∧
    (opcodeOf w = 0x37#7 → decode w = .ok (.lui (rdOf w) (immUOf w))) ∧
    (opcodeOf w = 0x17#7 → decode w = .ok (.auipc (rdOf w) (immUOf w))) ∧
    (opcodeOf w = 0x6F#7 → decode w = .ok (.jal (rdOf w) (immJOf w))) ∧
    (opcodeOf w = 0x67#7 → decode w = .ok (.jalr (rdOf w) (rs1Of w) (immIOf w))) ∧
    (opcodeOf w = 0x63#7 → decode w = decodeBranch w) ∧
    (opcodeOf w = 0x0F#7 → decode w = .ok .fence) ∧
    (opcodeOf w = 0x73#7 → decode w = decodeSystem w) := by
  unfold decode
  refine ⟨?_, ?_, ?_, ?_, ?_, ?_, ?_, ?_, ?_, ?_, ?_, ?_, ?_⟩ <;> intro h <;> simp only [h]

theorem decode_load {w : InstWord} (h : opcodeOf w = 0x03#7) : decode w = decodeLoad w :=
  (decode_by_opcode w).1 h

theorem decode_store {w : InstWord} (h : opcodeOf w = 0x23#7) : decode w = decodeStore w :=
  (decode_by_opcode w).2.1 h

theorem decode_opImm {w : InstWord} (h : opcodeOf w = 0x13#7) : decode w = decodeOpImm w :=
  (decode_by_opcode w).2.2.1 h

theorem decode_opImm32 {w : InstWord} (h : opcodeOf w = 0x1B#7) : decode w = decodeOpImm32 w :=
  (decode_by_opcode w).2.2.2.1 h

theorem decode_op {w : InstWord} (h : opcodeOf w = 0x33#7) : decode w = decodeOp w :=
  (decode_by_opcode w).2.2.2.2.1 h

theorem decode_op32 {w : InstWord} (h : opcodeOf w = 0x3B#7) : decode w = decodeOp32 w :=
  (decode_by_opcode w).2.2.2.2.2.1 h

theorem decode_lui {w : InstWord} (h : opcodeOf w = 0x37#7) : decode w = .ok (.lui (rdOf w) (immUOf w)) :=
  (decode_by_opcode w).2.2.2.2.2.2.1 h

theorem decode_auipc {w : InstWord} (h : opcodeOf w = 0x17#7) : decode w = .ok (.auipc (rdOf w) (immUOf w)) :=
  (decode_by_opcode w).2.2.2.2.2.2.2.1 h

theorem decode_jal {w : InstWord} (h : opcodeOf w = 0x6F#7) : decode w = .ok (.jal (rdOf w) (immJOf w)) :=
  (decode_by_opcode w).2.2.2.2.2.2.2.2.1 h

theorem decode_jalr {w : InstWord} (h : opcodeOf w = 0x67#7) : decode w = .ok (.jalr (rdOf w) (rs1Of w) (immIOf w)) :=
  (decode_by_opcode w).2.2.2.2.2.2.2.2.2.1 h

theorem decode_branch {w : InstWord} (h : opcodeOf w = 0x63#7) : decode w = decodeBranch w :=
  (decode_by_opcode w).2.2.2.2.2.2.2.2.2.2.1 h

theorem decode_fence {w : InstWord} (h : opcodeOf w = 0x0F#7) : decode w = .ok .fence :=
  (decode_by_opcode w).2.2.2.2.2.2.2.2.2.2.2.1 h

theorem decode_system {w : InstWord} (h : opcodeOf w = 0x73#7) : decode w = decodeSystem w :=
  (decode_by_opcode w).2.2.2.2.2.2.2.2.2.2.2.2 h

/-- The two parts of a key (R105). -/
theorem key_parts {w : InstWord} {k : BitVec 10} (h : keyOf w = k) :
    funct7Of w = k.extractLsb' 3 7 ∧ funct3Of w = k.extractLsb' 0 3 := by
  subst h
  unfold keyOf
  generalize funct7Of w = a
  generalize funct3Of w = b
  revert a b
  decide

/-- The last funct3 value. -/
theorem funct3_seven {f : BitVec 3} (h0 : f ≠ 0#3) (h1 : f ≠ 1#3) (h2 : f ≠ 2#3) (h3 : f ≠ 3#3) (h4 : f ≠ 4#3)
    (h5 : f ≠ 5#3) (h6 : f ≠ 6#3) : f = 7#3 := by
  revert h0 h1 h2 h3 h4 h5 h6
  simp only [ne_eq, ← BitVec.toNat_inj, BitVec.toNat_ofNat]
  have := f.isLt
  omega

end Sys2Proof
end

