-- ==== Sys2Proof/Laws/State.lean ====
section
/-! SUPPORT. What each named update of State leaves in each field, so that no later proof unfolds an update; and the laws
of the register file (`10_state.md` R31, R32). -/

namespace Sys2Proof.Machine

variable (s : State)

@[simp] theorem reg_zero : s.reg 0#5 = 0#64 := by simp [State.reg]

/-- What a register write can do: the written register, unless it is x0, and no other. -/
theorem reg_setReg (i j : RegIdx) (v : Word) :
    (s.setReg i v).reg j = if j = i ∧ j ≠ 0#5 then v else s.reg j := by
  by_cases hi : i = 0#5
  · have : s.setReg i v = s := by simp [State.setReg, hi]
    by_cases hj : j = 0#5 <;> simp_all
  · by_cases hj : j = 0#5
    · simp [State.reg, hj]
    · have h : (i.toNat - 1 = j.toNat - 1) ↔ j = i := by
        have hi0 : i.toNat ≠ 0 := fun e => hi (BitVec.eq_of_toNat_eq e)
        have hj0 : j.toNat ≠ 0 := fun e => hj (BitVec.eq_of_toNat_eq e)
        constructor
        · intro e; exact BitVec.eq_of_toNat_eq (by omega)
        · rintro rfl; rfl
      simp only [State.reg, State.setReg, hi, hj, dite_false, Vector.getElem_set, h, ne_eq, not_false_eq_true, and_true]

@[simp] theorem reg_setReg_self {i : RegIdx} (hi : i ≠ 0#5) (v : Word) : (s.setReg i v).reg i = v := by
  simp [reg_setReg, hi]

/-- The registers of two states agree when every read does. -/
theorem regs_ext {s t : State} (h : ∀ i, s.reg i = t.reg i) : s.regs = t.regs := by
  apply Vector.ext
  intro k hk
  have hne : BitVec.ofNat 5 (k + 1) ≠ 0#5 := by
    intro e
    have := congrArg BitVec.toNat e
    simp at this
    omega
  have := h (BitVec.ofNat 5 (k + 1))
  have e : (k + 1) % 32 - 1 = k := by omega
  simpa [State.reg, hne, e] using this

@[simp] theorem setReg_pc (i : RegIdx) (v : Word) : (s.setReg i v).pc = s.pc := by unfold State.setReg; split <;> rfl
@[simp] theorem setReg_mem (i : RegIdx) (v : Word) : (s.setReg i v).mem = s.mem := by unfold State.setReg; split <;> rfl
@[simp] theorem setReg_running (i : RegIdx) (v : Word) : (s.setReg i v).running = s.running := by unfold State.setReg; split <;> rfl
@[simp] theorem setReg_exitCode (i : RegIdx) (v : Word) : (s.setReg i v).exitCode = s.exitCode := by unfold State.setReg; split <;> rfl
@[simp] theorem setReg_syscalls (i : RegIdx) (v : Word) : (s.setReg i v).syscalls = s.syscalls := by unfold State.setReg; split <;> rfl
@[simp] theorem setReg_exitCb (i : RegIdx) (v : Word) : (s.setReg i v).exitCb = s.exitCb := by unfold State.setReg; split <;> rfl
@[simp] theorem setReg_panicCb (i : RegIdx) (v : Word) : (s.setReg i v).panicCb = s.panicCb := by unfold State.setReg; split <;> rfl
@[simp] theorem setReg_draws (i : RegIdx) (v : Word) : (s.setReg i v).draws = s.draws := by unfold State.setReg; split <;> rfl
@[simp] theorem setReg_handlerMoves (i : RegIdx) (v : Word) : (s.setReg i v).handlerMoves = s.handlerMoves := by unfold State.setReg; split <;> rfl
@[simp] theorem setReg_callbackCalls (i : RegIdx) (v : Word) : (s.setReg i v).callbackCalls = s.callbackCalls := by unfold State.setReg; split <;> rfl
@[simp] theorem setReg_outcome (i : RegIdx) (v : Word) : (s.setReg i v).outcome = s.outcome := by unfold State.setReg; split <;> rfl
@[simp] theorem setReg_byte (i : RegIdx) (v : Word) (a : Nat) : (s.setReg i v).byte a = s.byte a := by unfold State.setReg; split <;> rfl

@[simp] theorem setPc_regs (p : Word) : (s.setPc p).regs = s.regs := rfl
@[simp] theorem setPc_pc (p : Word) : (s.setPc p).pc = p := rfl
@[simp] theorem setPc_mem (p : Word) : (s.setPc p).mem = s.mem := rfl
@[simp] theorem setPc_running (p : Word) : (s.setPc p).running = s.running := rfl
@[simp] theorem setPc_exitCode (p : Word) : (s.setPc p).exitCode = s.exitCode := rfl
@[simp] theorem setPc_syscalls (p : Word) : (s.setPc p).syscalls = s.syscalls := rfl
@[simp] theorem setPc_exitCb (p : Word) : (s.setPc p).exitCb = s.exitCb := rfl
@[simp] theorem setPc_panicCb (p : Word) : (s.setPc p).panicCb = s.panicCb := rfl
@[simp] theorem setPc_draws (p : Word) : (s.setPc p).draws = s.draws := rfl
@[simp] theorem setPc_handlerMoves (p : Word) : (s.setPc p).handlerMoves = s.handlerMoves := rfl
@[simp] theorem setPc_callbackCalls (p : Word) : (s.setPc p).callbackCalls = s.callbackCalls := rfl
@[simp] theorem setPc_outcome (p : Word) : (s.setPc p).outcome = s.outcome := rfl
@[simp] theorem setPc_reg (p : Word) (j : RegIdx) : (s.setPc p).reg j = s.reg j := rfl
@[simp] theorem setPc_byte (p : Word) (a : Nat) : (s.setPc p).byte a = s.byte a := rfl

@[simp] theorem advance_regs : (s.advance).regs = s.regs := rfl
@[simp] theorem advance_pc : (s.advance).pc = s.pc + 4#64 := rfl
@[simp] theorem advance_mem : (s.advance).mem = s.mem := rfl
@[simp] theorem advance_running : (s.advance).running = s.running := rfl
@[simp] theorem advance_exitCode : (s.advance).exitCode = s.exitCode := rfl
@[simp] theorem advance_syscalls : (s.advance).syscalls = s.syscalls := rfl
@[simp] theorem advance_exitCb : (s.advance).exitCb = s.exitCb := rfl
@[simp] theorem advance_panicCb : (s.advance).panicCb = s.panicCb := rfl
@[simp] theorem advance_draws : (s.advance).draws = s.draws := rfl
@[simp] theorem advance_handlerMoves : (s.advance).handlerMoves = s.handlerMoves := rfl
@[simp] theorem advance_callbackCalls : (s.advance).callbackCalls = s.callbackCalls := rfl
@[simp] theorem advance_outcome : (s.advance).outcome = s.outcome := rfl
@[simp] theorem advance_reg (j : RegIdx) : (s.advance).reg j = s.reg j := rfl
@[simp] theorem advance_byte (a : Nat) : (s.advance).byte a = s.byte a := rfl

@[simp] theorem retire_regs (rd : RegIdx) (v : Word) : (retire rd v s).regs = (s.setReg rd v).regs := rfl
@[simp] theorem retire_pc (rd : RegIdx) (v : Word) : (retire rd v s).pc = s.pc + 4#64 := by simp [retire]
@[simp] theorem retire_mem (rd : RegIdx) (v : Word) : (retire rd v s).mem = s.mem := by simp [retire]
@[simp] theorem retire_running (rd : RegIdx) (v : Word) : (retire rd v s).running = s.running := by simp [retire]
@[simp] theorem retire_exitCode (rd : RegIdx) (v : Word) : (retire rd v s).exitCode = s.exitCode := by simp [retire]
@[simp] theorem retire_syscalls (rd : RegIdx) (v : Word) : (retire rd v s).syscalls = s.syscalls := by simp [retire]
@[simp] theorem retire_exitCb (rd : RegIdx) (v : Word) : (retire rd v s).exitCb = s.exitCb := by simp [retire]
@[simp] theorem retire_panicCb (rd : RegIdx) (v : Word) : (retire rd v s).panicCb = s.panicCb := by simp [retire]
@[simp] theorem retire_draws (rd : RegIdx) (v : Word) : (retire rd v s).draws = s.draws := by simp [retire]
@[simp] theorem retire_handlerMoves (rd : RegIdx) (v : Word) : (retire rd v s).handlerMoves = s.handlerMoves := by simp [retire]
@[simp] theorem retire_callbackCalls (rd : RegIdx) (v : Word) : (retire rd v s).callbackCalls = s.callbackCalls := by simp [retire]
@[simp] theorem retire_outcome (rd : RegIdx) (v : Word) : (retire rd v s).outcome = s.outcome := by simp [retire]
@[simp] theorem retire_reg (rd : RegIdx) (v : Word) (j : RegIdx) : (retire rd v s).reg j = (s.setReg rd v).reg j := by simp [retire]
@[simp] theorem retire_byte (rd : RegIdx) (v : Word) (a : Nat) : (retire rd v s).byte a = s.byte a := by simp [retire]

@[simp] theorem link_regs (rd : RegIdx) (p : Word) : (link rd p s).regs = (s.setReg rd (s.pc + 4#64)).regs := rfl
@[simp] theorem link_pc (rd : RegIdx) (p : Word) : (link rd p s).pc = p := by simp [link, State.nextPc]
@[simp] theorem link_mem (rd : RegIdx) (p : Word) : (link rd p s).mem = s.mem := by simp [link, State.nextPc]
@[simp] theorem link_running (rd : RegIdx) (p : Word) : (link rd p s).running = s.running := by simp [link, State.nextPc]
@[simp] theorem link_exitCode (rd : RegIdx) (p : Word) : (link rd p s).exitCode = s.exitCode := by simp [link, State.nextPc]
@[simp] theorem link_syscalls (rd : RegIdx) (p : Word) : (link rd p s).syscalls = s.syscalls := by simp [link, State.nextPc]
@[simp] theorem link_exitCb (rd : RegIdx) (p : Word) : (link rd p s).exitCb = s.exitCb := by simp [link, State.nextPc]
@[simp] theorem link_panicCb (rd : RegIdx) (p : Word) : (link rd p s).panicCb = s.panicCb := by simp [link, State.nextPc]
@[simp] theorem link_draws (rd : RegIdx) (p : Word) : (link rd p s).draws = s.draws := by simp [link, State.nextPc]
@[simp] theorem link_handlerMoves (rd : RegIdx) (p : Word) : (link rd p s).handlerMoves = s.handlerMoves := by simp [link, State.nextPc]
@[simp] theorem link_callbackCalls (rd : RegIdx) (p : Word) : (link rd p s).callbackCalls = s.callbackCalls := by simp [link, State.nextPc]
@[simp] theorem link_outcome (rd : RegIdx) (p : Word) : (link rd p s).outcome = s.outcome := by simp [link, State.nextPc]
@[simp] theorem link_reg (rd : RegIdx) (p : Word) (j : RegIdx) : (link rd p s).reg j = (s.setReg rd (s.pc + 4#64)).reg j := by simp [link, State.nextPc]
@[simp] theorem link_byte (rd : RegIdx) (p : Word) (a : Nat) : (link rd p s).byte a = s.byte a := by simp [link, State.nextPc]

@[simp] theorem takePanic_regs (r : PanicReason) : (takePanic r s).regs = s.regs := rfl
@[simp] theorem takePanic_pc (r : PanicReason) : (takePanic r s).pc = pcAfterPanic s r := rfl
@[simp] theorem takePanic_mem (r : PanicReason) : (takePanic r s).mem = s.mem := rfl
@[simp] theorem takePanic_running (r : PanicReason) : (takePanic r s).running = false := rfl
@[simp] theorem takePanic_exitCode (r : PanicReason) : (takePanic r s).exitCode = -1 := rfl
@[simp] theorem takePanic_syscalls (r : PanicReason) : (takePanic r s).syscalls = s.syscalls := rfl
@[simp] theorem takePanic_exitCb (r : PanicReason) : (takePanic r s).exitCb = s.exitCb := rfl
@[simp] theorem takePanic_panicCb (r : PanicReason) : (takePanic r s).panicCb = s.panicCb := rfl
@[simp] theorem takePanic_draws (r : PanicReason) : (takePanic r s).draws = s.draws + 1 := rfl
@[simp] theorem takePanic_handlerMoves (r : PanicReason) : (takePanic r s).handlerMoves = s.handlerMoves := rfl
@[simp] theorem takePanic_callbackCalls (r : PanicReason) : (takePanic r s).callbackCalls = s.callbackCalls ++ panicCalls s r := rfl
@[simp] theorem takePanic_outcome (r : PanicReason) : (takePanic r s).outcome = some (.panicked r) := rfl
@[simp] theorem takePanic_reg (r : PanicReason) (j : RegIdx) : (takePanic r s).reg j = s.reg j := rfl
@[simp] theorem takePanic_byte (r : PanicReason) (a : Nat) : (takePanic r s).byte a = s.byte a := rfl

@[simp] theorem startRun_regs : (startRun s).regs = s.regs := rfl
@[simp] theorem startRun_pc : (startRun s).pc = s.pc := rfl
@[simp] theorem startRun_mem : (startRun s).mem = s.mem := rfl
@[simp] theorem startRun_running : (startRun s).running = true := rfl
@[simp] theorem startRun_exitCode : (startRun s).exitCode = s.exitCode := rfl
@[simp] theorem startRun_syscalls : (startRun s).syscalls = s.syscalls := rfl
@[simp] theorem startRun_exitCb : (startRun s).exitCb = s.exitCb := rfl
@[simp] theorem startRun_panicCb : (startRun s).panicCb = s.panicCb := rfl
@[simp] theorem startRun_draws : (startRun s).draws = s.draws := rfl
@[simp] theorem startRun_handlerMoves : (startRun s).handlerMoves = s.handlerMoves := rfl
@[simp] theorem startRun_callbackCalls : (startRun s).callbackCalls = s.callbackCalls := rfl
@[simp] theorem startRun_outcome : (startRun s).outcome = none := rfl
@[simp] theorem startRun_reg (j : RegIdx) : (startRun s).reg j = s.reg j := rfl
@[simp] theorem startRun_byte (a : Nat) : (startRun s).byte a = s.byte a := rfl

/-- `pc_after_panic` is the pc or the pc + 4 (`60_exceptions.md` R263), and no more is known of it. -/
theorem pcAfterPanic_cases (r : PanicReason) : pcAfterPanic s r = s.pc ∨ pcAfterPanic s r = s.pc + 4#64 := by
  unfold pcAfterPanic
  split
  · exact .inr rfl
  · exact .inl rfl

/-- Writing back a register's own value changes nothing. -/
theorem setReg_reg_self (i : RegIdx) : s.setReg i (s.reg i) = s := by
  have h : (s.setReg i (s.reg i)).regs = s.regs := regs_ext fun j => by
    rw [reg_setReg]
    split
    · next h => rw [h.1]
    · rfl
  unfold State.setReg at h ⊢
  split
  · rfl
  · next hi => simp only [hi, dite_false] at h; rw [h]

end Sys2Proof.Machine
end

