-- ==== Sys2Proof/Laws/Ops.lean ====
section
/-! SUPPORT. What each shared operation over the arena can do, said once (`20_memory.md` R61 to R64). -/

namespace Sys2Proof.Machine

theorem inRange_iff (a : Word) (w : Width) : inRange a w = true ↔ a.toNat + w.bytes ≤ 65536 := by
  unfold inRange Config.memSize; exact decide_eq_true_iff

theorem width_bytes_le (w : Width) : 1 ≤ w.bytes ∧ w.bytes ≤ 8 := by cases w <;> decide

/-- In range, a read is the value of its bytes; the state is not touched. -/
theorem memRead_inRange {s : State} {a : Word} {w : Width} (h : a.toNat + w.bytes ≤ 65536) :
    memRead s a w = .ok (s.mem.readBytes a.toNat w.bytes) := by
  rw [memRead, if_pos ((inRange_iff a w).2 h)]

/-- Out of range, a read is the panic. -/
theorem memRead_outOfRange {s : State} {a : Word} {w : Width} (h : ¬ a.toNat + w.bytes ≤ 65536) :
    memRead s a w = .error .outOfRange := by
  rw [memRead, if_neg (fun e => h ((inRange_iff a w).1 e))]

/-- Everything a read can do. -/
theorem memRead_cases (s : State) (a : Word) (w : Width) :
    (a.toNat + w.bytes ≤ 65536 ∧ memRead s a w = .ok (s.mem.readBytes a.toNat w.bytes)) ∨
    (¬ a.toNat + w.bytes ≤ 65536 ∧ memRead s a w = .error .outOfRange) := by
  by_cases h : a.toNat + w.bytes ≤ 65536
  · exact .inl ⟨h, memRead_inRange h⟩
  · exact .inr ⟨h, memRead_outOfRange h⟩

/-- The state after a write in range. -/
def written (s : State) (a : Word) (w : Width) (v : Word) : State :=
  { s with mem := s.mem.writeBytes a.toNat w.bytes v }

theorem memWrite_inRange {s : State} {a : Word} {w : Width} {v : Word} (h : a.toNat + w.bytes ≤ 65536) :
    memWrite s a w v = .ok (written s a w v) := by
  rw [memWrite, if_pos ((inRange_iff a w).2 h)]; rfl

theorem memWrite_outOfRange {s : State} {a : Word} {w : Width} {v : Word} (h : ¬ a.toNat + w.bytes ≤ 65536) :
    memWrite s a w v = .error .outOfRange := by
  rw [memWrite, if_neg (fun e => h ((inRange_iff a w).1 e))]

/-- Everything a write can do. -/
theorem memWrite_cases (s : State) (a : Word) (w : Width) (v : Word) :
    (a.toNat + w.bytes ≤ 65536 ∧ memWrite s a w v = .ok (written s a w v)) ∨
    (¬ a.toNat + w.bytes ≤ 65536 ∧ memWrite s a w v = .error .outOfRange) := by
  by_cases h : a.toNat + w.bytes ≤ 65536
  · exact .inl ⟨h, memWrite_inRange h⟩
  · exact .inr ⟨h, memWrite_outOfRange h⟩

/-- A write that answers a state had its access in range. -/
theorem memWrite_ok {s t : State} {a : Word} {w : Width} {v : Word} (h : memWrite s a w v = .ok t) :
    a.toNat + w.bytes ≤ 65536 ∧ t = written s a w v := by
  rcases memWrite_cases s a w v with ⟨h1, h2⟩ | ⟨_, h2⟩ <;> rw [h2] at h <;> cases h
  exact ⟨h1, rfl⟩

variable (s : State) (a : Word) (w : Width) (v : Word)

@[simp] theorem written_regs : (written s a w v).regs = s.regs := rfl
@[simp] theorem written_pc : (written s a w v).pc = s.pc := rfl
@[simp] theorem written_running : (written s a w v).running = s.running := rfl
@[simp] theorem written_exitCode : (written s a w v).exitCode = s.exitCode := rfl
@[simp] theorem written_syscalls : (written s a w v).syscalls = s.syscalls := rfl
@[simp] theorem written_exitCb : (written s a w v).exitCb = s.exitCb := rfl
@[simp] theorem written_panicCb : (written s a w v).panicCb = s.panicCb := rfl
@[simp] theorem written_draws : (written s a w v).draws = s.draws := rfl
@[simp] theorem written_handlerMoves : (written s a w v).handlerMoves = s.handlerMoves := rfl
@[simp] theorem written_callbackCalls : (written s a w v).callbackCalls = s.callbackCalls := rfl
@[simp] theorem written_outcome : (written s a w v).outcome = s.outcome := rfl
@[simp] theorem written_reg (j : RegIdx) : (written s a w v).reg j = s.reg j := rfl
@[simp] theorem written_mem : (written s a w v).mem = s.mem.writeBytes a.toNat w.bytes v := rfl

/-- The bytes after a write: byte i of the value at a + i, and every other byte as before (R63). -/
theorem written_byte (b : Nat) :
    (written s a w v).byte b =
      if a.toNat ≤ b ∧ b < a.toNat + w.bytes then (v >>> (8 * (b - a.toNat))).setWidth 8 else s.byte b :=
  Memory.readByte_writeBytes w.bytes s.mem a.toNat b v

/-- A write keeps the canonical form. -/
theorem written_wf (h : s.mem.wf = true) (hr : a.toNat + w.bytes ≤ 65536) : (written s a w v).mem.wf = true :=
  Memory.wf_writeBytes w.bytes h hr v

/-- The instruction word of the four bytes at the pc (`20_memory.md` R66). -/
theorem fetch_inRange {s : State} (h : s.pc.toNat + 4 ≤ 65536) :
    fetch s = .ok ((s.mem.readBytes s.pc.toNat 4).setWidth 32) := by
  simp only [fetch, memRead_inRange (s := s) (a := s.pc) (w := .word) h, Width.bytes]

theorem fetch_outOfRange {s : State} (h : ¬ s.pc.toNat + 4 ≤ 65536) : fetch s = .error .outOfRange := by
  simp only [fetch, memRead_outOfRange (s := s) (a := s.pc) (w := .word) h]

end Sys2Proof.Machine
end

