-- ==== Sys2Proof/Laws/PerInstr.lean ====
section
/-! SUPPORT. A statement made once per instruction: the word the encoder writes is the one its row of
`spec/opcode_table.json` fixes, on the bits the decoder examines and on the bits a canonical word fixes. -/

namespace Sys2Proof.Laws.WordForm

/-- The encoded word agrees with its opcode-table row (`30_encoding.md` R104, R108). -/
def Statement (i : Instr) : Prop :=
  encode i &&& i.row.mask = i.row.fixed ∧ encode i &&& i.row.canonicalMask = i.row.canonicalFixed

theorem lb (rd rs1 : RegIdx) (imm : BitVec 12) : Statement (.lb rd rs1 imm) := by
  have h : encI imm rs1 0#3 rd 0x03#7 &&& 0x0000707F#32 = 0x00000003#32 := by
    rw [and_funct3Mask, opcodeOf_encI, funct3Of_encI]; rfl
  exact ⟨h, h⟩

theorem lh (rd rs1 : RegIdx) (imm : BitVec 12) : Statement (.lh rd rs1 imm) := by
  have h : encI imm rs1 1#3 rd 0x03#7 &&& 0x0000707F#32 = 0x00001003#32 := by
    rw [and_funct3Mask, opcodeOf_encI, funct3Of_encI]; rfl
  exact ⟨h, h⟩

theorem lw (rd rs1 : RegIdx) (imm : BitVec 12) : Statement (.lw rd rs1 imm) := by
  have h : encI imm rs1 2#3 rd 0x03#7 &&& 0x0000707F#32 = 0x00002003#32 := by
    rw [and_funct3Mask, opcodeOf_encI, funct3Of_encI]; rfl
  exact ⟨h, h⟩

theorem ld (rd rs1 : RegIdx) (imm : BitVec 12) : Statement (.ld rd rs1 imm) := by
  have h : encI imm rs1 3#3 rd 0x03#7 &&& 0x0000707F#32 = 0x00003003#32 := by
    rw [and_funct3Mask, opcodeOf_encI, funct3Of_encI]; rfl
  exact ⟨h, h⟩

theorem lbu (rd rs1 : RegIdx) (imm : BitVec 12) : Statement (.lbu rd rs1 imm) := by
  have h : encI imm rs1 4#3 rd 0x03#7 &&& 0x0000707F#32 = 0x00004003#32 := by
    rw [and_funct3Mask, opcodeOf_encI, funct3Of_encI]; rfl
  exact ⟨h, h⟩

theorem lhu (rd rs1 : RegIdx) (imm : BitVec 12) : Statement (.lhu rd rs1 imm) := by
  have h : encI imm rs1 5#3 rd 0x03#7 &&& 0x0000707F#32 = 0x00005003#32 := by
    rw [and_funct3Mask, opcodeOf_encI, funct3Of_encI]; rfl
  exact ⟨h, h⟩

theorem lwu (rd rs1 : RegIdx) (imm : BitVec 12) : Statement (.lwu rd rs1 imm) := by
  have h : encI imm rs1 6#3 rd 0x03#7 &&& 0x0000707F#32 = 0x00006003#32 := by
    rw [and_funct3Mask, opcodeOf_encI, funct3Of_encI]; rfl
  exact ⟨h, h⟩

theorem sb (rs1 rs2 : RegIdx) (imm : BitVec 12) : Statement (.sb rs1 rs2 imm) := by
  have h : encS imm rs2 rs1 0#3 0x23#7 &&& 0x0000707F#32 = 0x00000023#32 := by
    rw [and_funct3Mask, opcodeOf_encS, funct3Of_encS]; rfl
  exact ⟨h, h⟩

theorem sh (rs1 rs2 : RegIdx) (imm : BitVec 12) : Statement (.sh rs1 rs2 imm) := by
  have h : encS imm rs2 rs1 1#3 0x23#7 &&& 0x0000707F#32 = 0x00001023#32 := by
    rw [and_funct3Mask, opcodeOf_encS, funct3Of_encS]; rfl
  exact ⟨h, h⟩

theorem sw (rs1 rs2 : RegIdx) (imm : BitVec 12) : Statement (.sw rs1 rs2 imm) := by
  have h : encS imm rs2 rs1 2#3 0x23#7 &&& 0x0000707F#32 = 0x00002023#32 := by
    rw [and_funct3Mask, opcodeOf_encS, funct3Of_encS]; rfl
  exact ⟨h, h⟩

theorem sd (rs1 rs2 : RegIdx) (imm : BitVec 12) : Statement (.sd rs1 rs2 imm) := by
  have h : encS imm rs2 rs1 3#3 0x23#7 &&& 0x0000707F#32 = 0x00003023#32 := by
    rw [and_funct3Mask, opcodeOf_encS, funct3Of_encS]; rfl
  exact ⟨h, h⟩

theorem addi (rd rs1 : RegIdx) (imm : BitVec 12) : Statement (.addi rd rs1 imm) := by
  have h : encI imm rs1 0#3 rd 0x13#7 &&& 0x0000707F#32 = 0x00000013#32 := by
    rw [and_funct3Mask, opcodeOf_encI, funct3Of_encI]; rfl
  exact ⟨h, h⟩

theorem slli (rd rs1 : RegIdx) (shamt : BitVec 6) : Statement (.slli rd rs1 shamt) := by
  have h : encShift64 0b000000#6 shamt rs1 1#3 rd 0x13#7 &&& 0x0000707F#32 = 0x00001013#32 := by
    rw [and_funct3Mask, opcodeOf_encShift64, funct3Of_encShift64]; rfl
  have hc : encShift64 0b000000#6 shamt rs1 1#3 rd 0x13#7 &&& 0xFC00707F#32 = 0x00001013#32 := by
    rw [and_funct6Mask, opcodeOf_encShift64, funct6Of_encShift64, funct3Of_encShift64]; rfl
  exact ⟨h, hc⟩

theorem slti (rd rs1 : RegIdx) (imm : BitVec 12) : Statement (.slti rd rs1 imm) := by
  have h : encI imm rs1 2#3 rd 0x13#7 &&& 0x0000707F#32 = 0x00002013#32 := by
    rw [and_funct3Mask, opcodeOf_encI, funct3Of_encI]; rfl
  exact ⟨h, h⟩

theorem sltiu (rd rs1 : RegIdx) (imm : BitVec 12) : Statement (.sltiu rd rs1 imm) := by
  have h : encI imm rs1 3#3 rd 0x13#7 &&& 0x0000707F#32 = 0x00003013#32 := by
    rw [and_funct3Mask, opcodeOf_encI, funct3Of_encI]; rfl
  exact ⟨h, h⟩

theorem xori (rd rs1 : RegIdx) (imm : BitVec 12) : Statement (.xori rd rs1 imm) := by
  have h : encI imm rs1 4#3 rd 0x13#7 &&& 0x0000707F#32 = 0x00004013#32 := by
    rw [and_funct3Mask, opcodeOf_encI, funct3Of_encI]; rfl
  exact ⟨h, h⟩

theorem srli (rd rs1 : RegIdx) (shamt : BitVec 6) : Statement (.srli rd rs1 shamt) := by
  have h : encShift64 0b000000#6 shamt rs1 5#3 rd 0x13#7 &&& 0xFC00707F#32 = 0x00005013#32 := by
    rw [and_funct6Mask, opcodeOf_encShift64, funct6Of_encShift64, funct3Of_encShift64]; rfl
  exact ⟨h, h⟩

theorem srai (rd rs1 : RegIdx) (shamt : BitVec 6) : Statement (.srai rd rs1 shamt) := by
  have h : encShift64 0b010000#6 shamt rs1 5#3 rd 0x13#7 &&& 0xFC00707F#32 = 0x40005013#32 := by
    rw [and_funct6Mask, opcodeOf_encShift64, funct6Of_encShift64, funct3Of_encShift64]; rfl
  exact ⟨h, h⟩

theorem ori (rd rs1 : RegIdx) (imm : BitVec 12) : Statement (.ori rd rs1 imm) := by
  have h : encI imm rs1 6#3 rd 0x13#7 &&& 0x0000707F#32 = 0x00006013#32 := by
    rw [and_funct3Mask, opcodeOf_encI, funct3Of_encI]; rfl
  exact ⟨h, h⟩

theorem andi (rd rs1 : RegIdx) (imm : BitVec 12) : Statement (.andi rd rs1 imm) := by
  have h : encI imm rs1 7#3 rd 0x13#7 &&& 0x0000707F#32 = 0x00007013#32 := by
    rw [and_funct3Mask, opcodeOf_encI, funct3Of_encI]; rfl
  exact ⟨h, h⟩

theorem addiw (rd rs1 : RegIdx) (imm : BitVec 12) : Statement (.addiw rd rs1 imm) := by
  have h : encI imm rs1 0#3 rd 0x1B#7 &&& 0x0000707F#32 = 0x0000001B#32 := by
    rw [and_funct3Mask, opcodeOf_encI, funct3Of_encI]; rfl
  exact ⟨h, h⟩

theorem slliw (rd rs1 : RegIdx) (shamt : BitVec 5) : Statement (.slliw rd rs1 shamt) := by
  have h : encR 0x00#7 shamt rs1 1#3 rd 0x1B#7 &&& 0xFE00707F#32 = 0x0000101B#32 := by
    rw [and_funct7Mask, opcodeOf_encR, funct7Of_encR, funct3Of_encR]; rfl
  exact ⟨h, h⟩

theorem srliw (rd rs1 : RegIdx) (shamt : BitVec 5) : Statement (.srliw rd rs1 shamt) := by
  have h : encR 0x00#7 shamt rs1 5#3 rd 0x1B#7 &&& 0xFE00707F#32 = 0x0000501B#32 := by
    rw [and_funct7Mask, opcodeOf_encR, funct7Of_encR, funct3Of_encR]; rfl
  exact ⟨h, h⟩

theorem sraiw (rd rs1 : RegIdx) (shamt : BitVec 5) : Statement (.sraiw rd rs1 shamt) := by
  have h : encR 0x20#7 shamt rs1 5#3 rd 0x1B#7 &&& 0xFE00707F#32 = 0x4000501B#32 := by
    rw [and_funct7Mask, opcodeOf_encR, funct7Of_encR, funct3Of_encR]; rfl
  exact ⟨h, h⟩

theorem add (rd rs1 rs2 : RegIdx) : Statement (.add rd rs1 rs2) := by
  have h : encR 0x00#7 rs2 rs1 0#3 rd 0x33#7 &&& 0xFE00707F#32 = 0x00000033#32 := by
    rw [and_funct7Mask, opcodeOf_encR, funct7Of_encR, funct3Of_encR]; rfl
  exact ⟨h, h⟩

theorem sub (rd rs1 rs2 : RegIdx) : Statement (.sub rd rs1 rs2) := by
  have h : encR 0x20#7 rs2 rs1 0#3 rd 0x33#7 &&& 0xFE00707F#32 = 0x40000033#32 := by
    rw [and_funct7Mask, opcodeOf_encR, funct7Of_encR, funct3Of_encR]; rfl
  exact ⟨h, h⟩

theorem sll (rd rs1 rs2 : RegIdx) : Statement (.sll rd rs1 rs2) := by
  have h : encR 0x00#7 rs2 rs1 1#3 rd 0x33#7 &&& 0xFE00707F#32 = 0x00001033#32 := by
    rw [and_funct7Mask, opcodeOf_encR, funct7Of_encR, funct3Of_encR]; rfl
  exact ⟨h, h⟩

theorem slt (rd rs1 rs2 : RegIdx) : Statement (.slt rd rs1 rs2) := by
  have h : encR 0x00#7 rs2 rs1 2#3 rd 0x33#7 &&& 0xFE00707F#32 = 0x00002033#32 := by
    rw [and_funct7Mask, opcodeOf_encR, funct7Of_encR, funct3Of_encR]; rfl
  exact ⟨h, h⟩

theorem sltu (rd rs1 rs2 : RegIdx) : Statement (.sltu rd rs1 rs2) := by
  have h : encR 0x00#7 rs2 rs1 3#3 rd 0x33#7 &&& 0xFE00707F#32 = 0x00003033#32 := by
    rw [and_funct7Mask, opcodeOf_encR, funct7Of_encR, funct3Of_encR]; rfl
  exact ⟨h, h⟩

theorem xor (rd rs1 rs2 : RegIdx) : Statement (.xor rd rs1 rs2) := by
  have h : encR 0x00#7 rs2 rs1 4#3 rd 0x33#7 &&& 0xFE00707F#32 = 0x00004033#32 := by
    rw [and_funct7Mask, opcodeOf_encR, funct7Of_encR, funct3Of_encR]; rfl
  exact ⟨h, h⟩

theorem srl (rd rs1 rs2 : RegIdx) : Statement (.srl rd rs1 rs2) := by
  have h : encR 0x00#7 rs2 rs1 5#3 rd 0x33#7 &&& 0xFE00707F#32 = 0x00005033#32 := by
    rw [and_funct7Mask, opcodeOf_encR, funct7Of_encR, funct3Of_encR]; rfl
  exact ⟨h, h⟩

theorem sra (rd rs1 rs2 : RegIdx) : Statement (.sra rd rs1 rs2) := by
  have h : encR 0x20#7 rs2 rs1 5#3 rd 0x33#7 &&& 0xFE00707F#32 = 0x40005033#32 := by
    rw [and_funct7Mask, opcodeOf_encR, funct7Of_encR, funct3Of_encR]; rfl
  exact ⟨h, h⟩

theorem or (rd rs1 rs2 : RegIdx) : Statement (.or rd rs1 rs2) := by
  have h : encR 0x00#7 rs2 rs1 6#3 rd 0x33#7 &&& 0xFE00707F#32 = 0x00006033#32 := by
    rw [and_funct7Mask, opcodeOf_encR, funct7Of_encR, funct3Of_encR]; rfl
  exact ⟨h, h⟩

theorem and (rd rs1 rs2 : RegIdx) : Statement (.and rd rs1 rs2) := by
  have h : encR 0x00#7 rs2 rs1 7#3 rd 0x33#7 &&& 0xFE00707F#32 = 0x00007033#32 := by
    rw [and_funct7Mask, opcodeOf_encR, funct7Of_encR, funct3Of_encR]; rfl
  exact ⟨h, h⟩

theorem mul (rd rs1 rs2 : RegIdx) : Statement (.mul rd rs1 rs2) := by
  have h : encR 0x01#7 rs2 rs1 0#3 rd 0x33#7 &&& 0xFE00707F#32 = 0x02000033#32 := by
    rw [and_funct7Mask, opcodeOf_encR, funct7Of_encR, funct3Of_encR]; rfl
  exact ⟨h, h⟩

theorem mulh (rd rs1 rs2 : RegIdx) : Statement (.mulh rd rs1 rs2) := by
  have h : encR 0x01#7 rs2 rs1 1#3 rd 0x33#7 &&& 0xFE00707F#32 = 0x02001033#32 := by
    rw [and_funct7Mask, opcodeOf_encR, funct7Of_encR, funct3Of_encR]; rfl
  exact ⟨h, h⟩

theorem mulhsu (rd rs1 rs2 : RegIdx) : Statement (.mulhsu rd rs1 rs2) := by
  have h : encR 0x01#7 rs2 rs1 2#3 rd 0x33#7 &&& 0xFE00707F#32 = 0x02002033#32 := by
    rw [and_funct7Mask, opcodeOf_encR, funct7Of_encR, funct3Of_encR]; rfl
  exact ⟨h, h⟩

theorem mulhu (rd rs1 rs2 : RegIdx) : Statement (.mulhu rd rs1 rs2) := by
  have h : encR 0x01#7 rs2 rs1 3#3 rd 0x33#7 &&& 0xFE00707F#32 = 0x02003033#32 := by
    rw [and_funct7Mask, opcodeOf_encR, funct7Of_encR, funct3Of_encR]; rfl
  exact ⟨h, h⟩

theorem div (rd rs1 rs2 : RegIdx) : Statement (.div rd rs1 rs2) := by
  have h : encR 0x01#7 rs2 rs1 4#3 rd 0x33#7 &&& 0xFE00707F#32 = 0x02004033#32 := by
    rw [and_funct7Mask, opcodeOf_encR, funct7Of_encR, funct3Of_encR]; rfl
  exact ⟨h, h⟩

theorem divu (rd rs1 rs2 : RegIdx) : Statement (.divu rd rs1 rs2) := by
  have h : encR 0x01#7 rs2 rs1 5#3 rd 0x33#7 &&& 0xFE00707F#32 = 0x02005033#32 := by
    rw [and_funct7Mask, opcodeOf_encR, funct7Of_encR, funct3Of_encR]; rfl
  exact ⟨h, h⟩

theorem rem (rd rs1 rs2 : RegIdx) : Statement (.rem rd rs1 rs2) := by
  have h : encR 0x01#7 rs2 rs1 6#3 rd 0x33#7 &&& 0xFE00707F#32 = 0x02006033#32 := by
    rw [and_funct7Mask, opcodeOf_encR, funct7Of_encR, funct3Of_encR]; rfl
  exact ⟨h, h⟩

theorem remu (rd rs1 rs2 : RegIdx) : Statement (.remu rd rs1 rs2) := by
  have h : encR 0x01#7 rs2 rs1 7#3 rd 0x33#7 &&& 0xFE00707F#32 = 0x02007033#32 := by
    rw [and_funct7Mask, opcodeOf_encR, funct7Of_encR, funct3Of_encR]; rfl
  exact ⟨h, h⟩

theorem addw (rd rs1 rs2 : RegIdx) : Statement (.addw rd rs1 rs2) := by
  have h : encR 0x00#7 rs2 rs1 0#3 rd 0x3B#7 &&& 0xFE00707F#32 = 0x0000003B#32 := by
    rw [and_funct7Mask, opcodeOf_encR, funct7Of_encR, funct3Of_encR]; rfl
  exact ⟨h, h⟩

theorem subw (rd rs1 rs2 : RegIdx) : Statement (.subw rd rs1 rs2) := by
  have h : encR 0x20#7 rs2 rs1 0#3 rd 0x3B#7 &&& 0xFE00707F#32 = 0x4000003B#32 := by
    rw [and_funct7Mask, opcodeOf_encR, funct7Of_encR, funct3Of_encR]; rfl
  exact ⟨h, h⟩

theorem sllw (rd rs1 rs2 : RegIdx) : Statement (.sllw rd rs1 rs2) := by
  have h : encR 0x00#7 rs2 rs1 1#3 rd 0x3B#7 &&& 0xFE00707F#32 = 0x0000103B#32 := by
    rw [and_funct7Mask, opcodeOf_encR, funct7Of_encR, funct3Of_encR]; rfl
  exact ⟨h, h⟩

theorem srlw (rd rs1 rs2 : RegIdx) : Statement (.srlw rd rs1 rs2) := by
  have h : encR 0x00#7 rs2 rs1 5#3 rd 0x3B#7 &&& 0xFE00707F#32 = 0x0000503B#32 := by
    rw [and_funct7Mask, opcodeOf_encR, funct7Of_encR, funct3Of_encR]; rfl
  exact ⟨h, h⟩

theorem sraw (rd rs1 rs2 : RegIdx) : Statement (.sraw rd rs1 rs2) := by
  have h : encR 0x20#7 rs2 rs1 5#3 rd 0x3B#7 &&& 0xFE00707F#32 = 0x4000503B#32 := by
    rw [and_funct7Mask, opcodeOf_encR, funct7Of_encR, funct3Of_encR]; rfl
  exact ⟨h, h⟩

theorem mulw (rd rs1 rs2 : RegIdx) : Statement (.mulw rd rs1 rs2) := by
  have h : encR 0x01#7 rs2 rs1 0#3 rd 0x3B#7 &&& 0xFE00707F#32 = 0x0200003B#32 := by
    rw [and_funct7Mask, opcodeOf_encR, funct7Of_encR, funct3Of_encR]; rfl
  exact ⟨h, h⟩

theorem divw (rd rs1 rs2 : RegIdx) : Statement (.divw rd rs1 rs2) := by
  have h : encR 0x01#7 rs2 rs1 4#3 rd 0x3B#7 &&& 0xFE00707F#32 = 0x0200403B#32 := by
    rw [and_funct7Mask, opcodeOf_encR, funct7Of_encR, funct3Of_encR]; rfl
  exact ⟨h, h⟩

theorem divuw (rd rs1 rs2 : RegIdx) : Statement (.divuw rd rs1 rs2) := by
  have h : encR 0x01#7 rs2 rs1 5#3 rd 0x3B#7 &&& 0xFE00707F#32 = 0x0200503B#32 := by
    rw [and_funct7Mask, opcodeOf_encR, funct7Of_encR, funct3Of_encR]; rfl
  exact ⟨h, h⟩

theorem remw (rd rs1 rs2 : RegIdx) : Statement (.remw rd rs1 rs2) := by
  have h : encR 0x01#7 rs2 rs1 6#3 rd 0x3B#7 &&& 0xFE00707F#32 = 0x0200603B#32 := by
    rw [and_funct7Mask, opcodeOf_encR, funct7Of_encR, funct3Of_encR]; rfl
  exact ⟨h, h⟩

theorem remuw (rd rs1 rs2 : RegIdx) : Statement (.remuw rd rs1 rs2) := by
  have h : encR 0x01#7 rs2 rs1 7#3 rd 0x3B#7 &&& 0xFE00707F#32 = 0x0200703B#32 := by
    rw [and_funct7Mask, opcodeOf_encR, funct7Of_encR, funct3Of_encR]; rfl
  exact ⟨h, h⟩

theorem lui (rd : RegIdx) (imm : BitVec 32) : Statement (.lui rd imm) := by
  have h : encU imm rd 0x37#7 &&& 0x0000007F#32 = 0x00000037#32 := by
    rw [and_opcodeMask, opcodeOf_encU]; rfl
  exact ⟨h, h⟩

theorem auipc (rd : RegIdx) (imm : BitVec 32) : Statement (.auipc rd imm) := by
  have h : encU imm rd 0x17#7 &&& 0x0000007F#32 = 0x00000017#32 := by
    rw [and_opcodeMask, opcodeOf_encU]; rfl
  exact ⟨h, h⟩

theorem jal (rd : RegIdx) (imm : BitVec 21) : Statement (.jal rd imm) := by
  have h : encJ imm rd 0x6F#7 &&& 0x0000007F#32 = 0x0000006F#32 := by
    rw [and_opcodeMask, opcodeOf_encJ]; rfl
  exact ⟨h, h⟩

theorem jalr (rd rs1 : RegIdx) (imm : BitVec 12) : Statement (.jalr rd rs1 imm) := by
  have h : encI imm rs1 0#3 rd 0x67#7 &&& 0x0000007F#32 = 0x00000067#32 := by
    rw [and_opcodeMask, opcodeOf_encI]; rfl
  have hc : encI imm rs1 0#3 rd 0x67#7 &&& 0x0000707F#32 = 0x00000067#32 := by
    rw [and_funct3Mask, opcodeOf_encI, funct3Of_encI]; rfl
  exact ⟨h, hc⟩

theorem beq (rs1 rs2 : RegIdx) (imm : BitVec 13) : Statement (.beq rs1 rs2 imm) := by
  have h : encB imm rs2 rs1 0#3 0x63#7 &&& 0x0000707F#32 = 0x00000063#32 := by
    rw [and_funct3Mask, opcodeOf_encB, funct3Of_encB]; rfl
  exact ⟨h, h⟩

theorem bne (rs1 rs2 : RegIdx) (imm : BitVec 13) : Statement (.bne rs1 rs2 imm) := by
  have h : encB imm rs2 rs1 1#3 0x63#7 &&& 0x0000707F#32 = 0x00001063#32 := by
    rw [and_funct3Mask, opcodeOf_encB, funct3Of_encB]; rfl
  exact ⟨h, h⟩

theorem blt (rs1 rs2 : RegIdx) (imm : BitVec 13) : Statement (.blt rs1 rs2 imm) := by
  have h : encB imm rs2 rs1 4#3 0x63#7 &&& 0x0000707F#32 = 0x00004063#32 := by
    rw [and_funct3Mask, opcodeOf_encB, funct3Of_encB]; rfl
  exact ⟨h, h⟩

theorem bge (rs1 rs2 : RegIdx) (imm : BitVec 13) : Statement (.bge rs1 rs2 imm) := by
  have h : encB imm rs2 rs1 5#3 0x63#7 &&& 0x0000707F#32 = 0x00005063#32 := by
    rw [and_funct3Mask, opcodeOf_encB, funct3Of_encB]; rfl
  exact ⟨h, h⟩

theorem bltu (rs1 rs2 : RegIdx) (imm : BitVec 13) : Statement (.bltu rs1 rs2 imm) := by
  have h : encB imm rs2 rs1 6#3 0x63#7 &&& 0x0000707F#32 = 0x00006063#32 := by
    rw [and_funct3Mask, opcodeOf_encB, funct3Of_encB]; rfl
  exact ⟨h, h⟩

theorem bgeu (rs1 rs2 : RegIdx) (imm : BitVec 13) : Statement (.bgeu rs1 rs2 imm) := by
  have h : encB imm rs2 rs1 7#3 0x63#7 &&& 0x0000707F#32 = 0x00007063#32 := by
    rw [and_funct3Mask, opcodeOf_encB, funct3Of_encB]; rfl
  exact ⟨h, h⟩

theorem fence : Statement (.fence) := by
  have h : encI 0x0FF#12 0#5 0#3 0#5 0x0F#7 &&& 0x0000007F#32 = 0x0000000F#32 := by
    rw [and_opcodeMask, opcodeOf_encI]; rfl
  have hc : encI 0x0FF#12 0#5 0#3 0#5 0x0F#7 &&& 0x000FFFFF#32 = 0x0000000F#32 := by
    rw [and_fenceMask, opcodeOf_encI, rs1Of_encI, funct3Of_encI, rdOf_encI]; rfl
  exact ⟨h, hc⟩

theorem ecall : Statement (.ecall) := by
  have h : encI 0#12 0#5 0#3 0#5 0x73#7 &&& 0xFFF0007F#32 = 0x00000073#32 := by
    rw [and_funct12Mask, opcodeOf_encI, immIOf_encI]; rfl
  have hc : encI 0#12 0#5 0#3 0#5 0x73#7 &&& 0xFFFFFFFF#32 = 0x00000073#32 := rfl
  exact ⟨h, hc⟩

theorem ebreak : Statement (.ebreak) := by
  have h : encI 1#12 0#5 0#3 0#5 0x73#7 &&& 0xFFF0007F#32 = 0x00100073#32 := by
    rw [and_funct12Mask, opcodeOf_encI, immIOf_encI]; rfl
  have hc : encI 1#12 0#5 0#3 0#5 0x73#7 &&& 0xFFFFFFFF#32 = 0x00100073#32 := rfl
  exact ⟨h, hc⟩

end Sys2Proof.Laws.WordForm
end

