-- ==== Sys2Proof/Laws/Step.lean ====
section
/-! SUPPORT. What one instruction and one step can do, said once: the provers cite these and unfold neither `exec` nor
`step`. -/

namespace Sys2Proof.Machine

/-! ## Every instruction but ECALL -/

/-- The state EBREAK leaves (`44_system.md` R235). -/
def broken (s : State) : State := { s.advance with exitCode := -1, running := false, outcome := some .broke }

/-- Everything an instruction other than ECALL can leave. -/
inductive Effect (s : State) : State → Prop
  | retired (rd : RegIdx) (v : Word) : Effect s (retire rd v s)
  | linked (rd : RegIdx) (p : Word) : Effect s (link rd p s)
  | jumped (p : Word) : Effect s (s.setPc p)
  | stored (a : Word) (w : Width) (v : Word) (h : a.toNat + w.bytes ≤ 65536) : Effect s (written s a w v).advance
  | panicked : Effect s (takePanic .outOfRange s)
  | broke : Effect s (broken s)

/-- A load retires or panics (`40_load_store.md` R130). -/
theorem loadInto_cases (rd rs1 : RegIdx) (imm : BitVec 12) (w : Width) (f : Word → Word) (s : State) :
    ((effAddr s rs1 imm).toNat + w.bytes ≤ 65536 ∧
      loadInto rd rs1 imm w f s = .next (retire rd (f (s.mem.readBytes (effAddr s rs1 imm).toNat w.bytes)) s)) ∨
    (¬ (effAddr s rs1 imm).toNat + w.bytes ≤ 65536 ∧ loadInto rd rs1 imm w f s = .next (takePanic .outOfRange s)) := by
  unfold loadInto
  rcases memRead_cases s (effAddr s rs1 imm) w with ⟨h, e⟩ | ⟨h, e⟩ <;> rw [e]
  · exact .inl ⟨h, rfl⟩
  · exact .inr ⟨h, rfl⟩

/-- A store stores and advances, or panics (R140). -/
theorem storeFrom_cases (rs1 rs2 : RegIdx) (imm : BitVec 12) (w : Width) (s : State) :
    ((effAddr s rs1 imm).toNat + w.bytes ≤ 65536 ∧
      storeFrom rs1 rs2 imm w s = .next (written s (effAddr s rs1 imm) w (s.reg rs2)).advance) ∨
    (¬ (effAddr s rs1 imm).toNat + w.bytes ≤ 65536 ∧ storeFrom rs1 rs2 imm w s = .next (takePanic .outOfRange s)) := by
  unfold storeFrom
  rcases memWrite_cases s (effAddr s rs1 imm) w (s.reg rs2) with ⟨h, e⟩ | ⟨h, e⟩ <;> rw [e]
  · exact .inl ⟨h, rfl⟩
  · exact .inr ⟨h, rfl⟩

theorem loadInto_effect (rd rs1 : RegIdx) (imm : BitVec 12) (w : Width) (f : Word → Word) (s : State) :
    ∃ t, loadInto rd rs1 imm w f s = .next t ∧ Effect s t := by
  rcases loadInto_cases rd rs1 imm w f s with ⟨_, e⟩ | ⟨_, e⟩
  · exact ⟨_, e, .retired _ _⟩
  · exact ⟨_, e, .panicked⟩

theorem storeFrom_effect (rs1 rs2 : RegIdx) (imm : BitVec 12) (w : Width) (s : State) :
    ∃ t, storeFrom rs1 rs2 imm w s = .next t ∧ Effect s t := by
  rcases storeFrom_cases rs1 rs2 imm w s with ⟨h, e⟩ | ⟨_, e⟩
  · exact ⟨_, e, .stored _ _ _ h⟩
  · exact ⟨_, e, .panicked⟩

theorem branchIf_effect (c : Bool) (imm : BitVec 13) (s : State) : Effect s (branchIf c imm s) := by
  unfold branchIf
  split
  · exact .jumped _
  · exact .jumped _

/-- An instruction other than ECALL has a next state, and it is one of `Effect`'s. -/
theorem exec_effect (i : Instr) (s : State) (hi : i ≠ .ecall) : ∃ t, exec i s = .next t ∧ Effect s t := by
  cases i with
  | lb => exact loadInto_effect ..
  | lh => exact loadInto_effect ..
  | lw => exact loadInto_effect ..
  | ld => exact loadInto_effect ..
  | lbu => exact loadInto_effect ..
  | lhu => exact loadInto_effect ..
  | lwu => exact loadInto_effect ..
  | sb => exact storeFrom_effect ..
  | sh => exact storeFrom_effect ..
  | sw => exact storeFrom_effect ..
  | sd => exact storeFrom_effect ..
  | beq => exact ⟨_, rfl, branchIf_effect ..⟩
  | bne => exact ⟨_, rfl, branchIf_effect ..⟩
  | blt => exact ⟨_, rfl, branchIf_effect ..⟩
  | bge => exact ⟨_, rfl, branchIf_effect ..⟩
  | bltu => exact ⟨_, rfl, branchIf_effect ..⟩
  | bgeu => exact ⟨_, rfl, branchIf_effect ..⟩
  | jal => exact ⟨_, rfl, .linked _ _⟩
  | jalr => exact ⟨_, rfl, .linked _ _⟩
  | fence => exact ⟨_, rfl, .jumped _⟩
  | ebreak => exact ⟨_, rfl, .broke⟩
  | ecall => exact absurd rfl hi
  | _ => exact ⟨_, rfl, .retired _ _⟩

/-! ## ECALL -/

/-- What no action of a handler changes (`44_system.md` R238); and `running` only falls. -/
structure HandlerKeeps (s u : State) : Prop where
  pc : u.pc = s.pc
  exitCode : u.exitCode = s.exitCode
  syscalls : u.syscalls = s.syscalls
  exitCb : u.exitCb = s.exitCb
  panicCb : u.panicCb = s.panicCb
  draws : u.draws = s.draws
  handlerMoves : u.handlerMoves = s.handlerMoves
  callbackCalls : u.callbackCalls = s.callbackCalls
  outcome : u.outcome = s.outcome
  running : u.running = true → s.running = true
  wf : s.mem.wf = true → u.mem.wf = true

theorem HandlerKeeps.refl (s : State) : HandlerKeeps s s :=
  ⟨rfl, rfl, rfl, rfl, rfl, rfl, rfl, rfl, rfl, id, id⟩

theorem HandlerKeeps.trans {s t u : State} (h : HandlerKeeps s t) (k : HandlerKeeps t u) : HandlerKeeps s u :=
  ⟨k.pc.trans h.pc, k.exitCode.trans h.exitCode, k.syscalls.trans h.syscalls, k.exitCb.trans h.exitCb,
    k.panicCb.trans h.panicCb, k.draws.trans h.draws, k.handlerMoves.trans h.handlerMoves,
    k.callbackCalls.trans h.callbackCalls, k.outcome.trans h.outcome, fun r => h.running (k.running r),
    fun w => k.wf (h.wf w)⟩

/-- The state the actions of a handler leave, whether they ended or went out of range. -/
def ActionsEnd.state : ActionsEnd → State
  | .done s => s
  | .outOfRange s => s

theorem runActions_keeps (as : List HandlerAction) (s : State) : HandlerKeeps s (runActions as s).state := by
  induction as generalizing s with
  | nil => exact .refl s
  | cons a as ih =>
    cases a with
    | setReg r v =>
      refine HandlerKeeps.trans ?_ (ih _)
      exact ⟨by simp, by simp, by simp, by simp, by simp, by simp, by simp, by simp, by simp, by simp, by simp⟩
    | readMem a w =>
      rcases memRead_cases s a w with ⟨_, e⟩ | ⟨_, e⟩ <;> simp only [runActions, e]
      · exact ih s
      · exact .refl s
    | writeMem a w v =>
      rcases memWrite_cases s a w v with ⟨hr, e⟩ | ⟨_, e⟩ <;> simp only [runActions, e]
      · refine HandlerKeeps.trans (t := written s a w v) ?_ (ih _)
        exact ⟨rfl, rfl, rfl, rfl, rfl, rfl, rfl, rfl, rfl, id, fun h => written_wf s a w v h hr⟩
      · exact .refl s
    | stop =>
      refine HandlerKeeps.trans (t := { s with running := false }) ?_ (ih _)
      exact ⟨rfl, rfl, rfl, rfl, rfl, rfl, rfl, rfl, rfl, fun h => (nomatch h), id⟩

/-- Where a handler's move comes from: the host's list, or the free value when it is empty. -/
theorem nextMove_cases (h : HandlerId) (s : State) :
    (∃ m rest, s.handlerMoves = m :: rest ∧ nextMove h s = (m, { s with handlerMoves := rest })) ∨
    (s.handlerMoves = [] ∧
      nextMove h s = (.returns (Config.handlerReturn s.draws h (handlerView s)), { s with draws := s.draws + 1 })) := by
  unfold nextMove
  cases s.handlerMoves with
  | nil => exact .inr ⟨rfl, rfl⟩
  | cons m rest => exact .inl ⟨m, rest, rfl, rfl⟩

/-- The choice of a handler's move changes only which choice comes next. -/
theorem nextMove_keeps (h : HandlerId) (s : State) :
    ∃ moves draws, (nextMove h s).2 = { s with handlerMoves := moves, draws := draws } := by
  rcases nextMove_cases h s with ⟨m, rest, _, e⟩ | ⟨_, e⟩ <;> rw [e]
  · exact ⟨_, _, rfl⟩
  · exact ⟨_, _, rfl⟩

/-- Everything an ECALL can do (`44_system.md` R231 to R234). -/
theorem execEcall_cases (s : State) :
    (s.reg regA7 = 0#64 ∧ execEcall s = .next (exitSyscall s)) ∨
    (s.reg regA7 ≠ 0#64 ∧ SyscallTable.find s.syscalls (s.reg regA7).toNat = none ∧
      execEcall s = .next (takePanic .invalidSyscall s)) ∨
    (∃ h, s.reg regA7 ≠ 0#64 ∧ SyscallTable.find s.syscalls (s.reg regA7).toNat = some h ∧
      execEcall s = callHandler h s) := by
  unfold execEcall
  by_cases hc : s.reg regA7 = 0#64
  · exact .inl ⟨hc, by simp [hc]⟩
  · cases hf : SyscallTable.find s.syscalls (s.reg regA7).toNat with
    | none => exact .inr (.inl ⟨hc, rfl, by simp [hc, hf]⟩)
    | some h => exact .inr (.inr ⟨h, hc, rfl, by simp [hc, hf]⟩)

/-- Everything the call of a handler can do (R233, R238). -/
theorem callHandler_cases (h : HandlerId) (s : State) :
    (∃ rest, s.handlerMoves = .hangs :: rest ∧ callHandler h s = .fault (.handlerNeverReturns h)) ∨
    (∃ r t u, nextMove h s = (.returns r, t) ∧ runActions r.actions t = .done u ∧
      callHandler h s = .next (finishHandler r.result u)) ∨
    (∃ r t u, nextMove h s = (.returns r, t) ∧ runActions r.actions t = .outOfRange u ∧
      callHandler h s = .next (takePanic .outOfRange u)) := by
  unfold callHandler
  rcases e : nextMove h s with ⟨m, t⟩
  cases m with
  | hangs =>
    left
    unfold nextMove at e
    split at e
    · next m rest hm => cases e; exact ⟨rest, hm, rfl⟩
    · cases e
  | returns r =>
    right
    cases hu : runActions r.actions t with
    | done u => exact .inl ⟨r, t, u, rfl, hu, by simp [hu]⟩
    | outOfRange u => exact .inr ⟨r, t, u, rfl, hu, by simp [hu]⟩

/-! ## The step -/

/-- Everything a step can do (`30_encoding.md` R120). -/
theorem step_cases (s : State) :
    (s.running = false ∧ step s = .next s) ∨
    (s.running = true ∧ ¬ s.pc.toNat + 4 ≤ 65536 ∧ step s = .next (takePanic .outOfRange s)) ∨
    (∃ w r, s.running = true ∧ fetch s = .ok w ∧ decode w = .error r ∧ step s = .next (takePanic r s)) ∨
    (∃ w i, s.running = true ∧ fetch s = .ok w ∧ decode w = .ok i ∧ step s = exec i s) := by
  unfold step
  cases hr : s.running with
  | false => exact .inl ⟨rfl, by simp⟩
  | true =>
    right
    by_cases hp : s.pc.toNat + 4 ≤ 65536
    · right
      rw [fetch_inRange hp]
      cases hd : decode (BitVec.setWidth 32 (s.mem.readBytes s.pc.toNat 4)) with
      | error r => exact .inl ⟨_, r, rfl, rfl, hd, by simp [hd]⟩
      | ok i => exact .inr ⟨_, i, rfl, rfl, hd, by simp [hd]⟩
    · exact .inl ⟨rfl, hp, by simp [fetch_outOfRange hp]⟩

end Sys2Proof.Machine
end

