-- ==== Sys2Proof/Tests/Slice0.lean ====
section
/-! SUPPORT. The model's own tests. Every expected value is the spec's: the examples of the instruction rules (R131 to
R236) and the vectors of `95_test_vectors.md`; none is the model's answer. Then one witness for each statement's
hypotheses, every clause at a boundary. -/

namespace Sys2Proof.Tests

open Sys2Proof.Machine Sys2Proof.Claims

/-! ## Small states -/

/-- A running block at `pc` with the given registers and arena, and the word at its pc. -/
def place (pc : Word) (regs : List (RegIdx × Word)) (mem : Memory) (w : Nat) : State :=
  (regs.foldl (fun (s : State) p => s.setReg p.1 p.2) { State.reset with pc := pc, mem := mem }).withFetchWord 32 w

/-- One register and the pc after a step. -/
def after (s : State) (r : RegIdx) : Option (Word × Word) :=
  match step s with
  | .next t => some (t.reg r, t.pc)
  | _ => none

/-- Bytes of the arena and the pc after a step. -/
def bytesAfter (s : State) (addrs : List Nat) : Option (List Byte × Word) :=
  match step s with
  | .next t => some (addrs.map t.byte, t.pc)
  | _ => none

/-- How the run stands after a step: outcome, exit code, calls made, x10. -/
def endAfter (s : State) : Option (Option RunOutcome × Int × List CallbackCall × Word) :=
  match step s with
  | .next t => if t.running then none else some (t.outcome, t.exitCode, t.callbackCalls, t.reg 10#5)
  | _ => none

/-- Bytes at 0x2000 to 0x2008 and at 0xFFFF (`95_test_vectors.md` 2.1). -/
def ramp : Memory :=
  [(0x2000, 0x80#8), (0x2001, 0x81#8), (0x2002, 0x82#8), (0x2003, 0x83#8), (0x2004, 0x84#8), (0x2005, 0x85#8),
    (0x2006, 0x86#8), (0x2007, 0x87#8), (0x2008, 0x88#8), (0xFFFF, 0x7F#8)]

/-! ## WellFormed: an ill-formed term for each check is refused -/

theorem test_illFormed_upper :
    (Instr.lui 5#5 0x12345001#32).wellFormed = false ∧ (Instr.auipc 5#5 0x00000800#32).wellFormed = false := by decide

theorem test_illFormed_jal : (Instr.jal 1#5 1#21).wellFormed = false ∧ (Instr.jal 1#5 0x1FFFFF#21).wellFormed = false := by
  decide

theorem test_illFormed_branch :
    (Instr.beq 5#5 6#5 1#13).wellFormed = false ∧ (Instr.bne 5#5 6#5 3#13).wellFormed = false ∧
    (Instr.blt 5#5 6#5 5#13).wellFormed = false ∧ (Instr.bge 5#5 6#5 7#13).wellFormed = false ∧
    (Instr.bltu 5#5 6#5 9#13).wellFormed = false ∧ (Instr.bgeu 5#5 6#5 0x1FFF#13).wellFormed = false := by decide

/-! ## Decoding: a word of every instruction, written out from its encoding (R92 to R105) -/

theorem test_decode_load :
    decode 0x00008283#32 = .ok (.lb 5#5 1#5 0#12) ∧
    decode 0x00009283#32 = .ok (.lh 5#5 1#5 0#12) ∧
    decode 0xFF10A283#32 = .ok (.lw 5#5 1#5 0xFF1#12) ∧
    decode 0x0000B283#32 = .ok (.ld 5#5 1#5 0#12) ∧
    decode 0x0000C283#32 = .ok (.lbu 5#5 1#5 0#12) ∧
    decode 0xFF10D283#32 = .ok (.lhu 5#5 1#5 0xFF1#12) ∧
    decode 0x0000E283#32 = .ok (.lwu 5#5 1#5 0#12) := by decide

theorem test_decode_store :
    decode 0x006280A3#32 = .ok (.sb 5#5 6#5 1#12) ∧
    decode 0x00609123#32 = .ok (.sh 1#5 6#5 2#12) ∧
    decode 0x0060A223#32 = .ok (.sw 1#5 6#5 4#12) ∧
    decode 0xFE60BC23#32 = .ok (.sd 1#5 6#5 0xFF8#12) := by decide

theorem test_decode_opImm :
    decode 0xFFF30293#32 = .ok (.addi 5#5 6#5 0xFFF#12) ∧
    decode 0x03F31293#32 = .ok (.slli 5#5 6#5 63#6) ∧
    decode 0xFFF32293#32 = .ok (.slti 5#5 6#5 0xFFF#12) ∧
    decode 0x00133293#32 = .ok (.sltiu 5#5 6#5 1#12) ∧
    decode 0x0F034293#32 = .ok (.xori 5#5 6#5 0x0F0#12) ∧
    decode 0x00435293#32 = .ok (.srli 5#5 6#5 4#6) ∧
    decode 0x43F35293#32 = .ok (.srai 5#5 6#5 63#6) ∧
    decode 0x80036293#32 = .ok (.ori 5#5 6#5 0x800#12) ∧
    decode 0x0FF37293#32 = .ok (.andi 5#5 6#5 0x0FF#12) := by decide

theorem test_decode_opImm32 :
    decode 0x0013029B#32 = .ok (.addiw 5#5 6#5 1#12) ∧
    decode 0x01F3129B#32 = .ok (.slliw 5#5 6#5 31#5) ∧
    decode 0x0043529B#32 = .ok (.srliw 5#5 6#5 4#5) ∧
    decode 0x41F3529B#32 = .ok (.sraiw 5#5 6#5 31#5) := by decide

theorem test_decode_op :
    decode 0x007302B3#32 = .ok (.add 5#5 6#5 7#5) ∧
    decode 0x407302B3#32 = .ok (.sub 5#5 6#5 7#5) ∧
    decode 0x007312B3#32 = .ok (.sll 5#5 6#5 7#5) ∧
    decode 0x007322B3#32 = .ok (.slt 5#5 6#5 7#5) ∧
    decode 0x007332B3#32 = .ok (.sltu 5#5 6#5 7#5) ∧
    decode 0x007342B3#32 = .ok (.xor 5#5 6#5 7#5) ∧
    decode 0x007352B3#32 = .ok (.srl 5#5 6#5 7#5) ∧
    decode 0x407352B3#32 = .ok (.sra 5#5 6#5 7#5) ∧
    decode 0x007362B3#32 = .ok (.or 5#5 6#5 7#5) ∧
    decode 0x007372B3#32 = .ok (.and 5#5 6#5 7#5) ∧
    decode 0x027302B3#32 = .ok (.mul 5#5 6#5 7#5) ∧
    decode 0x027312B3#32 = .ok (.mulh 5#5 6#5 7#5) ∧
    decode 0x027322B3#32 = .ok (.mulhsu 5#5 6#5 7#5) ∧
    decode 0x027332B3#32 = .ok (.mulhu 5#5 6#5 7#5) ∧
    decode 0x027342B3#32 = .ok (.div 5#5 6#5 7#5) ∧
    decode 0x027352B3#32 = .ok (.divu 5#5 6#5 7#5) ∧
    decode 0x027362B3#32 = .ok (.rem 5#5 6#5 7#5) ∧
    decode 0x027372B3#32 = .ok (.remu 5#5 6#5 7#5) := by decide

theorem test_decode_op32 :
    decode 0x007302BB#32 = .ok (.addw 5#5 6#5 7#5) ∧
    decode 0x407302BB#32 = .ok (.subw 5#5 6#5 7#5) ∧
    decode 0x007312BB#32 = .ok (.sllw 5#5 6#5 7#5) ∧
    decode 0x007352BB#32 = .ok (.srlw 5#5 6#5 7#5) ∧
    decode 0x407352BB#32 = .ok (.sraw 5#5 6#5 7#5) ∧
    decode 0x027302BB#32 = .ok (.mulw 5#5 6#5 7#5) ∧
    decode 0x027342BB#32 = .ok (.divw 5#5 6#5 7#5) ∧
    decode 0x027352BB#32 = .ok (.divuw 5#5 6#5 7#5) ∧
    decode 0x027362BB#32 = .ok (.remw 5#5 6#5 7#5) ∧
    decode 0x027372BB#32 = .ok (.remuw 5#5 6#5 7#5) := by decide

theorem test_decode_control :
    decode 0x123452B7#32 = .ok (.lui 5#5 0x12345000#32) ∧
    decode 0x80000297#32 = .ok (.auipc 5#5 0x80000000#32) ∧
    decode 0x7FF7F0EF#32 = .ok (.jal 1#5 0x07FFFE#21) ∧
    decode 0x800FF2EF#32 = .ok (.jal 5#5 0x1FF000#21) ∧
    decode 0x003300E7#32 = .ok (.jalr 1#5 6#5 3#12) ∧
    decode 0x7E000FE3#32 = .ok (.beq 0#5 0#5 0x0FFE#13) ∧
    decode 0x00629463#32 = .ok (.bne 5#5 6#5 8#13) ∧
    decode 0xFE62C8E3#32 = .ok (.blt 5#5 6#5 0x1FF0#13) ∧
    decode 0xFE62D8E3#32 = .ok (.bge 5#5 6#5 0x1FF0#13) ∧
    decode 0xFE62E8E3#32 = .ok (.bltu 5#5 6#5 0x1FF0#13) ∧
    decode 0xFE62F8E3#32 = .ok (.bgeu 5#5 6#5 0x1FF0#13) := by decide

theorem test_decode_system :
    decode 0x0FF0000F#32 = .ok .fence ∧ decode 0x00000073#32 = .ok .ecall ∧ decode 0x00100073#32 = .ok .ebreak := by
  decide

/-- Ignored fields (R108): FENCE.I, an SLLI with funct6 1, a JALR with funct3 5, an ECALL with rd 5. -/
theorem test_decode_ignoredFields :
    decode 0x0000100F#32 = .ok .fence ∧ decode 0x04431293#32 = .ok (.slli 5#5 6#5 4#6) ∧
    decode 0x003350E7#32 = .ok (.jalr 1#5 6#5 3#12) ∧ decode 0x000002F3#32 = .ok .ecall := by decide

theorem test_decode_illegal :
    decode 0x0000F283#32 = .error .invalidFunct ∧ decode 0x0060C023#32 = .error .invalidFunct ∧
    decode 0x80435293#32 = .error .invalidFunct ∧ decode 0x0213129B#32 = .error .invalidFunct ∧
    decode 0x0013229B#32 = .error .invalidFunct ∧ decode 0x407312B3#32 = .error .invalidFunct ∧
    decode 0x047302B3#32 = .error .invalidFunct ∧ decode 0x027312BB#32 = .error .invalidFunct ∧
    decode 0x0062A463#32 = .error .invalidFunct ∧ decode 0x30200073#32 = .error .invalidSystem ∧
    decode 0x0062A2AF#32 = .error .invalidOpcode ∧ decode 0x00004501#32 = .error .invalidOpcode := by decide

/-- The first byte is the lowest (R66). -/
theorem test_decode_bytes : decodeBytes 0x13#8 0x05#8 0xA0#8 0x02#8 = .ok (.addi 10#5 0#5 42#12) := by decide

theorem test_encode_fence : encode .fence = 0x0FF0000F#32 ∧ encode .ecall = 0x00000073#32 := by decide

/-- The table of R34: both names of x8, the ends of each range, and the roles R33 gives a number to. -/
theorem test_abiRegister :
    ["zero", "ra", "sp", "gp", "tp", "t0", "t2", "s0", "fp", "s1", "a0", "a7", "s2", "s11", "t3", "t6", "x1"].map abiRegister =
      [some 0#5, some 1#5, some regSp, some 3#5, some 4#5, some 5#5, some 7#5, some 8#5, some 8#5, some 9#5, some regA0,
        some regA7, some 18#5, some 27#5, some 28#5, some 31#5, none] := by decide

/-! ## One step of each instruction -/

theorem test_lb :
    after (place 0x1000#64 [(1#5, 0x2000#64)] ramp 0x00008283) 5#5 = some (0xFFFFFFFFFFFFFF80#64, 0x1004#64) := by decide

theorem test_lh :
    after (place 0x1000#64 [(1#5, 0x2000#64)] ramp 0x00009283) 5#5 = some (0xFFFFFFFFFFFF8180#64, 0x1004#64) := by decide

theorem test_lw :
    after (place 0x1000#64 [(1#5, 0x2000#64)] ramp 0x0000A283) 5#5 = some (0xFFFFFFFF83828180#64, 0x1004#64) := by decide

theorem test_ld :
    after (place 0x1000#64 [(1#5, 0x2000#64)] ramp 0x0000B283) 5#5 = some (0x8786858483828180#64, 0x1004#64) := by decide

theorem test_lbu :
    after (place 0x1000#64 [(1#5, 0x2000#64)] ramp 0x0000C283) 5#5 = some (0x80#64, 0x1004#64) := by decide

theorem test_lhu :
    after (place 0x1000#64 [(1#5, 0x2000#64)] ramp 0x0000D283) 5#5 = some (0x8180#64, 0x1004#64) := by decide

theorem test_lwu :
    after (place 0x1000#64 [(1#5, 0x2000#64)] ramp 0x0000E283) 5#5 = some (0x83828180#64, 0x1004#64) := by decide

theorem test_lh_misaligned :
    after (place 0x1000#64 [(1#5, 0x2010#64)] ramp 0xFF109283) 5#5 = some (0xFFFFFFFFFFFF8281#64, 0x1004#64) := by decide

theorem test_ld_outOfRange :
    endAfter (place 0x1000#64 [(1#5, 0xFFF9#64)] ramp 0x0000B283) = some (some (.panicked .outOfRange), -1, [], 0#64) := by
  decide

/-- No wrap-around, and the access is made for rd = x0 too. -/
theorem test_lb_x0_outOfRange :
    endAfter (place 0x1000#64 [(1#5, 0xFFFFFFFFFFFFFFFF#64)] ramp 0x00008003) =
      some (some (.panicked .outOfRange), -1, [], 0#64) := by decide

theorem test_sb :
    bytesAfter (place 0x1000#64 [(1#5, 0x2000#64), (6#5, 0x1122334455667788#64)] ramp 0x00608023) [0x2000, 0x2001] =
      some ([0x88#8, 0x81#8], 0x1004#64) := by decide

theorem test_sh :
    bytesAfter (place 0x1000#64 [(1#5, 0x2003#64), (6#5, 0x1122334455667788#64)] ramp 0x00609023) [0x2002, 0x2003, 0x2004, 0x2005] =
      some ([0x82#8, 0x88#8, 0x77#8, 0x85#8], 0x1004#64) := by decide

theorem test_sw :
    bytesAfter (place 0x1000#64 [(1#5, 0x2003#64), (6#5, 0x1122334455667788#64)] ramp 0x0060A023) [0x2002, 0x2003, 0x2004, 0x2005, 0x2006, 0x2007] =
      some ([0x82#8, 0x88#8, 0x77#8, 0x66#8, 0x55#8, 0x87#8], 0x1004#64) := by decide

theorem test_sd :
    bytesAfter (place 0x1000#64 [(1#5, 0x10000#64), (6#5, 0x1122334455667788#64)] ramp 0xFE60BC23) [0xFFF7, 0xFFF8, 0xFFFE, 0xFFFF] =
      some ([0x00#8, 0x88#8, 0x22#8, 0x11#8], 0x1004#64) := by decide

/-- No byte is written, not even the one in range. -/
theorem test_sh_outOfRange :
    (match step (place 0x1000#64 [(1#5, 0xFFFF#64), (6#5, 0x7788#64)] ramp 0x00609023) with
      | .next t => some (t.byte 0xFFFF, t.exitCode, t.running)
      | _ => none) = some (0x7F#8, -1, false) := by decide

theorem test_addi :
    after (place 0x1000#64 [(6#5, 0#64)] [] 0xFFF30293) 5#5 = some (0xFFFFFFFFFFFFFFFF#64, 0x1004#64) := by decide

theorem test_slli :
    after (place 0x1000#64 [(6#5, 1#64)] [] 0x03F31293) 5#5 = some (0x8000000000000000#64, 0x1004#64) := by decide

theorem test_slti :
    after (place 0x1000#64 [(6#5, 0xFFFFFFFFFFFFFFFE#64)] [] 0xFFF32293) 5#5 = some (1#64, 0x1004#64) := by decide

theorem test_sltiu :
    after (place 0x1000#64 [(6#5, 5#64)] [] 0xFFF33293) 5#5 = some (1#64, 0x1004#64) := by decide

theorem test_xori :
    after (place 0x1000#64 [(6#5, 0xF#64)] [] 0xFFF34293) 5#5 = some (0xFFFFFFFFFFFFFFF0#64, 0x1004#64) := by decide

theorem test_srli :
    after (place 0x1000#64 [(6#5, 0x8000000000000000#64)] [] 0x00435293) 5#5 = some (0x800000000000000#64, 0x1004#64) := by decide

theorem test_srai :
    after (place 0x1000#64 [(6#5, 0x8000000000000000#64)] [] 0x43F35293) 5#5 = some (0xFFFFFFFFFFFFFFFF#64, 0x1004#64) := by decide

theorem test_ori :
    after (place 0x1000#64 [(6#5, 0#64)] [] 0x80036293) 5#5 = some (0xFFFFFFFFFFFFF800#64, 0x1004#64) := by decide

theorem test_andi :
    after (place 0x1000#64 [(6#5, 0xFFFFFFFFFFFFFFFF#64)] [] 0xFF037293) 5#5 = some (0xFFFFFFFFFFFFFFF0#64, 0x1004#64) := by decide

theorem test_addiw :
    after (place 0x1000#64 [(6#5, 0x7FFFFFFF#64)] [] 0x0013029B) 5#5 = some (0xFFFFFFFF80000000#64, 0x1004#64) := by decide

theorem test_slliw :
    after (place 0x1000#64 [(6#5, 0xFFFFFFFF00000001#64)] [] 0x0043129B) 5#5 = some (0x10#64, 0x1004#64) := by decide

theorem test_srliw :
    after (place 0x1000#64 [(6#5, 0xFFFFFFFF80000000#64)] [] 0x0043529B) 5#5 = some (0x8000000#64, 0x1004#64) := by decide

theorem test_sraiw :
    after (place 0x1000#64 [(6#5, 0xFFFFFFFF7FFFFFFF#64)] [] 0x4003529B) 5#5 = some (0x7FFFFFFF#64, 0x1004#64) := by decide

theorem test_slti_min :
    after (place 0x1000#64 [(6#5, 0x8000000000000000#64)] [] 0x00032293) 5#5 = some (1#64, 0x1004#64) := by decide

theorem test_srai_positive :
    after (place 0x1000#64 [(6#5, 0x7FFFFFFFFFFFFFFF#64)] [] 0x43F35293) 5#5 = some (0#64, 0x1004#64) := by decide

theorem test_addi_x0 :
    after (place 0x1000#64 [(6#5, 0x29#64)] [] 0x00130013) 0#5 = some (0#64, 0x1004#64) := by decide

theorem test_slli_noncanonical :
    after (place 0x1000#64 [(6#5, 1#64)] [] 0x04431293) 5#5 = some (0x10#64, 0x1004#64) := by decide

theorem test_add :
    after (place 0x1000#64 [(6#5, 0xFFFFFFFFFFFFFFFF#64), (7#5, 1#64)] [] 0x007302B3) 5#5 = some (0#64, 0x1004#64) := by decide

theorem test_sub :
    after (place 0x1000#64 [(6#5, 0#64), (7#5, 1#64)] [] 0x407302B3) 5#5 = some (0xFFFFFFFFFFFFFFFF#64, 0x1004#64) := by decide

theorem test_sll :
    after (place 0x1000#64 [(6#5, 1#64), (7#5, 0x41#64)] [] 0x007312B3) 5#5 = some (2#64, 0x1004#64) := by decide

theorem test_slt :
    after (place 0x1000#64 [(6#5, 0xFFFFFFFFFFFFFFFF#64), (7#5, 0#64)] [] 0x007322B3) 5#5 = some (1#64, 0x1004#64) := by decide

theorem test_sltu :
    after (place 0x1000#64 [(6#5, 0xFFFFFFFFFFFFFFFF#64), (7#5, 0#64)] [] 0x007332B3) 5#5 = some (0#64, 0x1004#64) := by decide

theorem test_xor :
    after (place 0x1000#64 [(6#5, 0xF0F0#64), (7#5, 0xFF00#64)] [] 0x007342B3) 5#5 = some (0xFF0#64, 0x1004#64) := by decide

theorem test_srl :
    after (place 0x1000#64 [(6#5, 0xFFFFFFFFFFFFFFFF#64), (7#5, 0x41#64)] [] 0x007352B3) 5#5 = some (0x7FFFFFFFFFFFFFFF#64, 0x1004#64) := by decide

theorem test_sra :
    after (place 0x1000#64 [(6#5, 0x8000000000000000#64), (7#5, 0x3F#64)] [] 0x407352B3) 5#5 = some (0xFFFFFFFFFFFFFFFF#64, 0x1004#64) := by decide

theorem test_or :
    after (place 0x1000#64 [(6#5, 0xF0#64), (7#5, 0xF#64)] [] 0x007362B3) 5#5 = some (0xFF#64, 0x1004#64) := by decide

theorem test_and :
    after (place 0x1000#64 [(6#5, 0xFF0#64), (7#5, 0xFF#64)] [] 0x007372B3) 5#5 = some (0xF0#64, 0x1004#64) := by decide

theorem test_mul :
    after (place 0x1000#64 [(6#5, 0xFFFFFFFFFFFFFFFF#64), (7#5, 3#64)] [] 0x027302B3) 5#5 = some (0xFFFFFFFFFFFFFFFD#64, 0x1004#64) := by decide

theorem test_mulh :
    after (place 0x1000#64 [(6#5, 0x8000000000000000#64), (7#5, 0x7FFFFFFFFFFFFFFF#64)] [] 0x027312B3) 5#5 = some (0xC000000000000000#64, 0x1004#64) := by decide

theorem test_mulhsu :
    after (place 0x1000#64 [(6#5, 2#64), (7#5, 0xFFFFFFFFFFFFFFFF#64)] [] 0x027322B3) 5#5 = some (1#64, 0x1004#64) := by decide

theorem test_mulhu :
    after (place 0x1000#64 [(6#5, 0xFFFFFFFFFFFFFFFF#64), (7#5, 0xFFFFFFFFFFFFFFFF#64)] [] 0x027332B3) 5#5 = some (0xFFFFFFFFFFFFFFFE#64, 0x1004#64) := by decide

theorem test_div :
    after (place 0x1000#64 [(6#5, 0xFFFFFFFFFFFFFFF9#64), (7#5, 2#64)] [] 0x027342B3) 5#5 = some (0xFFFFFFFFFFFFFFFD#64, 0x1004#64) := by decide

theorem test_divu :
    after (place 0x1000#64 [(6#5, 0x8000000000000000#64), (7#5, 0xFFFFFFFFFFFFFFFF#64)] [] 0x027352B3) 5#5 = some (0#64, 0x1004#64) := by decide

theorem test_rem :
    after (place 0x1000#64 [(6#5, 7#64), (7#5, 0xFFFFFFFFFFFFFFFE#64)] [] 0x027362B3) 5#5 = some (1#64, 0x1004#64) := by decide

theorem test_remu :
    after (place 0x1000#64 [(6#5, 0xFFFFFFFFFFFFFFFF#64), (7#5, 0xA#64)] [] 0x027372B3) 5#5 = some (5#64, 0x1004#64) := by decide

theorem test_mulhsu_negative :
    after (place 0x1000#64 [(6#5, 0xFFFFFFFFFFFFFFFF#64), (7#5, 0xFFFFFFFFFFFFFFFF#64)] [] 0x027322B3) 5#5 = some (0xFFFFFFFFFFFFFFFF#64, 0x1004#64) := by decide

theorem test_div_corners :
    after (place 0x1000#64 [(6#5, 7#64), (7#5, 0#64)] [] 0x027342B3) 5#5 = some (0xFFFFFFFFFFFFFFFF#64, 0x1004#64) ∧
    after (place 0x1000#64 [(6#5, 0x8000000000000000#64), (7#5, 0xFFFFFFFFFFFFFFFF#64)] [] 0x027342B3) 5#5 = some (0x8000000000000000#64, 0x1004#64) := by decide

theorem test_divu_zero :
    after (place 0x1000#64 [(6#5, 7#64), (7#5, 0#64)] [] 0x027352B3) 5#5 = some (0xFFFFFFFFFFFFFFFF#64, 0x1004#64) := by decide

theorem test_rem_corners :
    after (place 0x1000#64 [(6#5, 0xFFFFFFFFFFFFFFF9#64), (7#5, 0#64)] [] 0x027362B3) 5#5 = some (0xFFFFFFFFFFFFFFF9#64, 0x1004#64) ∧
    after (place 0x1000#64 [(6#5, 0x8000000000000000#64), (7#5, 0xFFFFFFFFFFFFFFFF#64)] [] 0x027362B3) 5#5 = some (0#64, 0x1004#64) := by decide

theorem test_remu_zero :
    after (place 0x1000#64 [(6#5, 7#64), (7#5, 0#64)] [] 0x027372B3) 5#5 = some (7#64, 0x1004#64) := by decide

theorem test_addw :
    after (place 0x1000#64 [(6#5, 0xFFFFFFFF00000001#64), (7#5, 0x100000002#64)] [] 0x007302BB) 5#5 = some (3#64, 0x1004#64) := by decide

theorem test_subw :
    after (place 0x1000#64 [(6#5, 0x80000000#64), (7#5, 1#64)] [] 0x407302BB) 5#5 = some (0x7FFFFFFF#64, 0x1004#64) := by decide

theorem test_sllw :
    after (place 0x1000#64 [(6#5, 1#64), (7#5, 0x21#64)] [] 0x007312BB) 5#5 = some (2#64, 0x1004#64) := by decide

theorem test_srlw :
    after (place 0x1000#64 [(6#5, 0x80000000#64), (7#5, 0x20#64)] [] 0x007352BB) 5#5 = some (0xFFFFFFFF80000000#64, 0x1004#64) := by decide

theorem test_sraw :
    after (place 0x1000#64 [(6#5, 0xFFFFFFFF40000000#64), (7#5, 1#64)] [] 0x407352BB) 5#5 = some (0x20000000#64, 0x1004#64) := by decide

theorem test_mulw :
    after (place 0x1000#64 [(6#5, 0x8000#64), (7#5, 0x10000#64)] [] 0x027302BB) 5#5 = some (0xFFFFFFFF80000000#64, 0x1004#64) := by decide

theorem test_divw :
    after (place 0x1000#64 [(6#5, 0x80000000#64), (7#5, 0xFFFFFFFFFFFFFFFF#64)] [] 0x027342BB) 5#5 = some (0xFFFFFFFF80000000#64, 0x1004#64) := by decide

theorem test_divuw :
    after (place 0x1000#64 [(6#5, 0xFFFFFFFE#64), (7#5, 1#64)] [] 0x027352BB) 5#5 = some (0xFFFFFFFFFFFFFFFE#64, 0x1004#64) := by decide

theorem test_remw :
    after (place 0x1000#64 [(6#5, 0xFFFFFFFFFFFFFFF9#64), (7#5, 2#64)] [] 0x027362BB) 5#5 = some (0xFFFFFFFFFFFFFFFF#64, 0x1004#64) := by decide

theorem test_remuw :
    after (place 0x1000#64 [(6#5, 0xFFFFFFFF#64), (7#5, 0x100000010#64)] [] 0x027372BB) 5#5 = some (0xF#64, 0x1004#64) := by decide

theorem test_divw_zero :
    after (place 0x1000#64 [(6#5, 0x100000007#64), (7#5, 0x100000000#64)] [] 0x027342BB) 5#5 = some (0xFFFFFFFFFFFFFFFF#64, 0x1004#64) := by decide

theorem test_divuw_zero :
    after (place 0x1000#64 [(6#5, 7#64), (7#5, 0#64)] [] 0x027352BB) 5#5 = some (0xFFFFFFFFFFFFFFFF#64, 0x1004#64) := by decide

theorem test_remw_zero :
    after (place 0x1000#64 [(6#5, 0x80000007#64), (7#5, 0#64)] [] 0x027362BB) 5#5 = some (0xFFFFFFFF80000007#64, 0x1004#64) := by decide

theorem test_remuw_zero :
    after (place 0x1000#64 [(6#5, 0x80000005#64), (7#5, 0#64)] [] 0x027372BB) 5#5 = some (0xFFFFFFFF80000005#64, 0x1004#64) := by decide

theorem test_sub_same :
    after (place 0x1000#64 [(6#5, 0x4D2#64)] [] 0x40630333) 6#5 = some (0#64, 0x1004#64) := by decide

theorem test_lui :
    after (place 0x1000#64 [] [] 0x800002B7) 5#5 = some (0xFFFFFFFF80000000#64, 0x1004#64) := by decide

theorem test_auipc :
    after (place 0x1000#64 [] [] 0x80000297) 5#5 = some (0xFFFFFFFF80001000#64, 0x1004#64) := by decide

theorem test_jal :
    after (place 0x1000#64 [] [] 0x006000EF) 1#5 = some (0x1004#64, 0x1006#64) := by decide

theorem test_jal_back :
    after (place 0x1000#64 [] [] 0xFF9FF06F) 0#5 = some (0#64, 0xFF8#64) := by decide

theorem test_jalr :
    after (place 0x1000#64 [(6#5, 0x2000#64)] [] 0xFFF302E7) 5#5 = some (0x1004#64, 0x1FFE#64) := by decide

theorem test_jalr_same :
    after (place 0x1000#64 [(1#5, 0x2000#64)] [] 0x004080E7) 1#5 = some (0x1004#64, 0x2004#64) := by decide

theorem test_beq :
    after (place 0x1000#64 [(5#5, 5#64), (6#5, 5#64)] [] 0x00628463) 5#5 = some (5#64, 0x1008#64) := by decide

theorem test_bne :
    after (place 0x1000#64 [(5#5, 5#64), (6#5, 5#64)] [] 0x00629463) 5#5 = some (5#64, 0x1004#64) := by decide

theorem test_blt :
    after (place 0x1000#64 [(5#5, 0xFFFFFFFFFFFFFFFF#64), (6#5, 0#64)] [] 0x0062C463) 5#5 = some (0xFFFFFFFFFFFFFFFF#64, 0x1008#64) := by decide

theorem test_bge :
    after (place 0x1000#64 [(5#5, 5#64), (6#5, 5#64)] [] 0x0062D463) 5#5 = some (5#64, 0x1008#64) := by decide

theorem test_bltu :
    after (place 0x1000#64 [(5#5, 0xFFFFFFFFFFFFFFFF#64), (6#5, 0#64)] [] 0x0062E463) 5#5 = some (0xFFFFFFFFFFFFFFFF#64, 0x1004#64) := by decide

theorem test_bgeu :
    after (place 0x1000#64 [(5#5, 0xFFFFFFFFFFFFFFFF#64), (6#5, 0#64)] [] 0x0062F463) 5#5 = some (0xFFFFFFFFFFFFFFFF#64, 0x1008#64) := by decide

theorem test_beq_other :
    after (place 0x1000#64 [(5#5, 0xFFFFFFFFFFFFFFFF#64), (6#5, 0#64)] [] 0x00628463) 5#5 = some (0xFFFFFFFFFFFFFFFF#64, 0x1004#64) := by decide

theorem test_bne_other :
    after (place 0x1000#64 [(5#5, 0#64), (6#5, 0xFFFFFFFFFFFFFFFF#64)] [] 0x00629463) 5#5 = some (0#64, 0x1008#64) := by decide

theorem test_blt_other :
    after (place 0x1000#64 [(5#5, 5#64), (6#5, 5#64)] [] 0x0062C463) 5#5 = some (5#64, 0x1004#64) := by decide

theorem test_bge_other :
    after (place 0x1000#64 [(5#5, 0x8000000000000000#64), (6#5, 0x7FFFFFFFFFFFFFFF#64)] [] 0x0062D463) 5#5 = some (0x8000000000000000#64, 0x1004#64) := by decide

theorem test_bltu_other :
    after (place 0x1000#64 [(5#5, 0#64), (6#5, 0xFFFFFFFFFFFFFFFF#64)] [] 0x0062E463) 5#5 = some (0#64, 0x1008#64) := by decide

theorem test_bgeu_other :
    after (place 0x1000#64 [(5#5, 5#64), (6#5, 6#64)] [] 0x0062F463) 5#5 = some (5#64, 0x1004#64) := by decide

theorem test_fence :
    after (place 0x1000#64 [(5#5, 3#64)] [] 0x0FF0000F) 5#5 = some (3#64, 0x1004#64) := by decide

theorem test_fetch_lastWord :
    after (place 0xFFFC#64 [] [] 0x00000013) 0#5 = some (0#64, 0x10000#64) := by decide

theorem test_fetch_misaligned :
    after (place 0x1002#64 [] [] 0x02A00513) 10#5 = some (0x2A#64, 0x1006#64) := by decide

/-! ## ECALL, EBREAK and panics -/

/-- The exit syscall calls the exit callback once; an unregistered code panics and leaves x10. -/
theorem test_ecall_exit_or_panic :
    endAfter { place 0x1000#64 [(10#5, 0xFFFFFFFFFFFFFFFF#64)] [] 0x00000073 with exitCb := some ⟨1⟩ } =
      some (some (.exited 0xFFFFFFFFFFFFFFFF#64), -1, [.exit ⟨1⟩ 0xFFFFFFFFFFFFFFFF#64], 0xFFFFFFFFFFFFFFFF#64) ∧
    endAfter { place 0x1000#64 [(10#5, 9#64), (17#5, 3#64)] [] 0x00000073 with panicCb := some ⟨2⟩ } =
      some (some (.panicked .invalidSyscall), -1, [.panic ⟨2⟩ "invalid system call"], 9#64) := by decide

/-- The handler's result replaces what it wrote to x10 itself; one that calls `stop()` ends the run. -/
theorem test_ecall_handler :
    after { place 0x1000#64 [(10#5, 9#64), (17#5, 5#64)] [] 0x00000073 with
        syscalls := [(5, ⟨7⟩)]
        handlerMoves := [.returns ⟨[.setReg 10#5 1#64, .setReg 0#5 1#64], 0x2A#64⟩] } 10#5 = some (0x2A#64, 0x1004#64) ∧
    endAfter { place 0x1000#64 [(10#5, 9#64), (17#5, 6#64)] [] 0x00000073 with
        syscalls := [(6, ⟨7⟩)]
        handlerMoves := [.returns ⟨[.stop], 7#64⟩] } = some (some .stopped, 0, [], 7#64) := by decide

theorem test_ebreak :
    endAfter { place 0x1000#64 [(10#5, 5#64)] [] 0x00100073 with exitCb := some ⟨1⟩, panicCb := some ⟨2⟩ } =
      some (some .broke, -1, [], 5#64) ∧
    after (place 0x1000#64 [] [] 0x00100073) 10#5 = some (0#64, 0x1004#64) := by decide

/-- A fetch that crosses the end of the arena. -/
theorem test_fetch_outOfRange :
    endAfter { State.reset with pc := 0xFFFE#64, running := true, panicCb := some ⟨2⟩ } =
      some (some (.panicked .outOfRange), -1, [.panic ⟨2⟩ "out of range"], 0#64) := by decide

theorem test_run_zeroWord :
    endAfter (startRun State.reset) = some (some (.panicked .invalidOpcode), -1, [], 0#64) := by decide
/-! ## The host's side (R237 to R244, R291, R292) -/

/-- A load puts the bytes at 0x1000 and x2 at the top; the string at 0x1001 ends before the zero byte. -/
theorem test_load_and_read :
    (loadFromBytes [0x41#8, 0x48#8, 0x69#8, 0#8, 0x21#8] State.reset).2.reg 2#5 = 0x10000#64 ∧
    stringBytesAt 0x1001#64 (loadFromBytes [0x41#8, 0x48#8, 0x69#8, 0#8, 0x21#8] State.reset).2 = [0x48#8, 0x69#8] ∧
    (loadFromBytes [] State.reset).1 = false := by decide

theorem test_init_keeps_registers :
    (hostInit none none ((State.reset.setReg 5#5 3#64).setPc 0x2000#64)).reg 5#5 = 3#64 ∧
    (hostInit none none ((State.reset.setReg 5#5 3#64).setPc 0x2000#64)).pc = 0x1000#64 := by decide

/-- What the host asks: the row's instruction, and the first step after reset. -/
theorem test_withFetchWord :
    decodeTableWord 32 0x02A00513 = some (.addi 10#5 0#5 42#12) ∧
    after (State.reset.withFetchWord 32 0x02A00513) 10#5 = some (42#64, 0x1004#64) := by decide

/-! ## Witnesses: a state and operands that meet a statement's hypotheses, each clause at a boundary -/

/-- The word at the pc, by the four bytes there. -/
theorem fetches_of (s : State) (w : InstWord) (h : s.running = true) (hp : s.pc.toNat + 4 ≤ 65536)
    (hw : w.toNat = (s.byte s.pc.toNat).toNat + (s.byte (s.pc.toNat + 1)).toNat * 2 ^ 8 +
      (s.byte (s.pc.toNat + 2)).toNat * 2 ^ 16 + (s.byte (s.pc.toNat + 3)).toNat * 2 ^ 24) : Fetches s w := by
  refine ⟨h, hp, ?_⟩
  rw [hw]
  simp [littleEndian, Finset.sum_range_succ]

/-- A running block at 0xFFFC, the last address an instruction can be fetched from, with `w` there. -/
def lastWord (w : Nat) : State := place 0xFFFC#64 [] [] w

/-- A block about to run an ECALL of a registered code, with what the host does in it. -/
def calling (m : HandlerMove) : State :=
  { place 0x1000#64 [(17#5, 0xFFFFFFFFFFFFFFFF#64)] [] 0x00000073 with
    syscalls := [(0xFFFFFFFFFFFFFFFF, ⟨7⟩)]
    panicCb := some ⟨2⟩
    handlerMoves := [m] }

theorem invokes_calling (r : HandlerReturn) : Invokes (calling (.returns r)) r :=
  ⟨(by decide : (calling .hangs).reg 17#5 ≠ 0#64), ⟨7⟩,
    (by decide : getSystemCall ((calling .hangs).reg 17#5) (calling .hangs) = some ⟨7⟩), .inl ⟨[], rfl⟩⟩

/-- A state like one reached from reset: the host has listed no move, and the handler does the free value. -/
theorem witness_Invokes_freeValue :
    let s : State := { calling .hangs with handlerMoves := [] }
    Invokes s (Config.handlerReturn s.draws ⟨7⟩ (handlerView s)) := ⟨by decide, ⟨7⟩, by decide, .inr ⟨rfl, rfl⟩⟩

/-- What the free value does is covered whole: EcallRunsHandler and HandlerOutOfRangePanics split every handler that
returns. -/
theorem handler_inRange_or_failsAfter (r : HandlerReturn) :
    (∀ a ∈ r.actions, actionInRange a) ∨ ∃ before, FailsAfter r before := by
  suffices h : ∀ as : List HandlerAction, (∀ a ∈ as, actionInRange a) ∨
      ∃ before bad after, (∀ a ∈ before, actionInRange a) ∧ as = before ++ bad :: after ∧ ¬ actionInRange bad by
    rcases h r.actions with h | ⟨before, bad, after, hb, e, hn⟩
    · exact .inl h
    · exact .inr ⟨before, hb, bad, after, e, hn⟩
  intro as
  induction as with
  | nil => exact .inl (by simp)
  | cons a as ih =>
    by_cases ha : actionInRange a
    · rcases ih with h | ⟨before, bad, after, hb, e, hn⟩
      · exact .inl (by simpa [ha] using h)
      · exact .inr ⟨a :: before, bad, after, by simpa [ha] using hb, by rw [e]; rfl, hn⟩
    · exact .inr ⟨[], a, as, by simp, rfl, ha⟩

theorem witness_DecoderFollowsOpcodeTable :
    decode 0x04431293#32 = .ok (.slli 5#5 6#5 4#6) ∧
    0x04431293#32 &&& (Instr.slli 5#5 6#5 4#6).row.mask = (Instr.slli 5#5 6#5 4#6).row.fixed := by decide

theorem witness_DecodeOfEncode :
    (Instr.lui 31#5 0xFFFFF000#32).wellFormed = true ∧ (Instr.jal 1#5 0x100000#21).wellFormed = true ∧
    (Instr.beq 5#5 6#5 0x0FFE#13).wellFormed = true ∧ (Instr.srai 5#5 6#5 63#6).wellFormed = true ∧
    Instr.fence.wellFormed = true := by decide

theorem witness_CanonicalWordReencodes :
    decode 0x003300E7#32 = .ok (.jalr 1#5 6#5 3#12) ∧
    0x003300E7#32 &&& (Instr.jalr 1#5 6#5 3#12).row.canonicalMask = (Instr.jalr 1#5 6#5 3#12).row.canonicalFixed ∧
    decode 0x0330000F#32 = .ok .fence ∧ 0x0330000F#32 &&& Instr.fence.row.canonicalMask = Instr.fence.row.canonicalFixed := by
  decide

theorem witness_UnknownOpcodePanics :
    Fetches (lastWord 0xFFFFFFFF) 0xFFFFFFFF#32 ∧ decode 0xFFFFFFFF#32 = .error .invalidOpcode ∧
    (0x00004501#32 : InstWord).toNat % 4 ≠ 3 ∧ opcodeOf 0x00002007#32 = 0x07#7 ∧ opcodeOf 0x0000007B#32 = 0x7B#7 :=
  ⟨fetches_of _ _ (by decide) (by decide) (by decide), by decide, by decide, by decide, by decide⟩

theorem witness_IllegalSubfieldsPanic :
    (opcodeOf 0x0000F283#32 = 0x03#7 ∧ funct3Of 0x0000F283#32 = 7#3) ∧
    (opcodeOf 0x0060C023#32 = 0x23#7 ∧ funct3Of 0x0060C023#32 = 4#3) ∧
    (opcodeOf 0x0060F023#32 = 0x23#7 ∧ funct3Of 0x0060F023#32 = 7#3) ∧
    (opcodeOf 0x80435293#32 = 0x13#7 ∧ funct3Of 0x80435293#32 = 5#3 ∧ funct6Of 0x80435293#32 = 0b100000#6) ∧
    (opcodeOf 0x0013229B#32 = 0x1B#7 ∧ funct3Of 0x0013229B#32 = 2#3) ∧
    (opcodeOf 0x0213129B#32 = 0x1B#7 ∧ funct3Of 0x0213129B#32 = 1#3 ∧ funct7Of 0x0213129B#32 = 0x01#7) ∧
    (opcodeOf 0x4213529B#32 = 0x1B#7 ∧ funct3Of 0x4213529B#32 = 5#3 ∧ funct7Of 0x4213529B#32 = 0x21#7) ∧
    (opcodeOf 0x407312B3#32 = 0x33#7 ∧ (keyOf 0x407312B3#32).toNat = 0x101) ∧
    (opcodeOf 0x047302B3#32 = 0x33#7 ∧ (keyOf 0x047302B3#32).toNat = 0x010) ∧
    (opcodeOf 0x007322BB#32 = 0x3B#7 ∧ (keyOf 0x007322BB#32).toNat = 0x002) := by decide

theorem witness_InvalidFunctExactly :
    Fetches (lastWord 0x0062A463) 0x0062A463#32 ∧ decode 0x0062A463#32 = .error .invalidFunct ∧
    Fetches (lastWord 0x0000F283) 0x0000F283#32 ∧ decode 0x0000F283#32 = .error .invalidFunct :=
  ⟨fetches_of _ _ (by decide) (by decide) (by decide), by decide,
    fetches_of _ _ (by decide) (by decide) (by decide), by decide⟩

theorem witness_InvalidSystemExactly :
    Fetches (lastWord 0x00200073) 0x00200073#32 ∧ decode 0x00200073#32 = .error .invalidSystem :=
  ⟨fetches_of _ _ (by decide) (by decide) (by decide), by decide⟩

theorem witness_IgnoredFieldsHaveNoEffect :
    (opcodeOf 0x00431293#32 = 0x13#7 ∧ funct3Of 0x00431293#32 = 1#3 ∧
      0x00431293#32 &&& 0x03FFFFFF#32 = 0xFC431293#32 &&& 0x03FFFFFF#32) ∧
    (opcodeOf 0x003300E7#32 = 0x67#7 ∧ 0x003300E7#32 &&& 0xFFFF8FFF#32 = 0x003370E7#32 &&& 0xFFFF8FFF#32) ∧
    (opcodeOf 0x0000000F#32 = 0x0F#7 ∧ 0x0000000F#32 &&& 0x0000007F#32 = 0xFFFFFF8F#32 &&& 0x0000007F#32) ∧
    (opcodeOf 0x00000073#32 = 0x73#7 ∧ 0x00000073#32 &&& 0xFFF0007F#32 = 0x000FFFF3#32 &&& 0xFFF0007F#32) := by decide

theorem witness_RegisterFileReadsAndWrites : (31#5 : RegIdx) ≠ 0#5 ∧ (1#5 : RegIdx) ≠ 31#5 := by decide

/-- For MemReadIsLittleEndian, MemWriteStoresLowBytes, LoadsExtendLittleEndianValue and StoresWriteLowBytes: in range up to the
last byte, out of range one higher, and no wrap-around. -/
theorem witness_accessBounds :
    (∀ w : Width, w ∈ [Width.byte, .half, .word, .double] →
      (BitVec.ofNat 64 (65536 - w.bytes)).toNat + w.bytes ≤ 65536 ∧
      65536 < (BitVec.ofNat 64 (65537 - w.bytes)).toNat + w.bytes ∧
      65536 < (0xFFFFFFFFFFFFFFFF#64 : Word).toNat + w.bytes) ∧
    (effAddr (State.reset.setReg 1#5 0x10000#64) 1#5 0xFFF#12).toNat + 1 = 65536 ∧
    (effAddr (State.reset.setReg 1#5 0x10000#64) 1#5 0xFFE#12).toNat + 2 = 65536 ∧
    (effAddr (State.reset.setReg 1#5 0x10000#64) 1#5 0xFFC#12).toNat + 4 = 65536 ∧
    (effAddr (State.reset.setReg 1#5 0x10000#64) 1#5 0xFF8#12).toNat + 8 = 65536 ∧
    (effAddr (State.reset.setReg 1#5 0x10000#64) 1#5 0#12).toNat + 1 = 65537 ∧
    (effAddr State.reset 1#5 0xFFF#12).toNat + 1 > 65536 := by decide

theorem witness_ReadAfterWrite :
    ∃ t, memWrite State.reset 0xFFF8#64 .double 0x1122334455667788#64 = .ok t ∧
      memRead t 0xFFFF#64 .byte = .ok 0x11#64 ∧ memRead t 0xFFF6#64 .word = .ok 0x77880000#64 := ⟨_, rfl, by decide⟩

theorem witness_ArenaIsCanonical :
    State.reset.mem.wf = true ∧ (∃ t, memWrite State.reset 0xFFFF#64 .byte 1#64 = .ok t) ∧
    (∃ t, memWrite (place 0#64 [] ramp 0) 0x2000#64 .double 0#64 = .ok t) ∧ ramp.wf = true ∧
    (∀ a, Memory.readByte ramp a = Memory.readByte ramp a) :=
  ⟨by decide, ⟨_, rfl⟩, ⟨_, rfl⟩, by decide, fun _ => rfl⟩

theorem witness_StepKeepsInvariant :
    (place 0x1000#64 [(1#5, 0x10000#64), (6#5, 5#64)] ramp 0xFE60BC23).inv = true ∧
    (∃ t, step (place 0x1000#64 [(1#5, 0x10000#64), (6#5, 5#64)] ramp 0xFE60BC23) = .next t) ∧
    (lastWord 0x00000000).inv = true ∧ (∃ t, step (lastWord 0x00000000) = .next t) :=
  ⟨by decide, ⟨_, rfl⟩, by decide, ⟨_, rfl⟩⟩

theorem witness_HostCallKeepsInvariant :
    State.reset.inv = true ∧ (∃ t r, hostCall (.load [1#8, 0#8]) State.reset = .next (t, r)) ∧
    (∃ t r, hostCall (.setSystemCall 0xFFFFFFFFFFFFFFFF#64 ⟨1⟩) State.reset = .next (t, r)) ∧
    ∃ t r, hostCall .run State.reset = .next (t, r) := ⟨by decide, ⟨_, _, rfl⟩, ⟨_, _, rfl⟩, ⟨_, _, rfl⟩⟩

theorem witness_StepRunsDecodedInstruction :
    (lastWord 0x02A00513).running = true ∧ (lastWord 0x02A00513).pc.toNat + 4 ≤ 65536 ∧
    decodeBytes ((lastWord 0x02A00513).byte 0xFFFC) ((lastWord 0x02A00513).byte 0xFFFD)
      ((lastWord 0x02A00513).byte 0xFFFE) ((lastWord 0x02A00513).byte 0xFFFF) = .ok (.addi 10#5 0#5 42#12) := by decide

theorem witness_FetchAndDecodePanics :
    ({ State.reset with pc := 0xFFFD#64, running := true } : State).running = true ∧
    65536 < ({ State.reset with pc := 0xFFFD#64, running := true } : State).pc.toNat + 4 ∧
    Fetches (lastWord 0x00000000) 0x00000000#32 ∧ decode 0x00000000#32 = .error .invalidOpcode :=
  ⟨by decide, by decide, fetches_of _ _ (by decide) (by decide) (by decide), by decide⟩

/-- A doubleword over the last instruction and the bytes before it, a byte in the middle of it, and a handler that writes its
last byte. -/
theorem witness_NextFetchSeesStore :
    let s := place 0xFFF8#64 [(1#5, 0x10000#64)] [] 0
    let r : HandlerReturn := ⟨[.writeMem 0x1007#64 .byte 5#64], 7#64⟩
    (s.running = true ∧ (s.pc + 4#64).toNat + 4 ≤ 65536 ∧ s.pc.toNat + 4 ≤ 65536) ∧
    (effAddr s 1#5 0xFF8#12).toNat + 8 ≤ 65536 ∧ (effAddr s 1#5 0xFFD#12).toNat + 1 ≤ 65536 ∧
    (calling (.returns r)).running = true ∧ Invokes (calling (.returns r)) r ∧ (∀ a ∈ r.actions, actionInRange a) ∧
    .stop ∉ r.actions ∧ ((calling (.returns r)).pc + 4#64).toNat + 4 ≤ 65536 :=
  ⟨by decide, by decide, by decide, rfl, invokes_calling _, by simp [actionInRange, Width.bytes], by decide, by decide⟩

/-- A branch that is taken, one that is not, and an ADDI at the last pc: none ends in a panic. -/
theorem witness_PcAdvancesOrJumps :
    (∃ t, exec (.beq 0#5 0#5 8#13) State.reset = .next t ∧ ∀ r, t.outcome ≠ some (.panicked r)) ∧
    (∃ t, exec (.bne 0#5 0#5 8#13) State.reset = .next t ∧ ∀ r, t.outcome ≠ some (.panicked r)) ∧
    ∃ t, exec (.addi 0#5 0#5 0#12) { State.reset with pc := 0xFFFFFFFFFFFFFFFF#64 } = .next t ∧
      ∀ r, t.outcome ≠ some (.panicked r) :=
  ⟨⟨_, rfl, fun _ h => nomatch h⟩, ⟨_, rfl, fun _ h => nomatch h⟩, ⟨_, rfl, fun _ h => nomatch h⟩⟩

/-- A store, with the byte next to the stored ones, and an instruction that stores nothing; neither is ECALL, as
EveryInstructionHasNextState asks too. -/
theorem witness_OnlyStoresWriteArena :
    (∃ t, exec (.sb 1#5 6#5 0#12) (place 0x1000#64 [(1#5, 0xFFFF#64), (6#5, 1#64)] [] 0) = .next t) ∧
    storedAt (place 0x1000#64 [(1#5, 0xFFFF#64), (6#5, 1#64)] [] 0) (.sb 1#5 6#5 0#12) = some (0xFFFF, 1) ∧
    Instr.sb 1#5 6#5 0#12 ≠ .ecall ∧ ¬ (0xFFFF ≤ 0xFFFE ∧ 0xFFFE < 0xFFFF + 1) ∧
    (∃ t, exec (.add 5#5 6#5 7#5) State.reset = .next t) ∧ storedAt State.reset (.add 5#5 6#5 7#5) = none :=
  ⟨⟨_, rfl⟩, by decide, by decide, by decide, ⟨_, rfl⟩, rfl⟩

theorem witness_OnlyDestinationIsWritten :
    (∃ t, exec (.add 31#5 6#5 7#5) State.reset = .next t) ∧ destination (.add 31#5 6#5 7#5) ≠ some 30#5 ∧
    (∃ t, exec .ebreak State.reset = .next t) ∧ destination .ebreak ≠ some 10#5 ∧
    (∃ t, exec .ecall State.reset = .next t) ∧ destination .ecall ≠ some 11#5 ∧ State.reset.reg 17#5 = 0#64 ∧
    (∃ t, exec .ecall (State.reset.setReg 17#5 1#64) = .next t) ∧
    getSystemCall ((State.reset.setReg 17#5 1#64).reg 17#5) (State.reset.setReg 17#5 1#64) = none :=
  ⟨⟨_, rfl⟩, by decide, ⟨_, rfl⟩, by decide, ⟨_, rfl⟩, by decide, by decide, ⟨_, rfl⟩, by decide⟩

/-- x5 and x31 exchanged, under a state whose registers are all alike; and for ECALL x10 and x17 stay. -/
theorem witness_OnlyDestinationIsWritten_alike :
    let σ : Equiv.Perm RegIdx := Equiv.swap 5#5 31#5
    σ 0#5 = 0#5 ∧ σ 5#5 = 31#5 ∧ AlikeUnder σ (State.reset.setReg 5#5 7#64) (State.reset.setReg 31#5 7#64) ∧
    σ 10#5 = 10#5 ∧ σ 17#5 = 17#5 ∧ (State.reset.setReg 5#5 7#64).reg 17#5 = 0#64 :=
  ⟨by decide, by decide, ⟨by decide, rfl, fun _ => rfl, rfl, rfl, ⟨rfl, rfl, rfl⟩, rfl, rfl, rfl, rfl⟩, by decide,
    by decide, by decide⟩

theorem witness_StepKeepsTableAndCallbacks :
    (∃ t, step (calling (.returns ⟨[.stop], 0#64⟩)) = .next t) ∧ ∃ t, step (lastWord 0x00000000) = .next t :=
  ⟨⟨_, rfl⟩, ⟨_, rfl⟩⟩

/-- One step that goes on and one for each way a run ends. -/
theorem witness_RunEndsInFourWays :
    (∃ t, step (lastWord 0x00000013) = .next t ∧ t.running = true) ∧
    (∃ t, step (lastWord 0x00000073) = .next t ∧ t.outcome = some (.exited 0#64)) ∧
    (∃ t, step (lastWord 0x00100073) = .next t ∧ t.outcome = some .broke) ∧
    (∃ t, step (calling (.returns ⟨[.stop], 0#64⟩)) = .next t ∧ t.outcome = some .stopped) ∧
    (∃ t, step (lastWord 0xFFFFFFFF) = .next t ∧ t.outcome = some (.panicked .invalidOpcode)) ∧
    (lastWord 0xFFFFFFFF).running = true ∧ (lastWord 0xFFFFFFFF).outcome = none ∧
    (calling (.returns ⟨[.stop], 0#64⟩)).running = true ∧ (calling (.returns ⟨[.stop], 0#64⟩)).outcome = none :=
  ⟨⟨_, rfl, rfl⟩, ⟨_, rfl, rfl⟩, ⟨_, rfl, rfl⟩, ⟨_, rfl, rfl⟩, ⟨_, rfl, rfl⟩, rfl, rfl, rfl, rfl⟩

/-- For the result statements (LoadsExtendLittleEndianValue to Op32DivisionResults, UpperImmediateResults to EbreakHalts): words
that meet the opcode and selector each asks for, at the ends of the selectors' ranges. -/
theorem witness_selectors :
    (opcodeOf 0x00008283#32 = 0x03#7 ∧ funct3Of 0x00008283#32 = 0#3) ∧
    (opcodeOf 0x0000E283#32 = 0x03#7 ∧ funct3Of 0x0000E283#32 = 6#3) ∧
    (opcodeOf 0x0060B023#32 = 0x23#7 ∧ funct3Of 0x0060B023#32 = 3#3) ∧
    (opcodeOf 0x0FF37293#32 = 0x13#7 ∧ funct3Of 0x0FF37293#32 = 7#3) ∧
    (opcodeOf 0x43F35293#32 = 0x13#7 ∧ funct3Of 0x43F35293#32 = 5#3 ∧ funct6Of 0x43F35293#32 = 0b010000#6) ∧
    (opcodeOf 0x41F3529B#32 = 0x1B#7 ∧ funct3Of 0x41F3529B#32 = 5#3 ∧ funct7Of 0x41F3529B#32 = 0x20#7) ∧
    (opcodeOf 0x407352B3#32 = 0x33#7 ∧ keyOf 0x407352B3#32 = 0x105#10) ∧
    (opcodeOf 0x027372B3#32 = 0x33#7 ∧ keyOf 0x027372B3#32 = 0x00F#10) ∧
    (opcodeOf 0x407302BB#32 = 0x3B#7 ∧ keyOf 0x407302BB#32 = 0x100#10) ∧
    (opcodeOf 0x027372BB#32 = 0x3B#7 ∧ keyOf 0x027372BB#32 = 0x00F#10) ∧
    opcodeOf 0x800002B7#32 = 0x37#7 ∧ opcodeOf 0x00001297#32 = 0x17#7 ∧ opcodeOf 0x010000EF#32 = 0x6F#7 ∧
    opcodeOf 0x003350E7#32 = 0x67#7 ∧ (opcodeOf 0xFE62F8E3#32 = 0x63#7 ∧ funct3Of 0xFE62F8E3#32 = 7#3) ∧
    opcodeOf 0x0000100F#32 = 0x0F#7 ∧ (opcodeOf 0x000002F3#32 = 0x73#7 ∧ funct12Of 0x000002F3#32 = 0#12) ∧
    (opcodeOf 0x00100073#32 = 0x73#7 ∧ funct12Of 0x00100073#32 = 1#12) := by decide

/-- Sources that agree below bit 32 only, at a word division by zero. -/
theorem witness_WordInstructionsIgnoreUpperHalf :
    lowU ((State.reset.setReg 6#5 0x80000000#64).reg 6#5) =
      lowU ((State.reset.setReg 6#5 0xFFFFFFFF80000000#64).reg 6#5) ∧
    lowU (State.reset.reg 7#5) = lowU ((State.reset.setReg 7#5 0xFFFFFFFF00000000#64).reg 7#5) ∧
    (∃ t, exec (.divw 5#5 6#5 7#5) State.reset = .next t) ∧ (∃ t, exec (.sraiw 5#5 6#5 31#5) State.reset = .next t) ∧
    ∃ t, exec (.addiw 5#5 6#5 0x800#12) State.reset = .next t :=
  ⟨by decide, by decide, ⟨_, rfl⟩, ⟨_, rfl⟩, ⟨_, rfl⟩⟩

/-- MIN and −1, and a divisor of zero. -/
theorem witness_QuotientAndRemainderAgree :
    (31#5 : RegIdx) ≠ 0#5 ∧ State.reset.reg 7#5 = 0#64 ∧
    ((State.reset.setReg 6#5 0x8000000000000000#64).setReg 7#5 0xFFFFFFFFFFFFFFFF#64).reg 7#5 ≠ 0#64 ∧
    (∃ q, exec (.div 31#5 6#5 7#5) State.reset = .next q) ∧ (∃ r, exec (.rem 31#5 6#5 7#5) State.reset = .next r) ∧
    (∃ q, exec (.divu 31#5 6#5 7#5) State.reset = .next q) ∧ ∃ r, exec (.remu 31#5 6#5 7#5) State.reset = .next r :=
  ⟨by decide, by decide, by decide, ⟨_, rfl⟩, ⟨_, rfl⟩, ⟨_, rfl⟩, ⟨_, rfl⟩⟩

/-- A jump to 0xFFFE, whose fetch is out of range, and a jump onto a word that does not decode. -/
theorem witness_JalLinksAndJumps :
    (place 0xF000#64 [] [] 0).running = true ∧
    (∃ t, exec (.jal 1#5 0xFFE#21) (place 0xF000#64 [] [] 0) = .next t ∧ 65536 < t.pc.toNat + 4) ∧
    ∃ t, exec (.jal 1#5 0#21) (place 0xF000#64 [] [] 0) = .next t ∧ Fetches t 0x00000000#32 ∧
      decode 0x00000000#32 = .error .invalidOpcode :=
  ⟨rfl, ⟨_, rfl, by decide⟩, ⟨_, rfl, fetches_of _ _ (by decide) (by decide) (by decide), by decide⟩⟩

/-- Each comparison holds and fails, signed and unsigned apart at −1 and 0. -/
theorem witness_BranchesCompare :
    let s := State.reset.setReg 5#5 0xFFFFFFFFFFFFFFFF#64
    (s.reg 5#5 = s.reg 5#5 ∧ s.reg 5#5 ≠ s.reg 6#5) ∧
    ((s.reg 5#5).toInt < (s.reg 6#5).toInt ∧ (s.reg 6#5).toInt ≥ (s.reg 5#5).toInt ∧
      ¬ (s.reg 5#5).toInt ≥ (s.reg 6#5).toInt) ∧
    ((s.reg 6#5).toNat < (s.reg 5#5).toNat ∧ (s.reg 5#5).toNat ≥ (s.reg 6#5).toNat ∧
      ¬ (s.reg 6#5).toNat ≥ (s.reg 5#5).toNat) := by decide

theorem witness_EcallExits :
    State.reset.reg 17#5 = 0#64 ∧ State.reset.exitCb = none ∧ (State.created (some ⟨1⟩) none).reg 17#5 = 0#64 ∧
    (State.created (some ⟨1⟩) none).exitCb = some ⟨1⟩ := by decide

theorem witness_EcallUnregisteredPanics :
    (State.reset.setReg 17#5 0xFFFFFFFFFFFFFFFF#64).reg 17#5 ≠ 0#64 ∧
    getSystemCall ((State.reset.setReg 17#5 0xFFFFFFFFFFFFFFFF#64).reg 17#5)
      (State.reset.setReg 17#5 0xFFFFFFFFFFFFFFFF#64) = none := by decide

/-- A handler that writes registers and the last doubleword of the arena, reads, and stops; and one that does not stop the
run. For the Stopped row of RunEndsInFourWays too. -/
theorem witness_EcallRunsHandler :
    let r : HandlerReturn := ⟨[.setReg 10#5 1#64, .writeMem 0xFFF8#64 .double 5#64, .readMem 0xFFFF#64 .byte, .stop], 7#64⟩
    let q : HandlerReturn := ⟨[.setReg 10#5 1#64], 7#64⟩
    (Invokes (calling (.returns r)) r ∧ (∀ a ∈ r.actions, actionInRange a) ∧ .stop ∈ r.actions) ∧
    Invokes (calling (.returns q)) q ∧ (∀ a ∈ q.actions, actionInRange a) ∧ .stop ∉ q.actions ∧
    (calling (.returns q)).running = true ∧ (calling (.returns q)).handlerMoves ≠ [] :=
  ⟨⟨invokes_calling _, by simp [actionInRange, Width.bytes], by decide⟩, invokes_calling _, by simp [actionInRange],
    by decide, rfl, by decide⟩

/-- Its second action is the first out of range. -/
theorem witness_HandlerOutOfRangePanics :
    let r : HandlerReturn := ⟨[.setReg 5#5 1#64, .writeMem 0xFFF9#64 .double 5#64, .stop], 7#64⟩
    Invokes (calling (.returns r)) r ∧ FailsAfter r [.setReg 5#5 1#64] ∧ (calling (.returns r)).panicCb = some ⟨2⟩ :=
  ⟨invokes_calling _, ⟨by simp [actionInRange], .writeMem 0xFFF9#64 .double 5#64, [.stop], rfl,
    by simp [actionInRange, Width.bytes]⟩, rfl⟩

theorem witness_HangingHandlerHangsEcall :
    (calling .hangs).reg 17#5 ≠ 0#64 ∧ getSystemCall ((calling .hangs).reg 17#5) (calling .hangs) = some ⟨7⟩ ∧
    (calling .hangs).handlerMoves = .hangs :: [] := by decide

/-- Images of one byte and of 61 440, and the two that are turned away. -/
theorem witness_LoadFromBytesCopiesImage :
    State.reset.running = false ∧ (1 ≤ [0x13#8].length ∧ [0x13#8].length ≤ 61440) ∧
    (List.replicate 61440 (0#8 : Byte)).length = 61440 ∧ ([] : List Byte).length = 0 ∧
    (List.replicate 61441 (0#8 : Byte)).length = 61441 :=
  ⟨rfl, by decide, List.length_replicate, rfl, List.length_replicate⟩

/-- For InitializeResets, SetSystemCallInstalls and HostReads: the host between runs. -/
theorem witness_hostBetweenRuns :
    State.reset.running = false ∧ (21 : Nat) ≤ 21 ∧ 22 ≤ (22 : Nat) ∧ (0xFFFF#64 : Word) ≠ 0#64 ∧
    (0x10000#64 : Word) ≠ 0#64 ∧ getSystemCall 0#64 (setSystemCall 0#64 ⟨3⟩ State.reset) = some ⟨3⟩ := by decide

theorem witness_OnlyRunStartsARun :
    State.reset.running = false ∧ (∃ t r, hostCall .run State.reset = .next (t, r) ∧ t.running = true) ∧
    (∃ t, step (lastWord 0x00000013) = .next t ∧ t.running = true) ∧ (lastWord 0x00000013).running = true :=
  ⟨rfl, ⟨_, _, rfl, rfl⟩, ⟨_, rfl, rfl⟩, rfl⟩

/-- A run that ends in one step, and a state that does not run. -/
theorem witness_RunResultIsFinal :
    State.reset.running = false ∧ ∃ t, runFor 1 (lastWord 0x00100073) = .ended (some .broke) t := ⟨rfl, _, rfl⟩

end Sys2Proof.Tests
end

/-! # The state family (`10_state.md`)

What a step keeps, where it leaves the pc, which register it writes and that it treats x1 .. x31 alike; then the
statements about registers, arena, reset and the invariant. -/

/-! ## The decoder only makes well-formed instructions (`30_encoding.md` R100 to R102) -/

namespace Sys2Proof

variable {w : InstWord} {i : Instr}

theorem decodeLoad_wellFormed (h : decodeLoad w = .ok i) : i.wellFormed = true := by
  unfold decodeLoad at h
  split at h <;> cases h <;> rfl

theorem decodeStore_wellFormed (h : decodeStore w = .ok i) : i.wellFormed = true := by
  unfold decodeStore at h
  split at h <;> cases h <;> rfl

theorem decodeShiftRightImm_wellFormed (h : decodeShiftRightImm w = .ok i) : i.wellFormed = true := by
  unfold decodeShiftRightImm at h
  split at h <;> cases h <;> rfl

theorem decodeOpImm_wellFormed (h : decodeOpImm w = .ok i) : i.wellFormed = true := by
  unfold decodeOpImm at h
  split at h
  case h_6 => exact decodeShiftRightImm_wellFormed h
  all_goals cases h; rfl

theorem decodeShiftLeftImmWord_wellFormed (h : decodeShiftLeftImmWord w = .ok i) : i.wellFormed = true := by
  unfold decodeShiftLeftImmWord at h
  split at h <;> cases h
  rfl

theorem decodeShiftRightImmWord_wellFormed (h : decodeShiftRightImmWord w = .ok i) : i.wellFormed = true := by
  unfold decodeShiftRightImmWord at h
  split at h <;> cases h <;> rfl

theorem decodeOpImm32_wellFormed (h : decodeOpImm32 w = .ok i) : i.wellFormed = true := by
  unfold decodeOpImm32 at h
  split at h
  · cases h; rfl
  · exact decodeShiftLeftImmWord_wellFormed h
  · exact decodeShiftRightImmWord_wellFormed h
  · cases h

theorem decodeOp_wellFormed (h : decodeOp w = .ok i) : i.wellFormed = true := by
  unfold decodeOp at h
  split at h <;> cases h <;> rfl

theorem decodeOp32_wellFormed (h : decodeOp32 w = .ok i) : i.wellFormed = true := by
  unfold decodeOp32 at h
  split at h <;> cases h <;> rfl

theorem evenOffset_immBOf (w : InstWord) : evenOffset (immBOf w) = true := by rw [evenOffset, immBOf_even]; rfl

theorem evenOffset_immJOf (w : InstWord) : evenOffset (immJOf w) = true := by rw [evenOffset, immJOf_even]; rfl

theorem upperOnly_immUOf (w : InstWord) : upperOnly (immUOf w) = true := by rw [upperOnly, immUOf_upper]; rfl

theorem decodeBranch_wellFormed (h : decodeBranch w = .ok i) : i.wellFormed = true := by
  unfold decodeBranch at h
  split at h <;> cases h <;> exact evenOffset_immBOf w

theorem decodeSystem_wellFormed (h : decodeSystem w = .ok i) : i.wellFormed = true := by
  unfold decodeSystem at h
  split at h <;> cases h <;> rfl

/-- What the decoder answers, some instruction word encodes. -/
theorem decode_wellFormed (h : decode w = .ok i) : i.wellFormed = true := by
  unfold decode at h
  split at h
  · exact decodeLoad_wellFormed h
  · exact decodeStore_wellFormed h
  · exact decodeOpImm_wellFormed h
  · exact decodeOpImm32_wellFormed h
  · exact decodeOp_wellFormed h
  · exact decodeOp32_wellFormed h
  · cases h; exact upperOnly_immUOf w
  · cases h; exact upperOnly_immUOf w
  · cases h; exact evenOffset_immJOf w
  · cases h; rfl
  · exact decodeBranch_wellFormed h
  · cases h; rfl
  · exact decodeSystem_wellFormed h
  · cases h

end Sys2Proof

/-! ## The arena's canonical form (`10_state.md` R48, R51) -/

namespace Sys2Proof.Machine

theorem Memory.wfFrom_cons {lo k : Nat} {v : Byte} {m : Memory} :
    Memory.wfFrom lo ((k, v) :: m) = true ↔
      lo ≤ k ∧ k < Config.memSize ∧ v ≠ Memory.unlisted ∧ Memory.wfFrom (k + 1) m = true := by
  simp only [Memory.wfFrom, Bool.and_eq_true, decide_eq_true_eq, and_assoc]

/-- Nothing is listed below the bound of a canonical list. -/
theorem Memory.readByte_of_lt {m : Memory} {lo a : Nat} (hm : Memory.wfFrom lo m = true) (ha : a < lo) :
    m.readByte a = Memory.unlisted := by
  induction m generalizing lo with
  | nil => rfl
  | cons c m ih =>
    obtain ⟨hk, -, -, hm⟩ := Memory.wfFrom_cons.1 hm
    rw [Memory.readByte, if_neg (by omega), ih hm (by omega)]

/-- The first listed address of a canonical list is the first one that does not read as unlisted, so a list that reads
alike cannot begin below it. -/
theorem Memory.head_le_of_readByte_eq {lo k l : Nat} {u v : Byte} {m n : Memory}
    (hm : Memory.wfFrom lo ((k, u) :: m) = true) (hn : Memory.wfFrom lo ((l, v) :: n) = true)
    (h : ∀ a, Memory.readByte ((k, u) :: m) a = Memory.readByte ((l, v) :: n) a) : l ≤ k := by
  by_contra hlt
  obtain ⟨-, -, hu, -⟩ := Memory.wfFrom_cons.1 hm
  obtain ⟨-, hl, hv, hn⟩ := Memory.wfFrom_cons.1 hn
  have hn' : Memory.wfFrom l ((l, v) :: n) = true := Memory.wfFrom_cons.2 ⟨le_rfl, hl, hv, hn⟩
  have hk := h k
  rw [Memory.readByte_of_lt hn' (by omega), Memory.readByte, if_pos rfl] at hk
  exact hu hk

/-- A canonical list is determined by what it reads as. -/
theorem Memory.eq_of_readByte_eq {m n : Memory} {lo : Nat} (hm : Memory.wfFrom lo m = true)
    (hn : Memory.wfFrom lo n = true) (h : ∀ a, m.readByte a = n.readByte a) : m = n := by
  induction m generalizing n lo with
  | nil =>
    cases n with
    | nil => rfl
    | cons d n =>
      obtain ⟨-, -, hv, -⟩ := Memory.wfFrom_cons.1 hn
      exact absurd (by simpa [Memory.readByte] using (h d.1).symm) hv
  | cons c m ih =>
    obtain ⟨k, u⟩ := c
    cases n with
    | nil =>
      obtain ⟨-, -, hu, -⟩ := Memory.wfFrom_cons.1 hm
      exact absurd (by simpa [Memory.readByte] using h k) hu
    | cons d n =>
      obtain ⟨l, v⟩ := d
      obtain rfl : k = l := le_antisymm (Memory.head_le_of_readByte_eq hn hm fun a => (h a).symm)
        (Memory.head_le_of_readByte_eq hm hn h)
      obtain rfl : u = v := by simpa [Memory.readByte] using h k
      obtain ⟨-, -, -, hm⟩ := Memory.wfFrom_cons.1 hm
      obtain ⟨-, -, -, hn⟩ := Memory.wfFrom_cons.1 hn
      have tails : ∀ a, Memory.readByte m a = Memory.readByte n a := fun a => by
        by_cases ha : k = a
        · rw [Memory.readByte_of_lt hm (by omega), Memory.readByte_of_lt hn (by omega)]
        · simpa [Memory.readByte, ha] using h a
      rw [ih hm hn tails]

/-- A read sees only what each byte reads as. -/
theorem Memory.readBytes_congr {m n : Memory} (h : ∀ a, m.readByte a = n.readByte a) (a k : Nat) :
    m.readBytes a k = n.readBytes a k := by
  induction k generalizing a with
  | zero => rfl
  | succ k ih => rw [Memory.readBytes, Memory.readBytes, h, ih]

end Sys2Proof.Machine

/-! ## What a call of a handler can leave (`44_system.md` R233, R238) -/

namespace Sys2Proof.Machine

/-- A handler that returns acts from the state with its move used up; then the ECALL finishes, or panics at an access
out of range. -/
theorem callHandler_next {h : HandlerId} {s t : State} (e : callHandler h s = .next t) :
    ∃ moves draws u, HandlerKeeps { s with handlerMoves := moves, draws := draws } u ∧
      ((∃ result, t = finishHandler result u) ∨ t = takePanic .outOfRange u) := by
  obtain ⟨moves, draws, hmove⟩ := nextMove_keeps h s
  have keeps (as : List HandlerAction) : HandlerKeeps { s with handlerMoves := moves, draws := draws }
      (runActions as (nextMove h s).2).state := by
    rw [hmove]; exact runActions_keeps as _
  rcases callHandler_cases h s with ⟨_, _, e'⟩ | ⟨r, s', u, hm, ha, e'⟩ | ⟨r, s', u, hm, ha, e'⟩ <;>
    rw [e'] at e <;> cases e
  · exact ⟨moves, draws, u, by simpa only [hm, ha, ActionsEnd.state] using keeps r.actions, .inl ⟨_, rfl⟩⟩
  · exact ⟨moves, draws, u, by simpa only [hm, ha, ActionsEnd.state] using keeps r.actions, .inr rfl⟩

end Sys2Proof.Machine

/-! ## What a step keeps -/

namespace Sys2Proof.Machine

open Sys2Proof.Claims

/-- What every instruction and every panic keeps: the host's side, a false running flag, the outcome of a block that
still runs, and the arena's and the exit code's forms (`10_state.md` R42 to R45, R48). -/
structure Keeps (s t : State) : Prop where
  hostSide : HostSideKept s t
  running : t.running = true → s.running = true
  outcome : t.running = true → t.outcome = s.outcome
  exitCodeFits : s.exitCodeFits = true → t.exitCodeFits = true
  memWf : s.mem.wf = true → t.mem.wf = true

theorem Keeps.refl (s : State) : Keeps s s := ⟨⟨rfl, rfl, rfl⟩, id, fun _ => rfl, id, id⟩

theorem Keeps.trans {s t u : State} (h : Keeps s t) (k : Keeps t u) : Keeps s u where
  hostSide :=
    have ⟨ht, he, hp⟩ := h.hostSide
    have ⟨kt, ke, kp⟩ := k.hostSide
    ⟨kt.trans ht, ke.trans he, kp.trans hp⟩
  running r := h.running (k.running r)
  outcome r := (k.outcome r).trans (h.outcome (k.running r))
  exitCodeFits f := k.exitCodeFits (h.exitCodeFits f)
  memWf f := k.memWf (h.memWf f)

/-- A state that runs no more keeps what it must as soon as its host side, exit code and arena do. -/
theorem Keeps.of_halted {s t : State} (hr : t.running = false) (hh : HostSideKept s t)
    (he : t.exitCodeFits = true) (hm : t.mem = s.mem) : Keeps s t :=
  ⟨hh, by simp [hr], by simp [hr], fun _ => he, by simp [hm]⟩

/-- The exit code of a panic and of EBREAK. -/
theorem exitCodeFits_of_eq_neg_one {s : State} (h : s.exitCode = -1) : s.exitCodeFits = true := by
  simp [State.exitCodeFits, h]

/-- A 64-bit value read as signed fits the exit code (`10_state.md` R43, D9). -/
theorem exitCodeFits_of_eq_toInt {s : State} {v : Word} (h : s.exitCode = v.toInt) : s.exitCodeFits = true := by
  rw [State.exitCodeFits, h, Bool.and_eq_true, decide_eq_true_eq, decide_eq_true_eq]
  exact ⟨BitVec.le_toInt v, BitVec.toInt_lt⟩

theorem takePanic_keeps (r : PanicReason) (s : State) : Keeps s (takePanic r s) :=
  .of_halted rfl ⟨rfl, rfl, rfl⟩ (exitCodeFits_of_eq_neg_one rfl) rfl

/-- The state the exit syscall leaves before its status goes back to x10 (`44_system.md` R232). -/
def exited (status : Word) (s : State) : State :=
  { s with
    exitCode := status.toInt
    callbackCalls := s.callbackCalls ++ exitCalls s status
    running := false
    outcome := some (.exited status) }

theorem exitSyscall_eq (s : State) : exitSyscall s = retire regA0 (s.reg regA0) (exited (s.reg regA0) s) := rfl

@[simp] theorem exited_reg (status : Word) (s : State) (j : RegIdx) : (exited status s).reg j = s.reg j := rfl

theorem exited_keeps (status : Word) (s : State) : Keeps s (exited status s) :=
  .of_halted rfl ⟨rfl, rfl, rfl⟩ (exitCodeFits_of_eq_toInt rfl) rfl

theorem retire_keeps (rd : RegIdx) (v : Word) (s : State) : Keeps s (retire rd v s) := by
  constructor <;> simp [HostSideKept, State.exitCodeFits]

theorem exitSyscall_keeps (s : State) : Keeps s (exitSyscall s) := (exited_keeps _ s).trans (retire_keeps ..)

theorem HandlerKeeps.keeps {s u : State} (h : HandlerKeeps s u) : Keeps s u :=
  ⟨⟨h.syscalls, h.exitCb, h.panicCb⟩, h.running, fun _ => h.outcome, by simp [State.exitCodeFits, h.exitCode], h.wf⟩

theorem finishHandler_keeps (result : Word) (s : State) : Keeps s (finishHandler result s) where
  hostSide := by simp [finishHandler, HostSideKept]
  running := by simp [finishHandler]
  outcome := by simp +contextual [finishHandler]
  exitCodeFits := by simp [finishHandler, State.exitCodeFits]
  memWf := by simp [finishHandler]

theorem callHandler_keeps {h : HandlerId} {s t : State} (e : callHandler h s = .next t) : Keeps s t := by
  obtain ⟨moves, draws, u, hu, ht⟩ := callHandler_next e
  have hs : Keeps s { s with handlerMoves := moves, draws := draws } :=
    ⟨⟨rfl, rfl, rfl⟩, id, fun _ => rfl, id, id⟩
  refine (hs.trans hu.keeps).trans ?_
  rcases ht with ⟨result, rfl⟩ | rfl
  · exact finishHandler_keeps result u
  · exact takePanic_keeps .outOfRange u

theorem execEcall_keeps {s t : State} (e : execEcall s = .next t) : Keeps s t := by
  rcases execEcall_cases s with ⟨_, e'⟩ | ⟨_, _, e'⟩ | ⟨h, _, _, e'⟩ <;> rw [e'] at e
  · cases e; exact exitSyscall_keeps s
  · cases e; exact takePanic_keeps .invalidSyscall s
  · exact callHandler_keeps e

theorem Effect.keeps {s t : State} (h : Effect s t) : Keeps s t := by
  cases h with
  | retired rd v => exact retire_keeps rd v s
  | linked rd p => constructor <;> simp [HostSideKept, State.exitCodeFits]
  | jumped p => exact ⟨⟨rfl, rfl, rfl⟩, id, fun _ => rfl, id, id⟩
  | stored a w v h => exact ⟨⟨rfl, rfl, rfl⟩, id, fun _ => rfl, id, fun f => written_wf s a w v f h⟩
  | panicked => exact takePanic_keeps .outOfRange s
  | broke => exact .of_halted rfl ⟨rfl, rfl, rfl⟩ (exitCodeFits_of_eq_neg_one rfl) rfl

theorem exec_keeps {i : Instr} {s t : State} (e : exec i s = .next t) : Keeps s t := by
  by_cases hi : i = .ecall
  · subst hi; exact execEcall_keeps e
  · obtain ⟨t', e', h⟩ := exec_effect i s hi
    rw [e'] at e; cases e
    exact h.keeps

theorem step_keeps {s t : State} (e : step s = .next t) : Keeps s t := by
  rcases step_cases s with ⟨_, e'⟩ | ⟨_, _, e'⟩ | ⟨_, r, _, _, _, e'⟩ | ⟨_, i, _, _, _, e'⟩ <;> rw [e'] at e
  · cases e; exact .refl s
  · cases e; exact takePanic_keeps .outOfRange s
  · cases e; exact takePanic_keeps r s
  · exact exec_keeps e

end Sys2Proof.Machine

/-! ## Where an instruction leaves the pc, and which register it writes (`10_state.md` R35, R37) -/

namespace Sys2Proof.Machine

open Sys2Proof.Claims

/-- A write leaves every other register (R32). -/
theorem reg_setReg_ne (s : State) {i j : RegIdx} (h : j ≠ i) (v : Word) : (s.setReg i v).reg j = s.reg j := by
  rw [reg_setReg, if_neg fun k => h k.1]

/-- The instruction goes on to where its operands say, and writes no register but its destination. -/
structure Moves (i : Instr) (s t : State) : Prop where
  pc : t.pc = (jumpsTo s i).getD (s.pc + 4#64)
  reg : ∀ j, destination i ≠ some j → t.reg j = s.reg j

variable {i : Instr} {s t : State}

theorem Moves.retire {rd : RegIdx} {v : Word} (hd : destination i = some rd) (hj : jumpsTo s i = none) :
    Moves i s (retire rd v s) where
  pc := by rw [retire_pc, hj]; rfl
  reg j h := by
    have hne : j ≠ rd := fun e => h (e ▸ hd)
    rw [retire_reg, reg_setReg_ne s hne]

theorem Moves.link {rd : RegIdx} {p : Word} (hd : destination i = some rd) (hj : jumpsTo s i = some p) :
    Moves i s (link rd p s) where
  pc := by rw [link_pc, hj]; rfl
  reg j h := by
    have hne : j ≠ rd := fun e => h (e ▸ hd)
    rw [link_reg, reg_setReg_ne s hne]

/-- A branch whose comparison is the one its row of R215 to R220 states. -/
theorem Moves.branchIf {c : Bool} {P : Prop} [Decidable P] {imm : BitVec 13} (hc : c = decide P)
    (hj : jumpsTo s i = if P then some (s.pc + imm.signExtend 64) else none) : Moves i s (branchIf c imm s) := by
  subst hc
  by_cases hP : P
  · rw [decide_eq_true hP, branchIf_true]
    exact ⟨by rw [hj, if_pos hP]; rfl, fun _ _ => rfl⟩
  · rw [decide_eq_false hP, branchIf_false]
    exact ⟨by rw [hj, if_neg hP]; rfl, fun _ _ => rfl⟩

/-- An instruction that leaves registers and pc as `advance` does. -/
theorem Moves.advance (hj : jumpsTo s i = none) (hp : t.pc = s.pc + 4#64) (hr : ∀ j, t.reg j = s.reg j) :
    Moves i s t :=
  ⟨by rw [hj, hp]; rfl, fun j _ => hr j⟩

theorem loadInto_moves {rd rs1 : RegIdx} {imm : BitVec 12} {w : Width} {f : Word → Word}
    (hd : destination i = some rd) (hj : jumpsTo s i = none) (e : loadInto rd rs1 imm w f s = .next t) :
    Moves i s t ∨ t = takePanic .outOfRange s := by
  rcases loadInto_cases rd rs1 imm w f s with ⟨_, e'⟩ | ⟨_, e'⟩ <;> rw [e'] at e <;> cases e
  · exact .inl (.retire hd hj)
  · exact .inr rfl

theorem storeFrom_moves {rs1 rs2 : RegIdx} {imm : BitVec 12} {w : Width} (hj : jumpsTo s i = none)
    (e : storeFrom rs1 rs2 imm w s = .next t) : Moves i s t ∨ t = takePanic .outOfRange s := by
  rcases storeFrom_cases rs1 rs2 imm w s with ⟨_, e'⟩ | ⟨_, e'⟩ <;> rw [e'] at e <;> cases e
  · exact .inl (.advance hj rfl fun _ => rfl)
  · exact .inr rfl

/-- An instruction other than ECALL moves on as its operands say, or panics at its access. -/
theorem exec_moves (hi : i ≠ .ecall) (e : exec i s = .next t) : Moves i s t ∨ t = takePanic .outOfRange s := by
  cases i with
  | lb => exact loadInto_moves rfl rfl e
  | lh => exact loadInto_moves rfl rfl e
  | lw => exact loadInto_moves rfl rfl e
  | ld => exact loadInto_moves rfl rfl e
  | lbu => exact loadInto_moves rfl rfl e
  | lhu => exact loadInto_moves rfl rfl e
  | lwu => exact loadInto_moves rfl rfl e
  | sb => exact storeFrom_moves rfl e
  | sh => exact storeFrom_moves rfl e
  | sw => exact storeFrom_moves rfl e
  | sd => exact storeFrom_moves rfl e
  | beq => cases e; exact .inl (.branchIf rfl rfl)
  | bne => cases e; exact .inl (.branchIf (by simp [bne, beq_eq_decide]) rfl)
  | blt => cases e; exact .inl (.branchIf rfl rfl)
  | bge => cases e; exact .inl (.branchIf (by simp [ltSigned, ← decide_not]) rfl)
  | bltu => cases e; exact .inl (.branchIf rfl rfl)
  | bgeu => cases e; exact .inl (.branchIf (by simp [ltUnsigned, ← decide_not]) rfl)
  | jal => cases e; exact .inl (.link rfl rfl)
  | jalr => cases e; exact .inl (.link rfl (congrArg some (clearBit0_eq _).symm))
  | fence => cases e; exact .inl (.advance rfl rfl fun _ => rfl)
  | ebreak => cases e; exact .inl (.advance rfl rfl fun _ => rfl)
  | ecall => exact absurd rfl hi
  | _ => cases e; exact .inl (.retire rfl rfl)

/-- The state is one a panic left, from this pc (`60_exceptions.md` R263). -/
def PanickedFrom (s t : State) : Prop := (∃ r, t.outcome = some (.panicked r)) ∧ PcAfterPanic s t

theorem takePanic_panickedFrom {u : State} (r : PanicReason) (h : u.pc = s.pc) : PanickedFrom s (takePanic r u) :=
  ⟨⟨r, rfl⟩, by simpa [PcAfterPanic, h] using pcAfterPanic_cases u r⟩

/-- An ECALL that does not panic goes on to pc + 4 (D6, log entry 19). -/
theorem execEcall_pc (e : execEcall s = .next t) : PanickedFrom s t ∨ t.pc = s.pc + 4#64 := by
  rcases execEcall_cases s with ⟨_, e'⟩ | ⟨_, _, e'⟩ | ⟨h, _, _, e'⟩ <;> rw [e'] at e
  · cases e; exact .inr (retire_pc ..)
  · cases e; exact .inl (takePanic_panickedFrom _ rfl)
  · obtain ⟨moves, draws, u, hu, ⟨result, rfl⟩ | rfl⟩ := callHandler_next e
    · exact .inr (by simp [finishHandler, hu.pc])
    · exact .inl (takePanic_panickedFrom _ hu.pc)

/-- Where any instruction leaves the pc. -/
theorem exec_pc (e : exec i s = .next t) : PanickedFrom s t ∨ t.pc = (jumpsTo s i).getD (s.pc + 4#64) := by
  by_cases hi : i = .ecall
  · subst hi; exact execEcall_pc e
  · rcases exec_moves hi e with h | rfl
    · exact .inr h.pc
    · exact .inl (takePanic_panickedFrom _ rfl)

end Sys2Proof.Machine

/-! ## The pc stays even (`10_state.md` R39) -/

namespace Sys2Proof.Machine

open Sys2Proof.Claims

theorem evenOffset_add {x y : Word} (hx : evenOffset x = true) (hy : evenOffset y = true) :
    evenOffset (x + y) = true := by
  simp only [evenOffset, Bool.not_eq_true'] at *
  rw [BitVec.getLsbD_add (by decide), hx, hy, BitVec.carry_zero]
  rfl

theorem evenOffset_signExtend {n : Nat} {imm : BitVec n} (h : evenOffset imm = true) :
    evenOffset (imm.signExtend 64) = true := by
  simp only [evenOffset, Bool.not_eq_true'] at *
  rw [BitVec.getLsbD_signExtend]
  cases n with
  | zero => simp [BitVec.eq_nil imm]
  | succ n => rw [if_pos n.succ_pos, h, Bool.and_false]

/-- JALR's target has bit 0 cleared (`43_upper_and_control.md` R213). -/
theorem evenOffset_half_double (n : Nat) : evenOffset (BitVec.ofNat 64 (n / 2 * 2)) = true := by
  rw [evenOffset, BitVec.getLsbD_ofNat, Nat.testBit_zero]; simp

/-- A target relative to an even pc, by an even offset, is even, whether the branch is taken or not. -/
theorem evenOffset_of_branch {P : Prop} [Decidable P] {s : State} {n : Nat} {imm : BitVec n} {p : Word}
    (hs : s.pcEven = true) (hi : evenOffset imm = true)
    (h : (if P then some (s.pc + imm.signExtend 64) else none) = some p) : evenOffset p = true := by
  split at h
  · cases h; exact evenOffset_add hs (evenOffset_signExtend hi)
  · cases h

/-- From an even pc, an instruction that some word encodes jumps only to an even pc. -/
theorem evenOffset_of_jumpsTo {s : State} {i : Instr} {p : Word} (hs : s.pcEven = true) (hi : i.wellFormed = true)
    (h : jumpsTo s i = some p) : evenOffset p = true := by
  cases i with
  | jal rd imm => cases h; exact evenOffset_add hs (evenOffset_signExtend hi)
  | jalr rd rs1 imm => cases h; exact evenOffset_half_double _
  | beq => exact evenOffset_of_branch hs hi h
  | bne => exact evenOffset_of_branch hs hi h
  | blt => exact evenOffset_of_branch hs hi h
  | bge => exact evenOffset_of_branch hs hi h
  | bltu => exact evenOffset_of_branch hs hi h
  | bgeu => exact evenOffset_of_branch hs hi h
  | _ => cases h

theorem pcEven_next {s t : State} (hs : s.pcEven = true) (h : t.pc = s.pc + 4#64) : t.pcEven = true := by
  rw [State.pcEven, h]; exact evenOffset_add hs rfl

theorem pcEven_of_pcAfterPanic {s t : State} (hs : s.pcEven = true) (h : PcAfterPanic s t) : t.pcEven = true := by
  rcases h with h | h
  · rw [State.pcEven, h]; exact hs
  · exact pcEven_next hs h

theorem exec_pcEven {i : Instr} {s t : State} (hs : s.pcEven = true) (hi : i.wellFormed = true)
    (e : exec i s = .next t) : t.pcEven = true := by
  rcases exec_pc e with ⟨_, h⟩ | h
  · exact pcEven_of_pcAfterPanic hs h
  · cases hj : jumpsTo s i with
    | none => exact pcEven_next hs (by rw [h, hj]; rfl)
    | some p =>
      have hp : t.pc = p := by rw [h, hj]; rfl
      rw [State.pcEven, hp]
      exact evenOffset_of_jumpsTo hs hi hj

theorem step_pcEven {s t : State} (hs : s.pcEven = true) (e : step s = .next t) : t.pcEven = true := by
  rcases step_cases s with ⟨_, e'⟩ | ⟨_, _, e'⟩ | ⟨_, r, _, _, _, e'⟩ | ⟨_, i, _, _, hd, e'⟩ <;> rw [e'] at e
  · cases e; exact hs
  · cases e; exact pcEven_of_pcAfterPanic hs (pcAfterPanic_cases s _)
  · cases e; exact pcEven_of_pcAfterPanic hs (pcAfterPanic_cases s r)
  · exact exec_pcEven hs (decode_wellFormed hd) e

end Sys2Proof.Machine

/-! ## The statements about the invariant and the step -/

namespace Sys2Proof.Machine

open Sys2Proof.Claims

/-- The parts of the invariant, by name. -/
theorem State.inv_iff {s : State} :
    s.inv = true ↔ s.mem.wf = true ∧ SyscallTable.wf s.syscalls = true ∧ s.pcEven = true ∧ s.exitCodeFits = true ∧
      (s.running = true → s.outcome = none) := by
  cases hr : s.running <;> simp [State.inv, hr, and_assoc]

/-- Settles O19: a step keeps each part of the invariant, the pc even because the decoder makes only even offsets. -/
theorem stepKeepsInvariant : Obligations.StepKeepsInvariant := by
  intro s t hs e
  obtain ⟨hmem, htable, hpc, hexit, hout⟩ := State.inv_iff.1 hs
  have h := step_keeps e
  obtain ⟨hsys, -, -⟩ := h.hostSide
  refine State.inv_iff.2 ⟨h.memWf hmem, hsys ▸ htable, step_pcEven hpc e, h.exitCodeFits hexit, fun hr => ?_⟩
  rw [h.outcome hr, hout (h.running hr)]

/-- Settles O18: arena and table are empty, and nothing runs. -/
theorem resetMeetsInvariant : Obligations.ResetMeetsInvariant :=
  State.inv_iff.2 ⟨rfl, rfl, by decide, by decide, nofun⟩

/-- Settles O28: the host's side is a part of what every step keeps. -/
theorem stepKeepsTableAndCallbacks : Obligations.StepKeepsTableAndCallbacks := fun _ _ e => (step_keeps e).hostSide

/-- Settles O24: a state that no panic left has the pc `jumpsTo` gives. -/
theorem pcAdvancesOrJumps : Obligations.PcAdvancesOrJumps := by
  intro s t i e hn
  rcases exec_pc e with ⟨⟨r, hr⟩, _⟩ | h
  · exact absurd hr (hn r)
  · exact h

end Sys2Proof.Machine

/-! ## Renamed registers: x1 .. x31 are treated alike (`10_state.md` R34) -/

namespace Sys2Proof.Claims

open Sys2Proof.Machine

variable {σ : Equiv.Perm RegIdx} {s t : State}

/-- Two next states, one but for the names of the registers. -/
def BothNext (σ : Equiv.Perm RegIdx) (o p : Host.Outcome State Fault Refusal) : Prop :=
  ∃ s' t', o = .next s' ∧ p = .next t' ∧ AlikeUnder σ s' t'

theorem AlikeUnder.bothNext (h : AlikeUnder σ s t) : BothNext σ (.next s) (.next t) := ⟨s, t, rfl, rfl, h⟩

theorem AlikeUnder.reg_eq (h : AlikeUnder σ s t) (j : RegIdx) : t.reg (σ j) = s.reg j := h.1 j

theorem AlikeUnder.pc_eq (h : AlikeUnder σ s t) : t.pc = s.pc := h.2.1

theorem AlikeUnder.syscalls_eq (h : AlikeUnder σ s t) : t.syscalls = s.syscalls := by
  obtain ⟨-, -, -, -, -, ⟨hsys, -, -⟩, -⟩ := h
  exact hsys

theorem AlikeUnder.byte_eq (h : AlikeUnder σ s t) (a : Nat) : t.mem.readByte a = s.mem.readByte a := h.2.2.1 a

theorem AlikeUnder.setPc (h : AlikeUnder σ s t) (p : Word) : AlikeUnder σ (s.setPc p) (t.setPc p) :=
  ⟨h.1, rfl, h.2.2⟩

theorem AlikeUnder.advance (h : AlikeUnder σ s t) : AlikeUnder σ s.advance t.advance := by
  rw [State.advance, State.advance, State.nextPc, State.nextPc, h.pc_eq]
  exact h.setPc _

/-- The same write under its two names: x0 keeps its own, and no two registers share one. -/
theorem AlikeUnder.setReg (hσ : σ 0#5 = 0#5) (h : AlikeUnder σ s t) (rd : RegIdx) (v : Word) :
    AlikeUnder σ (s.setReg rd v) (t.setReg (σ rd) v) := by
  obtain ⟨hreg, hpc, hmem, hstatus⟩ := h
  refine ⟨fun j => ?_, by simpa using hpc, fun a => by simpa using hmem a, by
    simpa [StatusKept, HostSideKept] using hstatus⟩
  have hzero : σ j = 0#5 ↔ j = 0#5 := by rw [← hσ, σ.apply_eq_iff_eq, hσ]
  simp only [reg_setReg, σ.apply_eq_iff_eq, ne_eq, hzero, hreg j]

theorem AlikeUnder.retire (hσ : σ 0#5 = 0#5) (h : AlikeUnder σ s t) (rd : RegIdx) {v v' : Word} (hv : v' = v) :
    AlikeUnder σ (retire rd v s) (retire (σ rd) v' t) :=
  hv ▸ (h.setReg hσ rd v).advance

theorem AlikeUnder.link (hσ : σ 0#5 = 0#5) (h : AlikeUnder σ s t) (rd : RegIdx) {p p' : Word} (hp : p' = p) :
    AlikeUnder σ (link rd p s) (link (σ rd) p' t) := by
  rw [Machine.link, Machine.link, State.nextPc, State.nextPc, h.pc_eq, hp]
  exact (h.setReg hσ rd _).setPc p

theorem AlikeUnder.pcTarget_eq (h : AlikeUnder σ s t) {n : Nat} (imm : BitVec n) : pcTarget t imm = pcTarget s imm := by
  rw [pcTarget, pcTarget, h.pc_eq]

theorem AlikeUnder.effAddr_eq (h : AlikeUnder σ s t) (rs1 : RegIdx) (imm : BitVec 12) :
    effAddr t (σ rs1) imm = effAddr s rs1 imm := by
  rw [effAddr, effAddr, h.reg_eq]

theorem AlikeUnder.jalrTarget_eq (h : AlikeUnder σ s t) (rs1 : RegIdx) (imm : BitVec 12) :
    jalrTarget t (σ rs1) imm = jalrTarget s rs1 imm := by
  rw [jalrTarget, jalrTarget, h.reg_eq]

theorem AlikeUnder.branchIf (h : AlikeUnder σ s t) (imm : BitVec 13) {c c' : Bool} (hc : c' = c) :
    AlikeUnder σ (branchIf c imm s) (branchIf c' imm t) := by
  subst hc
  cases c' with
  | true => rw [branchIf_true, branchIf_true, h.pcTarget_eq]; exact h.setPc _
  | false => rw [branchIf_false, branchIf_false]; exact h.advance

/-- A panic draws on the counter, the reason and the pc alone, which the two states share (log entry 2). -/
theorem AlikeUnder.takePanic (h : AlikeUnder σ s t) (r : PanicReason) :
    AlikeUnder σ (takePanic r s) (takePanic r t) := by
  obtain ⟨hreg, hpc, hmem, -, -, ⟨hsys, hexit, hpanic⟩, hdraws, hmoves, hcalls, -⟩ := h
  refine ⟨hreg, ?_, hmem, rfl, rfl, ⟨hsys, hexit, hpanic⟩, ?_, hmoves, ?_, rfl⟩
  · simp only [takePanic_pc, pcAfterPanic, State.nextPc, hpc, hdraws]
  · rw [takePanic_draws, takePanic_draws, hdraws]
  · simp only [takePanic_callbackCalls, panicCalls, hcalls, hpanic]

theorem AlikeUnder.written (h : AlikeUnder σ s t) (a : Word) (w : Width) (v : Word) :
    AlikeUnder σ (written s a w v) (written t a w v) := by
  obtain ⟨hreg, hpc, hmem, hstatus⟩ := h
  exact ⟨hreg, hpc, fun b => by rw [written_byte, written_byte, hmem b], hstatus⟩

theorem AlikeUnder.broken (h : AlikeUnder σ s t) : AlikeUnder σ (broken s) (broken t) := by
  obtain ⟨hreg, hpc, hmem, -, -, hhost, hdraws, hmoves, hcalls, -⟩ := h.advance
  exact ⟨hreg, hpc, hmem, rfl, rfl, hhost, hdraws, hmoves, hcalls, rfl⟩

theorem AlikeUnder.loadInto (hσ : σ 0#5 = 0#5) (h : AlikeUnder σ s t) (rd rs1 : RegIdx) (imm : BitVec 12) (w : Width)
    (f : Word → Word) : BothNext σ (loadInto rd rs1 imm w f s) (loadInto (σ rd) (σ rs1) imm w f t) := by
  rw [Machine.loadInto, Machine.loadInto, h.effAddr_eq]
  by_cases hr : (effAddr s rs1 imm).toNat + w.bytes ≤ 65536
  · rw [memRead_inRange hr, memRead_inRange hr, Memory.readBytes_congr h.byte_eq]
    exact (h.retire hσ rd rfl).bothNext
  · rw [memRead_outOfRange hr, memRead_outOfRange hr]
    exact (h.takePanic _).bothNext

theorem AlikeUnder.storeFrom (h : AlikeUnder σ s t) (rs1 rs2 : RegIdx) (imm : BitVec 12) (w : Width) :
    BothNext σ (storeFrom rs1 rs2 imm w s) (storeFrom (σ rs1) (σ rs2) imm w t) := by
  rw [Machine.storeFrom, Machine.storeFrom, h.effAddr_eq, h.reg_eq]
  by_cases hr : (effAddr s rs1 imm).toNat + w.bytes ≤ 65536
  · rw [memWrite_inRange hr, memWrite_inRange hr]
    exact (h.written _ w _).advance.bothNext
  · rw [memWrite_outOfRange hr, memWrite_outOfRange hr]
    exact (h.takePanic _).bothNext

theorem AlikeUnder.exited (h : AlikeUnder σ s t) (status : Word) : AlikeUnder σ (exited status s) (exited status t) := by
  obtain ⟨hreg, hpc, hmem, -, -, ⟨hsys, hexit, hpanic⟩, hdraws, hmoves, hcalls, -⟩ := h
  refine ⟨hreg, hpc, hmem, rfl, rfl, ⟨hsys, hexit, hpanic⟩, hdraws, hmoves, ?_, rfl⟩
  simp only [Machine.exited, exitCalls, hcalls, hexit]

/-- The exit syscall reads and writes x10 by its number (R33). -/
theorem AlikeUnder.exitSyscall (hσ : σ 0#5 = 0#5) (h10 : σ regA0 = regA0) (h : AlikeUnder σ s t) :
    AlikeUnder σ (exitSyscall s) (exitSyscall t) := by
  have hstatus : t.reg regA0 = s.reg regA0 := by simpa only [h10] using h.reg_eq regA0
  rw [exitSyscall_eq, exitSyscall_eq, hstatus]
  simpa only [h10] using (h.exited _).retire hσ regA0 rfl

/-- An ECALL that calls no handler (R231, R234) reads x17 by its number (R33). -/
theorem AlikeUnder.execEcall (hσ : σ 0#5 = 0#5) (h10 : σ regA0 = regA0) (h17 : σ regA7 = regA7)
    (h : AlikeUnder σ s t) (hn : s.reg regA7 = 0#64 ∨ getSystemCall (s.reg regA7) s = none) :
    BothNext σ (execEcall s) (execEcall t) := by
  have hcode : t.reg regA7 = s.reg regA7 := by simpa only [h17] using h.reg_eq regA7
  simp only [Machine.execEcall, hcode, h.syscalls_eq]
  by_cases hc : s.reg regA7 = 0#64
  · rw [if_pos hc, if_pos hc]
    exact (h.exitSyscall hσ h10).bothNext
  · have hf : SyscallTable.find s.syscalls (s.reg regA7).toNat = none := hn.resolve_left hc
    rw [if_neg hc, if_neg hc, hf]
    exact (h.takePanic _).bothNext

/-- The instruction with its registers renamed, in the state with the same renaming, does the same. -/
theorem exec_renamed (hσ : σ 0#5 = 0#5) (h : AlikeUnder σ s t) {i : Instr}
    (hi : i = .ecall → σ 10#5 = 10#5 ∧ σ 17#5 = 17#5 ∧ (s.reg 17#5 = 0#64 ∨ getSystemCall (s.reg 17#5) s = none)) :
    BothNext σ (exec i s) (exec (renamed σ i) t) := by
  cases i with
  | lb => exact h.loadInto hσ ..
  | lh => exact h.loadInto hσ ..
  | lw => exact h.loadInto hσ ..
  | ld => exact h.loadInto hσ ..
  | lbu => exact h.loadInto hσ ..
  | lhu => exact h.loadInto hσ ..
  | lwu => exact h.loadInto hσ ..
  | sb => exact h.storeFrom ..
  | sh => exact h.storeFrom ..
  | sw => exact h.storeFrom ..
  | sd => exact h.storeFrom ..
  | lui rd imm => exact (h.retire hσ rd rfl).bothNext
  | auipc rd imm => exact (h.retire hσ rd (h.pcTarget_eq imm)).bothNext
  | jal rd imm => exact (h.link hσ rd (h.pcTarget_eq imm)).bothNext
  | jalr rd rs1 imm => exact (h.link hσ rd (h.jalrTarget_eq rs1 imm)).bothNext
  | beq => exact (h.branchIf _ (by simp only [h.reg_eq])).bothNext
  | bne => exact (h.branchIf _ (by simp only [h.reg_eq])).bothNext
  | blt => exact (h.branchIf _ (by simp only [h.reg_eq])).bothNext
  | bge => exact (h.branchIf _ (by simp only [h.reg_eq])).bothNext
  | bltu => exact (h.branchIf _ (by simp only [h.reg_eq])).bothNext
  | bgeu => exact (h.branchIf _ (by simp only [h.reg_eq])).bothNext
  | fence => exact h.advance.bothNext
  | ebreak => exact h.broken.bothNext
  | ecall =>
    obtain ⟨h10, h17, hn⟩ := hi rfl
    exact h.execEcall hσ h10 h17 hn
  | _ => exact (h.retire hσ _ (by simp only [h.reg_eq])).bothNext

/-- An ECALL that calls no handler writes no register but x10 (R232, R234). -/
theorem execEcall_reg {j : RegIdx} (e : execEcall s = .next t) (hj : j ≠ regA0)
    (hn : s.reg regA7 = 0#64 ∨ getSystemCall (s.reg regA7) s = none) : t.reg j = s.reg j := by
  rcases execEcall_cases s with ⟨_, e'⟩ | ⟨_, _, e'⟩ | ⟨h, hc, hf, _⟩
  · rw [e'] at e; cases e
    rw [exitSyscall_eq, retire_reg, reg_setReg_ne _ hj, exited_reg]
  · rw [e'] at e; cases e; rfl
  · exact absurd (hn.resolve_left hc) (by simp [getSystemCall, hf])

/-- Settles O26: what `exec_moves` says of registers, and `exec_renamed`. -/
theorem onlyDestinationIsWritten : Obligations.OnlyDestinationIsWritten := by
  refine ⟨fun s t i j e hj hecall => ?_, fun σ i s t hσ h hi => exec_renamed hσ h hi⟩
  by_cases hi : i = .ecall
  · obtain ⟨hne, hn⟩ := hecall hi
    subst hi
    exact execEcall_reg e hne hn
  · rcases exec_moves hi e with h | rfl
    · exact h.reg j hj
    · rfl

end Sys2Proof.Claims

/-! ## The statements about registers, arena, reset and `run()` -/

namespace Sys2Proof.Machine

open Sys2Proof.Claims

/-- Settles O16: a write in range keeps the form, and a list in the form is determined by what it reads as. -/
theorem arenaIsCanonical : Obligations.ArenaIsCanonical := by
  refine ⟨fun s t a w v hs e => ?_, fun m n hm hn h => Memory.eq_of_readByte_eq hm hn h⟩
  obtain ⟨hr, rfl⟩ := memWrite_ok e
  exact written_wf s a w v hs hr

/-- Settles O12: the register file's laws, and a handler's write is `setReg`. -/
theorem registerFileReadsAndWrites : Obligations.RegisterFileReadsAndWrites := by
  intro s i j v
  have drop : s.setReg 0#5 v = s := rfl
  exact ⟨reg_zero s, drop, by rw [runActions, drop, runActions], fun hi => reg_setReg_self s hi v,
    fun hj => reg_setReg_ne s hj v, rfl⟩

theorem reset_reg (i : RegIdx) : State.reset.reg i = 0#64 := by
  simp [State.reg, State.reset, State.created]

/-- Settles O17: the fields of `State.created`, and `reset_reg` for the registers. -/
theorem resetState : Obligations.ResetState :=
  ⟨rfl, rfl, rfl, fun _ => rfl, fun _ => rfl, rfl, rfl, reset_reg⟩

theorem hostCall_of_running {s : State} (c : HostCall) (h : s.running = true) :
    hostCall c s = .refused .hostCallDuringRun := by
  unfold hostCall
  exact if_pos h

theorem hostCall_run {s : State} (h : s.running = false) : hostCall .run s = .next (startRun s, .unit) := by
  rw [hostCall, if_neg (by simp [h])]

theorem hostCall_stop {s : State} (h : s.running = false) : hostCall .stop s = .next (s, .unit) := by
  have keep : hostStop s = s := by rw [hostStop, ← h]
  rw [hostCall, if_neg (by simp [h]), keep]

@[simp] theorem loadFromBytes_running (data : List Byte) (s : State) :
    (loadFromBytes data s).2.running = s.running := by
  unfold loadFromBytes
  split
  · rfl
  · simp

/-- A call of the host other than `run()` leaves the block not running. -/
theorem hostCall_running_false {s t : State} {c : HostCall} {r : HostReply} (hc : c ≠ .run)
    (e : hostCall c s = .next (t, r)) : t.running = false := by
  cases hr : s.running with
  | true => rw [hostCall_of_running c hr] at e; cases e
  | false =>
    unfold hostCall at e
    rw [if_neg (by simp [hr])] at e
    cases c with
    | run => exact absurd rfl hc
    | init => cases e; rfl
    | stop => cases e; rfl
    | load data => cases e; rw [loadFromBytes_running, hr]
    | setSystemCall => cases e; exact hr
    | getPointerParam i =>
      cases hp : getPointerParam i s <;> simp only [hp] at e <;> cases e
      exact hr
    | _ => cases e; exact hr

/-- Settles O59: the host's calls one by one, and `step_keeps` for the step. -/
theorem onlyRunStartsARun : Obligations.OnlyRunStartsARun := by
  refine ⟨fun s h => ⟨_, hostCall_run h, rfl, fun _ => rfl, fun _ => rfl, rfl, rfl, rfl, rfl, rfl⟩,
    fun s h => hostCall_stop h, fun s t c r e ht => ?_, fun s t e => (step_keeps e).running,
    fun s c h => hostCall_of_running c h⟩
  by_contra hc
  rw [hostCall_running_false hc e] at ht
  cases ht

end Sys2Proof.Machine

/-! # The memory family (`20_memory.md`)

The arena's bytes as the statements write them, what a handler's actions and an instruction leave in the arena, and the
word a fetch reads; then the statements about reads, writes, stores and the step. -/

/-! ## The bytes of a value, and the little-endian sum (R62, R63, R66) -/

namespace Sys2Proof.Machine

open Sys2Proof.Claims

theorem byteOf_eq (v : Word) (i : Nat) : byteOf v i = (v >>> (8 * i)).setWidth 8 := by
  rw [byteOf, ← Nat.shiftRight_eq_div_pow, ← BitVec.toNat_ushiftRight, BitVec.ofNat_toNat]

/-- Each byte of a little-endian sum is the byte that stands there. -/
theorem Memory.ofNat_leSum_div (m : Memory) {n i : Nat} (hi : i < n) (a : Nat) :
    BitVec.ofNat 8 (m.leSum a n / 2 ^ (8 * i)) = m.readByte (a + i) := by
  induction n generalizing a i with
  | zero => omega
  | succ n ih =>
    have hb := (m.readByte a).isLt
    rw [Memory.leSum]
    cases i with
    | zero =>
      apply BitVec.eq_of_toNat_eq
      simp only [BitVec.toNat_ofNat, Nat.mul_zero, Nat.pow_zero, Nat.div_one, Nat.add_zero]
      omega
    | succ i =>
      have tail : ((m.readByte a).toNat + 256 * m.leSum (a + 1) n) / 256 = m.leSum (a + 1) n := by omega
      rw [show 2 ^ (8 * (i + 1)) = 256 * 2 ^ (8 * i) by ring, ← Nat.div_div_eq_div_mul, tail, ih (by omega),
        Nat.add_assoc, Nat.add_comm 1 i]

theorem Memory.byteOf_readBytes (m : Memory) {n i : Nat} (hn : n ≤ 8) (hi : i < n) (a : Nat) :
    byteOf (m.readBytes a n) i = m.readByte (a + i) := by
  rw [byteOf, Memory.readBytes_toNat n hn, Memory.ofNat_leSum_div m hi]

theorem Memory.readBytes_eq (m : Memory) {n : Nat} (hn : n ≤ 8) (a : Nat) :
    m.readBytes a n = BitVec.ofNat 64 (m.leSum a n) := by
  rw [← Memory.readBytes_toNat n hn, BitVec.ofNat_toNat, BitVec.setWidth_eq]

theorem littleEndian_eq_leSum (s : State) (a n : Nat) : littleEndian s a n = s.mem.leSum a n := by
  induction n generalizing a with
  | zero => rfl
  | succ n ih =>
    have tail : ∑ i ∈ Finset.range n, (s.byte (a + (i + 1))).toNat * 2 ^ (8 * (i + 1)) =
        256 * littleEndian s (a + 1) n := by
      rw [littleEndian, Finset.mul_sum]
      refine Finset.sum_congr rfl fun i _ => ?_
      rw [show a + (i + 1) = a + 1 + i by omega]
      ring
    rw [Memory.leSum, ← ih, littleEndian, Finset.sum_range_succ', tail]
    simp only [State.byte, Nat.add_zero, Nat.mul_zero, Nat.pow_zero, Nat.mul_one]
    exact Nat.add_comm ..

/-- What a write in range leaves, as the statements write it (R63). -/
theorem written_bytesStored (s : State) (a : Word) (w : Width) (v : Word) :
    BytesStored s (written s a w v) a.toNat w.bytes v := fun b => by
  rw [written_byte, byteOf_eq]

/-! ## The statements about reads and writes -/

/-- Settles O13: both sides are the little-endian sum of the model's own laws. -/
theorem memReadIsLittleEndian : Obligations.MemReadIsLittleEndian := by
  refine fun s a w => ⟨fun h => ?_, fun h => memRead_outOfRange (by omega)⟩
  rw [memRead_inRange h, Memory.readBytes_eq s.mem (width_bytes_le w).2, littleEndian_eq_leSum]

/-- Settles O14: in range the next state is `written`. -/
theorem memWriteStoresLowBytes : Obligations.MemWriteStoresLowBytes := fun s a w v =>
  ⟨fun h => ⟨_, memWrite_inRange h, written_bytesStored s a w v, fun _ => rfl, rfl, rfl, rfl, ⟨rfl, rfl, rfl⟩, rfl,
    rfl, rfl, rfl⟩, fun h => memWrite_outOfRange (by omega)⟩

/-- Settles O15: each byte of the value read is the arena's, and the arena's are what the write stored. -/
theorem readAfterWrite : Obligations.ReadAfterWrite := by
  intro s t a b w u v e
  obtain ⟨hr, rfl⟩ := memWrite_ok e
  refine ⟨fun x hx i hi => ?_, ?_⟩
  · rcases memRead_cases (written s b u v) a w with ⟨_, hread⟩ | ⟨_, hread⟩ <;> rw [hread] at hx <;> cases hx
    rw [Memory.byteOf_readBytes _ (width_bytes_le w).2 hi]
    exact written_bytesStored s b u v (a.toNat + i)
  · rw [memRead_inRange hr, Memory.readBytes_eq _ (width_bytes_le u).2, written_mem, Memory.leSum_writeBytes]

end Sys2Proof.Machine

/-! ## Only stores write the arena (R65, R71, `40_load_store.md` R140) -/

namespace Sys2Proof.Machine

open Sys2Proof.Claims

variable {i : Instr} {s t : State}

theorem loadInto_mem {rd rs1 : RegIdx} {imm : BitVec 12} {w : Width} {f : Word → Word}
    (e : loadInto rd rs1 imm w f s = .next t) : t.mem = s.mem := by
  rcases loadInto_cases rd rs1 imm w f s with ⟨_, e'⟩ | ⟨_, e'⟩ <;> rw [e'] at e <;> cases e
  · exact retire_mem ..
  · rfl

theorem branchIf_mem (c : Bool) (imm : BitVec 13) (s : State) : (branchIf c imm s).mem = s.mem := by
  unfold branchIf
  split <;> rfl

/-- The instruction leaves the arena, or it is a store and writes it where its operands say. -/
def WritesWhereStored (i : Instr) (s t : State) : Prop :=
  t.mem = s.mem ∨ ∃ a w v, storedAt s i = some (a.toNat, w.bytes) ∧ t.mem = (written s a w v).mem

theorem storeFrom_writesWhereStored {rs1 rs2 : RegIdx} {imm : BitVec 12} {w : Width}
    (hs : storedAt s i = some ((effAddr s rs1 imm).toNat, w.bytes)) (e : storeFrom rs1 rs2 imm w s = .next t) :
    WritesWhereStored i s t := by
  rcases storeFrom_cases rs1 rs2 imm w s with ⟨_, e'⟩ | ⟨_, e'⟩ <;> rw [e'] at e <;> cases e
  · exact .inr ⟨_, w, _, hs, rfl⟩
  · exact .inl rfl

theorem exec_writesWhereStored (hi : i ≠ .ecall) (e : exec i s = .next t) : WritesWhereStored i s t := by
  cases i with
  | sb => exact storeFrom_writesWhereStored (w := .byte) rfl e
  | sh => exact storeFrom_writesWhereStored (w := .half) rfl e
  | sw => exact storeFrom_writesWhereStored (w := .word) rfl e
  | sd => exact storeFrom_writesWhereStored (w := .double) rfl e
  | lb => exact .inl (loadInto_mem e)
  | lh => exact .inl (loadInto_mem e)
  | lw => exact .inl (loadInto_mem e)
  | ld => exact .inl (loadInto_mem e)
  | lbu => exact .inl (loadInto_mem e)
  | lhu => exact .inl (loadInto_mem e)
  | lwu => exact .inl (loadInto_mem e)
  | beq => cases e; exact .inl (branchIf_mem ..)
  | bne => cases e; exact .inl (branchIf_mem ..)
  | blt => cases e; exact .inl (branchIf_mem ..)
  | bge => cases e; exact .inl (branchIf_mem ..)
  | bltu => cases e; exact .inl (branchIf_mem ..)
  | bgeu => cases e; exact .inl (branchIf_mem ..)
  | jal => cases e; exact .inl (link_mem ..)
  | jalr => cases e; exact .inl (link_mem ..)
  | fence => cases e; exact .inl rfl
  | ebreak => cases e; exact .inl rfl
  | ecall => exact absurd rfl hi
  | _ => cases e; exact .inl (retire_mem ..)

/-- Settles O25: a byte outside the access of `exec_writesWhereStored` is as before. -/
theorem onlyStoresWriteArena : Obligations.OnlyStoresWriteArena := by
  intro s t i hi e b hb
  rcases exec_writesWhereStored hi e with h | ⟨a, w, v, hs, h⟩
  · rw [State.byte, h]; rfl
  · have stored : t.byte b = (written s a w v).byte b := by rw [State.byte, h]; rfl
    rw [stored, written_bytesStored s a w v b, if_neg (hb _ _ hs)]

end Sys2Proof.Machine

/-! ## The step of a running block runs the word at the pc (R66, `30_encoding.md` R120) -/

namespace Sys2Proof.Machine

open Sys2Proof.Claims

variable {s : State} {w : InstWord}

theorem step_of_decode_ok {i : Instr} (hr : s.running = true) (hf : fetch s = .ok w) (hd : decode w = .ok i) :
    step s = exec i s := by
  simp only [step, hr, if_true, hf, hd]

theorem step_of_decode_error {r : PanicReason} (hr : s.running = true) (hf : fetch s = .ok w)
    (hd : decode w = .error r) : step s = .next (takePanic r s) := by
  simp only [step, hr, if_true, hf, hd]

theorem takePanic_reported (r : PanicReason) (s : State) : PanicReported s (takePanic r s) r := by
  refine ⟨fun h => ?_, fun cb h => ⟨panicText r, ?_, ?_, ?_⟩⟩
  · rw [takePanic_callbackCalls, panicCalls, h, List.append_nil]
  · rw [takePanic_callbackCalls, panicCalls, h]
  · rintro rfl; rfl
  · rintro rfl; rfl

/-- Taking a panic is all that R262 lists, and no more. -/
theorem takePanic_raises (r : PanicReason) (s : State) : Raises (.next (takePanic r s)) s r :=
  ⟨_, rfl, rfl, rfl, rfl, takePanic_reported r s, fun _ => rfl, fun _ => rfl, rfl, rfl, rfl⟩

/-- The word fetched, as a number, is the little-endian sum of its four bytes (R66). -/
theorem fetch_toNat (hp : s.pc.toNat + 4 ≤ 65536) : ∃ w, fetch s = .ok w ∧ w.toNat = s.mem.leSum s.pc.toNat 4 := by
  refine ⟨_, fetch_inRange hp, ?_⟩
  rw [BitVec.toNat_setWidth, Memory.readBytes_toNat 4 (by omega), Nat.mod_eq_of_lt (Memory.leSum_lt 4 ..)]

/-- A byte below a word: the last place of a number in base 256. -/
theorem toNat_append_byte {n : Nat} (x : BitVec n) (b : Byte) : (x ++ b).toNat = b.toNat + 256 * x.toNat := by
  rw [BitVec.toNat_append, ← Nat.shiftLeft_add_eq_or_of_lt b.isLt, Nat.shiftLeft_eq]
  omega

theorem instWordOfBytes_toNat (m : Memory) (a : Nat) :
    (instWordOfBytes (m.readByte a) (m.readByte (a + 1)) (m.readByte (a + 2)) (m.readByte (a + 3))).toNat =
      m.leSum a 4 := by
  simp only [instWordOfBytes, toNat_append_byte, Memory.leSum, Nat.mul_zero, Nat.add_zero]

theorem fetch_eq_instWordOfBytes (hp : s.pc.toNat + 4 ≤ 65536) :
    fetch s = .ok (instWordOfBytes (s.byte s.pc.toNat) (s.byte (s.pc.toNat + 1)) (s.byte (s.pc.toNat + 2))
      (s.byte (s.pc.toNat + 3))) := by
  obtain ⟨w, hf, hw⟩ := fetch_toNat hp
  rw [hf]
  exact congrArg _ (BitVec.eq_of_toNat_eq (hw.trans (instWordOfBytes_toNat s.mem s.pc.toNat).symm))

/-- Settles O21: the word fetched is the one `decodeBytes` decodes. -/
theorem stepRunsDecodedInstruction : Obligations.StepRunsDecodedInstruction := fun _ _ hr hp hd =>
  step_of_decode_ok hr (fetch_eq_instWordOfBytes hp) hd

/-- A running block fetches the bytes its arena holds, and its step is what they decode to. -/
theorem fetchesBytes {byteAt : Nat → Byte} (hr : s.running = true) (hp : s.pc.toNat + 4 ≤ 65536)
    (hb : ∀ b, s.byte b = byteAt b) : FetchesBytes s byteAt := by
  obtain ⟨w, hf, hw⟩ := fetch_toNat hp
  refine ⟨w, hf, fun k hk => ?_, fun i hd => step_of_decode_ok hr hf hd, fun r hd => ?_⟩
  · rw [hw, Memory.ofNat_leSum_div s.mem hk]
    exact hb _
  · rw [step_of_decode_error hr hf hd]
    exact takePanic_raises r s

/-- After a store in range the next fetch reads the stored bytes, and every other as before. -/
theorem storeFrom_fetchesBytes {rs1 rs2 : RegIdx} {imm : BitVec 12} {u : Width} (hr : s.running = true)
    (hu : (effAddr s rs1 imm).toNat + u.bytes ≤ 65536) (hp : (s.pc + 4#64).toNat + 4 ≤ 65536) :
    ∃ t, storeFrom rs1 rs2 imm u s = .next t ∧ t.pc = s.pc + 4#64 ∧
      FetchesBytes t fun b =>
        if (effAddr s rs1 imm).toNat ≤ b ∧ b < (effAddr s rs1 imm).toNat + u.bytes then
          byteOf (s.reg rs2) (b - (effAddr s rs1 imm).toNat)
        else s.byte b := by
  rcases storeFrom_cases rs1 rs2 imm u s with ⟨_, e⟩ | ⟨hn, _⟩
  · exact ⟨_, e, rfl, fetchesBytes hr hp (written_bytesStored s _ u _)⟩
  · exact absurd hu hn

end Sys2Proof.Machine

/-! ## What a handler's actions leave when no access is out of range (`44_system.md` R238) -/

namespace Sys2Proof.Machine

open Sys2Proof.Claims

variable {s : State}

/-- The state after one action whose arena access, if it makes one, is in range. -/
def acted (s : State) : HandlerAction → State
  | .setReg r v => s.setReg r v
  | .readMem _ _ => s
  | .writeMem a w v => written s a w v
  | .stop => { s with running := false }

theorem runActions_cons {a : HandlerAction} (h : actionInRange a) (as : List HandlerAction) (s : State) :
    runActions (a :: as) s = runActions as (acted s a) := by
  cases a with
  | setReg r v => rfl
  | readMem a w => rw [runActions, memRead_inRange h]; rfl
  | writeMem a w v => rw [runActions, memWrite_inRange h]; rfl
  | stop => rfl

/-- Actions in range are all done, in order. -/
theorem runActions_inRange {as : List HandlerAction} (h : ∀ a ∈ as, actionInRange a) (s : State) :
    runActions as s = .done (as.foldl acted s) := by
  induction as generalizing s with
  | nil => rfl
  | cons a as ih =>
    obtain ⟨ha, has⟩ := List.forall_mem_cons.1 h
    rw [runActions_cons ha, ih has, List.foldl_cons]

theorem foldl_acted_keeps {as : List HandlerAction} (h : ∀ a ∈ as, actionInRange a) (s : State) :
    HandlerKeeps s (as.foldl acted s) := by
  have keeps := runActions_keeps as s
  rwa [runActions_inRange h] at keeps

theorem foldl_acted_byte (as : List HandlerAction) (s : State) (b : Nat) :
    (as.foldl acted s).byte b = byteAfter b as (s.byte b) := by
  induction as generalizing s with
  | nil => rfl
  | cons a as ih =>
    rw [List.foldl_cons, ih]
    cases a with
    | setReg r v => exact congrArg (byteAfter b as) (setReg_byte ..)
    | readMem a w => rfl
    | writeMem a w v => rw [acted, written_bytesStored s a w v b, byteAfter]
    | stop => rfl

theorem acted_running {a : HandlerAction} (h : a ≠ .stop) (s : State) : (acted s a).running = s.running := by
  cases a with
  | setReg r v => exact setReg_running ..
  | readMem a w => rfl
  | writeMem a w v => rfl
  | stop => exact absurd rfl h

/-- Only `stop()` touches the running flag (R240). -/
theorem foldl_acted_running {as : List HandlerAction} (h : .stop ∉ as) (s : State) :
    (as.foldl acted s).running = s.running := by
  induction as generalizing s with
  | nil => rfl
  | cons a as ih =>
    obtain ⟨ha, has⟩ := not_or.1 (mt List.mem_cons.2 h)
    rw [List.foldl_cons, ih has, acted_running fun e => ha e.symm]

/-- A handler whose actions are done finishes its ECALL. -/
theorem callHandler_done {h : HandlerId} {r : HandlerReturn} {u : State} (hm : (nextMove h s).1 = .returns r)
    (hu : runActions r.actions (nextMove h s).2 = .done u) : callHandler h s = .next (finishHandler r.result u) := by
  rcases e : nextMove h s with ⟨m, t⟩
  rw [e] at hm hu
  subst hm
  simp only [callHandler, e, hu]

/-- An ECALL that invokes a handler is the call of one that the move names. -/
theorem exec_ecall_of_invokes {r : HandlerReturn} (hi : Invokes s r) :
    ∃ h, exec .ecall s = callHandler h s ∧ (nextMove h s).1 = .returns r := by
  obtain ⟨hcode, h, hfind, hmove⟩ := hi
  refine ⟨h, ?_, ?_⟩
  · rcases execEcall_cases s with ⟨hz, _⟩ | ⟨_, hn, _⟩ | ⟨g, _, hg, e⟩
    · exact absurd hz hcode
    · exact absurd (hfind.symm.trans hn) nofun
    · obtain rfl : h = g := Option.some.inj (hfind.symm.trans hg)
      exact e
  · rcases hmove with ⟨rest, hs⟩ | ⟨hs, rfl⟩ <;> rw [nextMove, hs]

@[simp] theorem finishHandler_pc (v : Word) (s : State) : (finishHandler v s).pc = s.pc + 4#64 := retire_pc ..

@[simp] theorem finishHandler_running (v : Word) (s : State) : (finishHandler v s).running = s.running :=
  retire_running ..

@[simp] theorem finishHandler_byte (v : Word) (s : State) (b : Nat) : (finishHandler v s).byte b = s.byte b :=
  retire_byte ..

/-- After an ECALL whose handler makes every access in range and does not stop the run, the next fetch reads what the
handler's actions left. -/
theorem ecall_fetchesBytes {r : HandlerReturn} (hr : s.running = true) (hi : Invokes s r)
    (ha : ∀ a ∈ r.actions, actionInRange a) (hstop : .stop ∉ r.actions) (hp : (s.pc + 4#64).toNat + 4 ≤ 65536) :
    ∃ t, exec .ecall s = .next t ∧ t.pc = s.pc + 4#64 ∧ FetchesBytes t fun b => byteAfter b r.actions (s.byte b) := by
  obtain ⟨h, e, hm⟩ := exec_ecall_of_invokes hi
  obtain ⟨moves, draws, hs⟩ := nextMove_keeps h s
  have hpc : (r.actions.foldl acted (nextMove h s).2).pc = s.pc := by rw [(foldl_acted_keeps ha _).pc, hs]
  have hrun : (r.actions.foldl acted (nextMove h s).2).running = true := by rw [foldl_acted_running hstop, hs]; exact hr
  have hbyte (b : Nat) : (r.actions.foldl acted (nextMove h s).2).byte b = byteAfter b r.actions (s.byte b) := by
    rw [foldl_acted_byte, hs]; rfl
  refine ⟨_, e.trans (callHandler_done hm (runActions_inRange ha _)), by rw [finishHandler_pc, hpc],
    fetchesBytes (by rw [finishHandler_running, hrun]) (by rwa [finishHandler_pc, hpc]) fun b => ?_⟩
  rw [finishHandler_byte, hbyte]

/-- Settles O23: `fetchesBytes` at the state itself, after each width of store and after the handler's actions. -/
theorem nextFetchSeesStore : Obligations.NextFetchSeesStore := by
  refine ⟨fun s hr hp => fetchesBytes hr hp fun _ => rfl, fun st hst rs1 rs2 imm s hr hu hp => ?_,
    fun s r hr hi ha hstop hp => ecall_fetchesBytes hr hi ha hstop hp⟩
  simp only [List.mem_cons, List.not_mem_nil, or_false] at hst
  rcases hst with rfl | rfl | rfl | rfl
  · exact storeFrom_fetchesBytes (u := .byte) hr hu hp
  · exact storeFrom_fetchesBytes (u := .half) hr hu hp
  · exact storeFrom_fetchesBytes (u := .word) hr hu hp
  · exact storeFrom_fetchesBytes (u := .double) hr hu hp

end Sys2Proof.Machine

/-! # The encoding family (`30_encoding.md`)

Fields and immediates as numbers; the encoder and the decoder against each other and against the opcode table; the words
that are no instruction, and the panics they raise; that every instruction has a next state; and how a run ends. -/

/-! ## Fields and immediates as numbers (R91, R98 to R103) -/

namespace Sys2Proof

open Claims

theorem extract_toNat_eq_shift_and (w : InstWord) (lo len : Nat) :
    (w.extractLsb' lo len).toNat = (w.toNat >>> lo) &&& (2 ^ len - 1) := by
  rw [BitVec.extractLsb'_toNat, Nat.and_two_pow_sub_one_eq_mod]

/-- Settles O2: each field is an extract, written by its shift and mask or by its quotient and remainder. -/
theorem fieldsAreShiftAndMask : Obligations.FieldsAreShiftAndMask := fun w =>
  ⟨extract_toNat_eq_shift_and w 0 7, extract_toNat_eq_shift_and w 7 5, extract_toNat_eq_shift_and w 15 5,
    extract_toNat_eq_shift_and w 20 5, extract_toNat_eq_shift_and w 12 3, extract_toNat_eq_shift_and w 25 7,
    extract_toNat 20 12 w, extract_toNat 26 6 w, extract_toNat 20 6 w, extract_toNat 20 5 w⟩

theorem immIOf_toNat (w : InstWord) : (immIOf w).toNat = bits w 31 20 := extract_toNat 20 12 w

theorem immSOf_toNat (w : InstWord) : (immSOf w).toNat = bits w 31 25 * 2 ^ 5 + bits w 11 7 := by
  simp only [immSOf, append_toNat, extract_toNat, bits]

theorem immBOf_toNat (w : InstWord) :
    (immBOf w).toNat = bits w 31 31 * 2 ^ 12 + bits w 7 7 * 2 ^ 11 + bits w 30 25 * 2 ^ 5 + bits w 11 8 * 2 := by
  simp only [immBOf, append_toNat, extract_toNat, bits, BitVec.toNat_ofNat]
  omega

theorem immUOf_toNat (w : InstWord) : (immUOf w).toNat = bits w 31 12 * 2 ^ 12 := by
  simp only [immUOf_eq, append_toNat, extract_toNat, bits, BitVec.toNat_ofNat]
  omega

theorem immJOf_toNat (w : InstWord) :
    (immJOf w).toNat = bits w 31 31 * 2 ^ 20 + bits w 19 12 * 2 ^ 12 + bits w 20 20 * 2 ^ 11 + bits w 30 21 * 2 := by
  simp only [immJOf, append_toNat, extract_toNat, bits, BitVec.toNat_ofNat]
  omega

section

variable {n : Nat}

theorem toInt_signExtend_eq_bmod (hn : n ≤ 64) (imm : BitVec n) :
    (imm.signExtend 64).toInt = (imm.toNat : Int).bmod (2 ^ n) := by
  rw [BitVec.toInt_signExtend_of_le hn, BitVec.toInt_eq_toNat_bmod]

theorem toInt_signExtend_bounds (hn : n ≤ 64) (imm : BitVec n) :
    -2 ^ (n - 1) ≤ (imm.signExtend 64).toInt ∧ (imm.signExtend 64).toInt < 2 ^ (n - 1) := by
  rw [BitVec.toInt_signExtend_of_le hn]
  exact ⟨imm.le_toInt, imm.toInt_lt⟩

/-- Sign extension changes an immediate by a multiple of 2ⁿ, so it keeps an even one even. -/
theorem toInt_signExtend_even (hn : n ≤ 64) (h0 : n ≠ 0) {imm : BitVec n} (h : imm.getLsbD 0 = false) :
    (imm.signExtend 64).toInt % 2 = 0 := by
  have even : imm.toNat % 2 = 0 := by
    rw [BitVec.getLsbD, Nat.testBit_zero, decide_eq_false_iff_not] at h
    omega
  have multiple : (2 : Int) ∣ (imm.toNat : Int).bmod (2 ^ n) - imm.toNat :=
    (Int.natCast_dvd_natCast.2 (dvd_pow_self 2 h0)).trans Int.dvd_bmod_sub_self
  rw [toInt_signExtend_eq_bmod hn]
  omega

end

/-- Settles O3: the pieces are the immediate's number, and its sign extension keeps its signed value. -/
theorem immediatesAreAssembled : Obligations.ImmediatesAreAssembled := by
  intro w
  have boundsI := toInt_signExtend_bounds (by decide) (immIOf w)
  have boundsS := toInt_signExtend_bounds (by decide) (immSOf w)
  have boundsB := toInt_signExtend_bounds (by decide) (immBOf w)
  have boundsJ := toInt_signExtend_bounds (by decide) (immJOf w)
  have evenB := toInt_signExtend_even (by decide) (by decide) (immBOf_even w)
  have evenJ := toInt_signExtend_even (by decide) (by decide) (immJOf_even w)
  rw [← immIOf_toNat, ← immSOf_toNat, ← immBOf_toNat, ← immUOf_toNat, ← immJOf_toNat]
  refine ⟨toInt_signExtend_eq_bmod (by decide) _, toInt_signExtend_eq_bmod (by decide) _,
    toInt_signExtend_eq_bmod (by decide) _, toInt_signExtend_eq_bmod (by decide) _,
    toInt_signExtend_eq_bmod (by decide) _, ?_, ?_, ?_, ?_⟩ <;> omega

end Sys2Proof

/-! ## Decoding an encoded instruction (R92 to R104) -/

namespace Sys2Proof

theorem immBOf_encB_of_evenOffset {imm : BitVec 13} (h : evenOffset imm = true) (rs2 rs1 : RegIdx) (f3 : BitVec 3)
    (opc : BitVec 7) : immBOf (encB imm rs2 rs1 f3 opc) = imm :=
  immBOf_encB imm rs2 rs1 f3 opc (Bool.not_eq_true' _ ▸ h)

theorem immJOf_encJ_of_evenOffset {imm : BitVec 21} (h : evenOffset imm = true) (rd : RegIdx) (opc : BitVec 7) :
    immJOf (encJ imm rd opc) = imm :=
  immJOf_encJ imm rd opc (Bool.not_eq_true' _ ▸ h)

theorem immUOf_encU_of_upperOnly {imm : BitVec 32} (h : upperOnly imm = true) (rd : RegIdx) (opc : BitVec 7) :
    immUOf (encU imm rd opc) = imm :=
  immUOf_encU imm rd opc (eq_of_beq h)

/-- Each format's fields, read back from its word, select the row and give the operands. -/
theorem decode_encode (i : Instr) (h : i.wellFormed = true) : decode (encode i) = .ok i := by
  cases i
  case lb | lh | lw | ld | lbu | lhu | lwu => simp [encode, decode_load, decodeLoad]
  case sb | sh | sw | sd => simp [encode, decode_store, decodeStore]
  case addi | slti | sltiu | xori | ori | andi | slli => simp [encode, decode_opImm, decodeOpImm]
  case srli | srai => simp [encode, decode_opImm, decodeOpImm, decodeShiftRightImm]
  case addiw => simp [encode, decode_opImm32, decodeOpImm32]
  case slliw => simp [encode, decode_opImm32, decodeOpImm32, decodeShiftLeftImmWord]
  case srliw | sraiw => simp [encode, decode_opImm32, decodeOpImm32, decodeShiftRightImmWord]
  case add | sub | sll | slt | sltu | xor | srl | sra | or | and | mul | mulh | mulhsu | mulhu | div | divu | rem | remu =>
    simp [encode, decode_op, decodeOp]
  case addw | subw | sllw | srlw | sraw | mulw | divw | divuw | remw | remuw => simp [encode, decode_op32, decodeOp32]
  case lui => simp [encode, decode_lui, immUOf_encU_of_upperOnly h]
  case auipc => simp [encode, decode_auipc, immUOf_encU_of_upperOnly h]
  case jal => simp [encode, decode_jal, immJOf_encJ_of_evenOffset h]
  case jalr => simp [encode, decode_jalr]
  case beq | bne | blt | bge | bltu | bgeu =>
    simp [encode, decode_branch, decodeBranch, immBOf_encB_of_evenOffset h]
  case fence | ecall | ebreak => rfl

/-- Settles O5, by cases on the instruction, one format after the other. -/
theorem decodeOfEncode : Obligations.DecodeOfEncode := decode_encode

end Sys2Proof

/-! ## Words that agree under a mask of the opcode table (R108) -/

namespace Sys2Proof.Laws.WordForm

/-- Every instruction's word agrees with its opcode-table row. -/
theorem statement (i : Instr) : Statement i := by
  cases i
  exacts [lb .., lh .., lw .., ld .., lbu .., lhu .., lwu .., sb .., sh .., sw .., sd .., addi .., slli .., slti ..,
    sltiu .., xori .., srli .., srai .., ori .., andi .., addiw .., slliw .., srliw .., sraiw .., add .., sub .., sll ..,
    slt .., sltu .., xor .., srl .., sra .., or .., and .., mul .., mulh .., mulhsu .., mulhu .., div .., divu .., rem ..,
    remu .., addw .., subw .., sllw .., srlw .., sraw .., mulw .., divw .., divuw .., remw .., remuw .., lui .., auipc ..,
    jal .., jalr .., beq .., bne .., blt .., bge .., bltu .., bgeu .., fence, ecall, ebreak]

end Sys2Proof.Laws.WordForm

namespace Sys2Proof

variable {v w : InstWord}

/-- Two words that agree under a mask agree on every field the mask covers. -/
theorem extract_of_and {m : InstWord} {lo len : Nat} (h : w &&& m = v &&& m)
    (hm : m.extractLsb' lo len = BitVec.allOnes len) : w.extractLsb' lo len = v.extractLsb' lo len := by
  have := congrArg (BitVec.extractLsb' lo len) h
  simpa only [BitVec.extractLsb'_and, hm, BitVec.and_allOnes] using this

theorem opcode_of_opcodeMask (h : w &&& 0x0000007F#32 = v &&& 0x0000007F#32) : opcodeOf w = opcodeOf v :=
  extract_of_and h (by decide)

theorem fields_of_funct3Mask (h : w &&& 0x0000707F#32 = v &&& 0x0000707F#32) :
    opcodeOf w = opcodeOf v ∧ funct3Of w = funct3Of v :=
  ⟨extract_of_and h (by decide), extract_of_and h (by decide)⟩

theorem fields_of_funct6Mask (h : w &&& 0xFC00707F#32 = v &&& 0xFC00707F#32) :
    opcodeOf w = opcodeOf v ∧ funct3Of w = funct3Of v ∧ funct6Of w = funct6Of v :=
  ⟨extract_of_and h (by decide), extract_of_and h (by decide), extract_of_and h (by decide)⟩

theorem fields_of_funct7Mask (h : w &&& 0xFE00707F#32 = v &&& 0xFE00707F#32) :
    opcodeOf w = opcodeOf v ∧ funct3Of w = funct3Of v ∧ funct7Of w = funct7Of v :=
  ⟨extract_of_and h (by decide), extract_of_and h (by decide), extract_of_and h (by decide)⟩

theorem fields_of_funct12Mask (h : w &&& 0xFFF0007F#32 = v &&& 0xFFF0007F#32) :
    opcodeOf w = opcodeOf v ∧ funct12Of w = funct12Of v :=
  ⟨extract_of_and h (by decide), extract_of_and h (by decide)⟩

/-- Settles O11: words that agree outside the ignored bits have the same opcode, selectors and operands. -/
theorem ignoredFieldsHaveNoEffect : Obligations.IgnoredFieldsHaveNoEffect := by
  rintro v w (⟨ho, hf, h⟩ | ⟨ho, h⟩ | ⟨ho, h⟩ | ⟨ho, h⟩)
  · have opcode : opcodeOf v = opcodeOf w := extract_of_and h (by decide)
    have funct3 : funct3Of v = funct3Of w := extract_of_and h (by decide)
    have rd : rdOf v = rdOf w := extract_of_and h (by decide)
    have rs1 : rs1Of v = rs1Of w := extract_of_and h (by decide)
    have shamt : shamt6Of v = shamt6Of w := extract_of_and h (by decide)
    rw [decode_opImm ho, decode_opImm (opcode.symm.trans ho)]
    simp only [decodeOpImm, ← funct3, hf, rd, rs1, shamt]
  · have opcode : opcodeOf v = opcodeOf w := extract_of_and h (by decide)
    have rd : rdOf v = rdOf w := extract_of_and h (by decide)
    have rs1 : rs1Of v = rs1Of w := extract_of_and h (by decide)
    have imm : immIOf v = immIOf w := extract_of_and h (by decide)
    rw [decode_jalr ho, decode_jalr (opcode.symm.trans ho), rd, rs1, imm]
  · rw [decode_fence ho, decode_fence ((opcode_of_opcodeMask h).symm.trans ho)]
  · obtain ⟨opcode, funct12⟩ := fields_of_funct12Mask h
    rw [decode_system ho, decode_system (opcode.symm.trans ho), decodeSystem, decodeSystem, funct12]

end Sys2Proof

/-! ## A decoded word is its instruction's row, and, where it is canonical, its encoding (R104, R108) -/

namespace Sys2Proof

variable {w : InstWord} {i : Instr}

/-- The word has the row's match, and if it is canonical it is the encoding, but for FENCE. -/
structure Represents (w : InstWord) (i : Instr) : Prop where
  row : w &&& i.row.mask = i.row.fixed
  canonical : w &&& i.row.canonicalMask = i.row.canonicalFixed → i = .fence ∨ encode i = w

/-- A word without ignored bits is the encoding itself. -/
theorem Represents.of_encode (h : encode i = w) : Represents w i :=
  ⟨h ▸ (Laws.WordForm.statement i).1, fun _ => .inr h⟩

section

variable {opc : BitVec 7} {f3 : BitVec 3} (ho : opcodeOf w = opc) (hf : funct3Of w = f3)

include ho hf

theorem encI_eq : encI (immIOf w) (rs1Of w) f3 (rdOf w) opc = w := by rw [← ho, ← hf, encI_fields]

theorem encS_eq : encS (immSOf w) (rs2Of w) (rs1Of w) f3 opc = w := by rw [← ho, ← hf, encS_fields]

theorem encB_eq : encB (immBOf w) (rs2Of w) (rs1Of w) f3 opc = w := by rw [← ho, ← hf, encB_fields]

theorem encShift64_eq {f6 : BitVec 6} (h6 : funct6Of w = f6) :
    encShift64 f6 (shamt6Of w) (rs1Of w) f3 (rdOf w) opc = w := by
  rw [← ho, ← hf, ← h6, encShift64_fields]

theorem encR_eq {f7 : BitVec 7} (h7 : funct7Of w = f7) : encR f7 (rs2Of w) (rs1Of w) f3 (rdOf w) opc = w := by
  rw [← ho, ← hf, ← h7, encR_fields]

end

theorem encR_eq_of_key {opc : BitVec 7} {f3 : BitVec 3} {f7 : BitVec 7} (ho : opcodeOf w = opc)
    (hk : keyOf w = f7 ++ f3) : encR f7 (rs2Of w) (rs1Of w) f3 (rdOf w) opc = w := by
  obtain ⟨h7, hf⟩ := key_parts hk
  exact encR_eq ho (hf.trans BitVec.extractLsb'_append_eq_right) (h7.trans BitVec.extractLsb'_append_eq_left)

theorem decodeLoad_represents (ho : opcodeOf w = 0x03#7) (h : decodeLoad w = .ok i) : Represents w i := by
  unfold decodeLoad at h
  split at h <;> cases h
  all_goals exact .of_encode (encI_eq ho ‹funct3Of w = _›)

theorem decodeStore_represents (ho : opcodeOf w = 0x23#7) (h : decodeStore w = .ok i) : Represents w i := by
  unfold decodeStore at h
  split at h <;> cases h
  all_goals exact .of_encode (encS_eq ho ‹funct3Of w = _›)

theorem decodeShiftRightImm_represents (ho : opcodeOf w = 0x13#7) (hf : funct3Of w = 5#3)
    (h : decodeShiftRightImm w = .ok i) : Represents w i := by
  unfold decodeShiftRightImm at h
  split at h <;> cases h
  all_goals exact .of_encode (encShift64_eq ho hf ‹funct6Of w = _›)

/-- SLLI's funct6 is not examined, and is 0 in a canonical word (log entry 14). -/
theorem slli_represents (ho : opcodeOf w = 0x13#7) (hf : funct3Of w = 1#3) :
    Represents w (.slli (rdOf w) (rs1Of w) (shamt6Of w)) where
  row := by rw [Instr.row, and_funct3Mask, ho, hf]; rfl
  canonical h := by
    obtain ⟨_, _, h6⟩ := fields_of_funct6Mask (v := 0x00001013#32) h
    exact .inr (encShift64_eq ho hf h6)

theorem decodeOpImm_represents (ho : opcodeOf w = 0x13#7) (h : decodeOpImm w = .ok i) : Represents w i := by
  unfold decodeOpImm at h
  split at h
  case h_2 hf => cases h; exact slli_represents ho hf
  case h_6 hf => exact decodeShiftRightImm_represents ho hf h
  case h_8 h0 h1 h2 h3 h4 h5 h6 => cases h; exact .of_encode (encI_eq ho (funct3_seven h0 h1 h2 h3 h4 h5 h6))
  all_goals cases h; exact .of_encode (encI_eq ho ‹funct3Of w = _›)

theorem decodeOpImm32_represents (ho : opcodeOf w = 0x1B#7) (h : decodeOpImm32 w = .ok i) : Represents w i := by
  unfold decodeOpImm32 at h
  split at h
  case h_1 hf => cases h; exact .of_encode (encI_eq ho hf)
  case h_2 hf =>
    unfold decodeShiftLeftImmWord at h
    split at h <;> cases h
    exact .of_encode (encR_eq ho hf ‹funct7Of w = _›)
  case h_3 hf =>
    unfold decodeShiftRightImmWord at h
    split at h <;> cases h
    all_goals exact .of_encode (encR_eq ho hf ‹funct7Of w = _›)
  case h_4 => cases h

theorem decodeOp_represents (ho : opcodeOf w = 0x33#7) (h : decodeOp w = .ok i) : Represents w i := by
  unfold decodeOp at h
  split at h <;> cases h
  all_goals exact .of_encode (encR_eq_of_key ho ‹keyOf w = _›)

theorem decodeOp32_represents (ho : opcodeOf w = 0x3B#7) (h : decodeOp32 w = .ok i) : Represents w i := by
  unfold decodeOp32 at h
  split at h <;> cases h
  all_goals exact .of_encode (encR_eq_of_key ho ‹keyOf w = _›)

/-- JALR's funct3 is not examined, and is 0 in a canonical word (log entry 14). -/
theorem jalr_represents (ho : opcodeOf w = 0x67#7) : Represents w (.jalr (rdOf w) (rs1Of w) (immIOf w)) where
  row := by rw [Instr.row, and_opcodeMask, ho]; rfl
  canonical h := by
    obtain ⟨_, hf⟩ := fields_of_funct3Mask (v := 0x00000067#32) h
    exact .inr (encI_eq ho hf)

theorem decodeBranch_represents (ho : opcodeOf w = 0x63#7) (h : decodeBranch w = .ok i) : Represents w i := by
  unfold decodeBranch at h
  split at h <;> cases h
  all_goals exact .of_encode (encB_eq ho ‹funct3Of w = _›)

theorem fence_represents (ho : opcodeOf w = 0x0F#7) : Represents w .fence where
  row := by rw [Instr.row, and_opcodeMask, ho]; rfl
  canonical _ := .inl rfl

/-- A canonical ECALL or EBREAK word is wholly fixed. -/
theorem decodeSystem_represents (ho : opcodeOf w = 0x73#7) (h : decodeSystem w = .ok i) : Represents w i := by
  unfold decodeSystem at h
  split at h
  case h_1 hf | h_2 hf =>
    cases h
    refine ⟨?_, fun h => .inr (h.symm.trans (and_wholeMask w))⟩
    rw [Instr.row, and_funct12Mask, ho, show immIOf w = _ from hf]; rfl
  case h_3 => cases h

theorem decode_represents (h : decode w = .ok i) : Represents w i := by
  unfold decode at h
  split at h
  case h_1 ho => exact decodeLoad_represents ho h
  case h_2 ho => exact decodeStore_represents ho h
  case h_3 ho => exact decodeOpImm_represents ho h
  case h_4 ho => exact decodeOpImm32_represents ho h
  case h_5 ho => exact decodeOp_represents ho h
  case h_6 ho => exact decodeOp32_represents ho h
  case h_7 ho | h_8 ho => cases h; exact .of_encode (by rw [encode, ← ho, encU_fields])
  case h_9 ho => cases h; exact .of_encode (by rw [encode, ← ho, encJ_fields])
  case h_10 ho => cases h; exact jalr_represents ho
  case h_11 ho => exact decodeBranch_represents ho h
  case h_12 ho => cases h; exact fence_represents ho
  case h_13 ho => exact decodeSystem_represents ho h
  case h_14 => cases h

/-- Settles O6: what is decoded is well-formed, and `Represents` has the rest. -/
theorem canonicalWordReencodes : Obligations.CanonicalWordReencodes := fun _ _ h =>
  ⟨decode_wellFormed h, (decode_represents h).canonical⟩

/-- A word with a row's match agrees with the encoding on every selector, so it decodes to an instruction of the row. -/
theorem decode_of_row (h : w &&& i.row.mask = i.row.fixed) : ∃ j, decode w = .ok j ∧ j.row = i.row := by
  have h : w &&& i.row.mask = encode i &&& i.row.mask := h.trans (Laws.WordForm.statement i).1.symm
  cases i
  case lb | lh | lw | ld | lbu | lhu | lwu =>
    obtain ⟨ho, hf⟩ := fields_of_funct3Mask h
    simp [decode_load, decodeLoad, ho, hf, encode]
    rfl
  case sb | sh | sw | sd =>
    obtain ⟨ho, hf⟩ := fields_of_funct3Mask h
    simp [decode_store, decodeStore, ho, hf, encode]
    rfl
  case addi | slti | sltiu | xori | ori | andi | slli =>
    obtain ⟨ho, hf⟩ := fields_of_funct3Mask h
    simp [decode_opImm, decodeOpImm, ho, hf, encode]
    rfl
  case srli | srai =>
    obtain ⟨ho, hf, h6⟩ := fields_of_funct6Mask h
    simp [decode_opImm, decodeOpImm, decodeShiftRightImm, ho, hf, h6, encode]
    rfl
  case addiw =>
    obtain ⟨ho, hf⟩ := fields_of_funct3Mask h
    simp [decode_opImm32, decodeOpImm32, ho, hf, encode]
    rfl
  case slliw | srliw | sraiw =>
    obtain ⟨ho, hf, h7⟩ := fields_of_funct7Mask h
    simp [decode_opImm32, decodeOpImm32, decodeShiftLeftImmWord, decodeShiftRightImmWord, ho, hf, h7, encode]
    rfl
  case add | sub | sll | slt | sltu | xor | srl | sra | or | and | mul | mulh | mulhsu | mulhu | div | divu | rem | remu =>
    obtain ⟨ho, hf, h7⟩ := fields_of_funct7Mask h
    simp [decode_op, decodeOp, keyOf, ho, hf, h7, encode]
    rfl
  case addw | subw | sllw | srlw | sraw | mulw | divw | divuw | remw | remuw =>
    obtain ⟨ho, hf, h7⟩ := fields_of_funct7Mask h
    simp [decode_op32, decodeOp32, keyOf, ho, hf, h7, encode]
    rfl
  case lui => exact ⟨_, decode_lui ((opcode_of_opcodeMask h).trans (opcodeOf_encU ..)), rfl⟩
  case auipc => exact ⟨_, decode_auipc ((opcode_of_opcodeMask h).trans (opcodeOf_encU ..)), rfl⟩
  case jal => exact ⟨_, decode_jal ((opcode_of_opcodeMask h).trans (opcodeOf_encJ ..)), rfl⟩
  case jalr => exact ⟨_, decode_jalr ((opcode_of_opcodeMask h).trans (opcodeOf_encI ..)), rfl⟩
  case beq | bne | blt | bge | bltu | bgeu =>
    obtain ⟨ho, hf⟩ := fields_of_funct3Mask h
    simp [decode_branch, decodeBranch, ho, hf, encode]
    rfl
  case fence => exact ⟨_, decode_fence ((opcode_of_opcodeMask h).trans (opcodeOf_encI ..)), rfl⟩
  case ecall | ebreak =>
    obtain ⟨ho, h12⟩ := fields_of_funct12Mask h
    simp [decode_system, decodeSystem, ho, h12, encode]

/-- Settles O4: `Represents` for one direction, `decode_of_row` for the other. -/
theorem decoderFollowsOpcodeTable : Obligations.DecoderFollowsOpcodeTable :=
  ⟨fun _ _ h => (decode_represents h).row, fun _ _ h => decode_of_row h⟩

end Sys2Proof

/-! ## The words that are no instruction (R106, R107, R221, `44_system.md` R236) -/

namespace Sys2Proof

variable {w : InstWord} {r : PanicReason}

theorem decodeLoad_error_iff : decodeLoad w = .error r ↔ .invalidFunct = r ∧ funct3Of w = 7#3 := by
  unfold decodeLoad
  split
  case h_8 h0 h1 h2 h3 h4 h5 h6 =>
    rw [Except.error.injEq, iff_self_and]
    exact fun _ => funct3_seven h0 h1 h2 h3 h4 h5 h6
  all_goals simp [*]

theorem decodeStore_error_iff : decodeStore w = .error r ↔ .invalidFunct = r ∧ 4 ≤ (funct3Of w).toNat := by
  unfold decodeStore
  split
  case h_5 h0 h1 h2 h3 =>
    rw [Except.error.injEq, iff_self_and]
    simp only [← BitVec.toNat_inj, BitVec.toNat_ofNat, imp_false] at h0 h1 h2 h3
    omega
  all_goals simp [*]

theorem decodeShiftRightImm_error_iff :
    decodeShiftRightImm w = .error r ↔ .invalidFunct = r ∧ (funct6Of w).toNat ∉ [0b000000, 0b010000] := by
  unfold decodeShiftRightImm
  split
  case h_3 => simp_all [← BitVec.toNat_inj]
  all_goals simp [*]

theorem decodeOpImm_error_iff :
    decodeOpImm w = .error r ↔
      .invalidFunct = r ∧ funct3Of w = 5#3 ∧ (funct6Of w).toNat ∉ [0b000000, 0b010000] := by
  unfold decodeOpImm
  split
  case h_6 hf => rw [decodeShiftRightImm_error_iff, and_iff_right hf]
  all_goals simp_all

theorem decodeOpImm32_error_iff :
    decodeOpImm32 w = .error r ↔
      .invalidFunct = r ∧ ¬ (funct3Of w = 0#3 ∨ (funct3Of w = 1#3 ∧ funct7Of w = 0x00#7) ∨
        (funct3Of w = 5#3 ∧ (funct7Of w = 0x00#7 ∨ funct7Of w = 0x20#7))) := by
  unfold decodeOpImm32
  split
  case h_1 hf => simp [hf]
  case h_2 hf => unfold decodeShiftLeftImmWord; split <;> simp_all
  case h_3 hf => unfold decodeShiftRightImmWord; split <;> simp_all
  case h_4 => simp_all

theorem decodeOp_error_iff :
    decodeOp w = .error r ↔
      .invalidFunct = r ∧ (keyOf w).toNat ∉ [0x000, 0x100, 0x001, 0x002, 0x003, 0x004, 0x005, 0x105, 0x006, 0x007, 0x008,
        0x009, 0x00A, 0x00B, 0x00C, 0x00D, 0x00E, 0x00F] := by
  unfold decodeOp
  split
  case h_19 => simp_all [← BitVec.toNat_inj]
  all_goals simp [*]

theorem decodeOp32_error_iff :
    decodeOp32 w = .error r ↔
      .invalidFunct = r ∧ (keyOf w).toNat ∉ [0x000, 0x100, 0x001, 0x005, 0x105, 0x008, 0x00C, 0x00D, 0x00E, 0x00F] := by
  unfold decodeOp32
  split
  case h_11 => simp_all [← BitVec.toNat_inj]
  all_goals simp [*]

theorem decodeBranch_error_iff :
    decodeBranch w = .error r ↔ .invalidFunct = r ∧ (funct3Of w = 2#3 ∨ funct3Of w = 3#3) := by
  unfold decodeBranch
  split
  case h_7 h0 h1 h4 h5 h6 h7 =>
    rw [Except.error.injEq, iff_self_and]
    intro _
    by_contra hn
    obtain ⟨h2, h3⟩ := not_or.1 hn
    exact h7 (funct3_seven h0 h1 h2 h3 h4 h5 h6)
  all_goals simp [*]

theorem decodeSystem_error_iff :
    decodeSystem w = .error r ↔ .invalidSystem = r ∧ funct12Of w ≠ 0#12 ∧ funct12Of w ≠ 1#12 := by
  unfold decodeSystem
  split <;> simp_all

/-- A sub-field of a recognised opcode that is no instruction (R107, R221; the branch numbers are G2, log entry 15). -/
def IllegalFunct (w : InstWord) : Prop :=
  (opcodeOf w = 0x03#7 ∧ funct3Of w = 7#3) ∨
  (opcodeOf w = 0x23#7 ∧ 4 ≤ (funct3Of w).toNat) ∨
  (opcodeOf w = 0x13#7 ∧ funct3Of w = 5#3 ∧ (funct6Of w).toNat ∉ [0b000000, 0b010000]) ∨
  (opcodeOf w = 0x1B#7 ∧
    ¬ (funct3Of w = 0#3 ∨ (funct3Of w = 1#3 ∧ funct7Of w = 0x00#7) ∨
      (funct3Of w = 5#3 ∧ (funct7Of w = 0x00#7 ∨ funct7Of w = 0x20#7)))) ∨
  (opcodeOf w = 0x33#7 ∧
    (keyOf w).toNat ∉ [0x000, 0x100, 0x001, 0x002, 0x003, 0x004, 0x005, 0x105, 0x006, 0x007, 0x008, 0x009, 0x00A, 0x00B,
      0x00C, 0x00D, 0x00E, 0x00F]) ∨
  (opcodeOf w = 0x3B#7 ∧
    (keyOf w).toNat ∉ [0x000, 0x100, 0x001, 0x005, 0x105, 0x008, 0x00C, 0x00D, 0x00E, 0x00F]) ∨
  (opcodeOf w = 0x63#7 ∧ (funct3Of w = 2#3 ∨ funct3Of w = 3#3))

/-- The thirteen opcodes (R106). -/
def knownOpcodes : List Nat := [0x03, 0x0F, 0x13, 0x17, 0x1B, 0x23, 0x33, 0x37, 0x3B, 0x63, 0x67, 0x6F, 0x73]

/-- Which words raise which panic: an opcode's selection fails in its own way, and no other opcode's is tried. -/
theorem decode_error_iff :
    decode w = .error r ↔
      (.invalidFunct = r ∧ IllegalFunct w) ∨
      (.invalidSystem = r ∧ opcodeOf w = 0x73#7 ∧ funct12Of w ≠ 0#12 ∧ funct12Of w ≠ 1#12) ∨
      (.invalidOpcode = r ∧ (opcodeOf w).toNat ∉ knownOpcodes) := by
  unfold decode
  split
  case h_1 ho => rw [decodeLoad_error_iff]; simp [IllegalFunct, knownOpcodes, ho]
  case h_2 ho => rw [decodeStore_error_iff]; simp [IllegalFunct, knownOpcodes, ho]
  case h_3 ho => rw [decodeOpImm_error_iff]; simp [IllegalFunct, knownOpcodes, ho]
  case h_4 ho => rw [decodeOpImm32_error_iff]; simp [IllegalFunct, knownOpcodes, ho]
  case h_5 ho => rw [decodeOp_error_iff]; simp [IllegalFunct, knownOpcodes, ho]
  case h_6 ho => rw [decodeOp32_error_iff]; simp [IllegalFunct, knownOpcodes, ho]
  case h_7 ho | h_8 ho | h_9 ho | h_10 ho | h_12 ho => simp [IllegalFunct, knownOpcodes, ho]
  case h_11 ho => rw [decodeBranch_error_iff]; simp [IllegalFunct, knownOpcodes, ho]
  case h_13 ho => rw [decodeSystem_error_iff]; simp [IllegalFunct, knownOpcodes, ho]
  case h_14 => simp_all [IllegalFunct, knownOpcodes, ← BitVec.toNat_inj]

theorem decode_invalidFunct_iff : decode w = .error .invalidFunct ↔ IllegalFunct w := by
  simp [decode_error_iff]

theorem decode_invalidOpcode_iff : decode w = .error .invalidOpcode ↔ (opcodeOf w).toNat ∉ knownOpcodes := by
  simp [decode_error_iff]

/-- Every known opcode has bits 1..0 set. -/
theorem opcode_unknown_of_low_bits (h : w.toNat % 4 ≠ 3) : (opcodeOf w).toNat ∉ knownOpcodes := by
  have low : ∀ o ∈ knownOpcodes, o % 4 = 3 := by decide
  have opcode : (opcodeOf w).toNat = w.toNat % 2 ^ 7 := by rw [opcodeOf, extract_toNat, pow_zero, Nat.div_one]
  intro hm
  have := low _ hm
  omega

end Sys2Proof

/-! ## The panics of a fetch and of the decoder (R106, R107, R120, `60_exceptions.md` R262 to R265) -/

namespace Sys2Proof.Machine

open Sys2Proof.Claims

variable {s : State} {w : InstWord} {r : PanicReason}

theorem fetch_of_fetches (h : Fetches s w) : fetch s = .ok w := by
  obtain ⟨_, hp, hw⟩ := h
  obtain ⟨v, hf, hv⟩ := fetch_toNat hp
  rw [littleEndian_eq_leSum, ← hv] at hw
  rw [hf, BitVec.eq_of_toNat_eq hw]

theorem step_of_fetches_error (h : Fetches s w) (hd : decode w = .error r) : step s = .next (takePanic r s) :=
  step_of_decode_error h.1 (fetch_of_fetches h) hd

theorem step_of_fetch_outOfRange (hr : s.running = true) (hp : 65536 < s.pc.toNat + 4) :
    step s = .next (takePanic .outOfRange s) := by
  simp only [step, hr, if_true, fetch_outOfRange (Nat.not_le.2 hp)]

/-- A step that takes a panic has all its effects, and one of the two pcs (D5, log entry 2). -/
theorem step_raises (h : step s = .next (takePanic r s)) :
    Raises (step s) s r ∧ ∃ t, step s = .next t ∧ PcAfterPanic s t :=
  ⟨h ▸ takePanic_raises r s, _, h, pcAfterPanic_cases s r⟩

/-- Settles O22: both steps take the panic before anything executes. -/
theorem fetchAndDecodePanics : Obligations.FetchAndDecodePanics :=
  ⟨fun _ hr hp => step_raises (step_of_fetch_outOfRange hr hp),
    fun _ _ _ hf hd => step_raises (step_of_fetches_error hf hd)⟩

/-- Settles O7: `decode_invalidOpcode_iff`, and the listed opcodes are no known ones. -/
theorem unknownOpcodePanics : Obligations.UnknownOpcodePanics := by
  refine ⟨fun w => decode_invalidOpcode_iff, by decide, by decide,
    fun w h => decode_invalidOpcode_iff.2 (opcode_unknown_of_low_bits h), fun w h => decode_invalidOpcode_iff.2 ?_,
    fun s w hf hd => (step_raises (step_of_fetches_error hf hd)).1⟩
  revert h
  generalize opcodeOf w = opc
  revert opc
  decide

/-- Settles O9: `IllegalFunct` lists R107's cases. -/
theorem invalidFunctExactly : Obligations.InvalidFunctExactly :=
  ⟨fun _ => decode_invalidFunct_iff, fun _ _ hf hd => (step_raises (step_of_fetches_error hf hd)).2⟩

/-- Settles O27: `exec_effect` for every instruction but ECALL, and for ECALL each of its ways. -/
theorem everyInstructionHasNextState : Obligations.EveryInstructionHasNextState := by
  refine ⟨fun s i hi => ?_, fun s => ?_⟩
  · obtain ⟨t, e, _⟩ := exec_effect i s hi
    exact ⟨t, e⟩
  · rcases execEcall_cases s with ⟨_, e⟩ | ⟨_, _, e⟩ | ⟨h, hcode, hfind, e⟩
    · exact .inl ⟨_, e⟩
    · exact .inl ⟨_, e⟩
    · rcases callHandler_cases h s with ⟨rest, hm, e'⟩ | ⟨_, _, _, _, _, e'⟩ | ⟨_, _, _, _, _, e'⟩
      · exact .inr ⟨h, rest, e.trans e', hcode, hfind, hm⟩
      · exact .inl ⟨_, e.trans e'⟩
      · exact .inl ⟨_, e.trans e'⟩

end Sys2Proof.Machine

/-! ## How a run ends (R121, `60_exceptions.md` R275, R276, `70_reset_and_hazards.md` R300) -/

namespace Sys2Proof.Machine

variable {s t : State}

/-- A block that does not run has a record of how its run ended. -/
def EndsWithOutcome (s : State) : Prop := s.running = false → s.outcome ≠ none

theorem EndsWithOutcome.of_running (h : s.running = true) : EndsWithOutcome s := fun hn =>
  absurd (h.symm.trans hn) nofun

theorem takePanic_endsWithOutcome (r : PanicReason) (s : State) : EndsWithOutcome (takePanic r s) := fun _ => nofun

theorem Effect.endsWithOutcome (hr : s.running = true) (h : Effect s t) : EndsWithOutcome t := by
  cases h with
  | retired rd v => exact .of_running ((retire_running ..).trans hr)
  | linked rd p => exact .of_running ((link_running ..).trans hr)
  | jumped p => exact .of_running hr
  | stored a w v h => exact .of_running hr
  | panicked => exact takePanic_endsWithOutcome .outOfRange s
  | broke => exact fun _ => nofun

theorem exitSyscall_endsWithOutcome (s : State) : EndsWithOutcome (exitSyscall s) := by
  intro _
  rw [exitSyscall_eq, retire_outcome]
  exact nofun

/-- A handler that leaves the block not running has stopped the run (D26, log entry 28). -/
theorem finishHandler_endsWithOutcome (result : Word) (s : State) : EndsWithOutcome (finishHandler result s) := by
  intro h
  rw [finishHandler_running] at h
  simp [finishHandler, h]

theorem callHandler_endsWithOutcome {h : HandlerId} (e : callHandler h s = .next t) : EndsWithOutcome t := by
  obtain ⟨_, _, u, _, ⟨result, rfl⟩ | rfl⟩ := callHandler_next e
  · exact finishHandler_endsWithOutcome result u
  · exact takePanic_endsWithOutcome .outOfRange u

theorem execEcall_endsWithOutcome (e : execEcall s = .next t) : EndsWithOutcome t := by
  rcases execEcall_cases s with ⟨_, e'⟩ | ⟨_, _, e'⟩ | ⟨h, _, _, e'⟩ <;> rw [e'] at e
  · cases e; exact exitSyscall_endsWithOutcome s
  · cases e; exact takePanic_endsWithOutcome .invalidSyscall s
  · exact callHandler_endsWithOutcome e

theorem exec_endsWithOutcome {i : Instr} (hr : s.running = true) (e : exec i s = .next t) : EndsWithOutcome t := by
  by_cases hi : i = .ecall
  · subst hi; exact execEcall_endsWithOutcome e
  · obtain ⟨t', e', h⟩ := exec_effect i s hi
    rw [e'] at e; cases e
    exact h.endsWithOutcome hr

/-- The step that ends a run records how. -/
theorem step_endsWithOutcome (hr : s.running = true) (e : step s = .next t) : EndsWithOutcome t := by
  rcases step_cases s with ⟨hn, _⟩ | ⟨_, _, e'⟩ | ⟨_, r, _, _, _, e'⟩ | ⟨_, i, _, _, _, e'⟩
  · exact absurd (hr.symm.trans hn) nofun
  · cases e'.symm.trans e; exact takePanic_endsWithOutcome .outOfRange s
  · cases e'.symm.trans e; exact takePanic_endsWithOutcome r s
  · exact exec_endsWithOutcome hr (e'.symm.trans e)

theorem step_of_halted (h : s.running = false) : step s = .next s := by simp [step, h]

theorem runLoop_of_halted (n : Nat) (h : s.running = false) : runLoop n s = .ended s.outcome s := by
  cases n <;> simp [runLoop, h]

theorem runLoop_succ_of_next (n : Nat) (hr : s.running = true) (e : step s = .next t) :
    runLoop (n + 1) s = runLoop n t := by
  simp [runLoop, hr, e]

/-- A loop that ends within `n` steps answers the halted state it reaches, within any larger number of steps too. -/
theorem runLoop_ended {s : State} {n : Nat} (m : Nat) {o : Option RunOutcome} (hs : EndsWithOutcome s)
    (h : runLoop n s = .ended o t) :
    t.running = false ∧ o = t.outcome ∧ o ≠ none ∧ runLoop (n + m) s = .ended o t := by
  cases hr : s.running with
  | false =>
    cases (runLoop_of_halted n hr).symm.trans h
    exact ⟨hr, rfl, hs hr, runLoop_of_halted _ hr⟩
  | true =>
    cases n with
    | zero => simp [runLoop, hr] at h
    | succ n =>
      cases e : step s with
      | next u =>
        rw [runLoop_succ_of_next n hr e] at h
        rw [Nat.succ_add, runLoop_succ_of_next _ hr e]
        exact runLoop_ended m (step_endsWithOutcome hr e) h
      | fault r => simp [runLoop, hr, e] at h
      | refused r => simp [runLoop, hr, e] at h

/-- Settles O60, by induction on the number of steps: a run starts running, and its last step records the outcome. -/
theorem runResultIsFinal : Obligations.RunResultIsFinal :=
  ⟨fun _ => step_of_halted, fun _ m _ _ _ h => runLoop_ended m (.of_running rfl) h⟩

end Sys2Proof.Machine

/-! # The load and store family (`40_load_store.md`)

Illegal sub-fields; the effective address and the extended value as integers; and what loads and stores leave, once for
all widths. -/

/-! ## Sample words, and the sub-fields that are no instruction (R138, R145, R160, R166, R189, R201) -/

namespace Sys2Proof

variable {w : InstWord} {i : Instr}

/-- A word known as the encoding of an instruction decodes to it. -/
theorem decode_of_encode_eq (h : encode i = w) (hi : i.wellFormed = true) : decode w = .ok i :=
  h ▸ decode_encode i hi

/-- Settles O1: each word is the encoding of its instruction. -/
theorem sampleWordsDecode : Obligations.SampleWordsDecode := by
  unfold Obligations.SampleWordsDecode
  and_intros <;> exact decode_of_encode_eq (by decide) rfl

/-- R166's list of the OP-IMM-32 combinations that are no instruction leaves out those that are one (R162 to R165). -/
theorem illegalFunct_of_opImm32 (ho : opcodeOf w = 0x1B#7)
    (h : (funct3Of w).toNat ∈ [2, 3, 4, 6, 7] ∨ (funct3Of w = 1#3 ∧ funct7Of w ≠ 0x00#7) ∨
      (funct3Of w = 5#3 ∧ funct7Of w ≠ 0x00#7 ∧ funct7Of w ≠ 0x20#7)) : IllegalFunct w := by
  refine .inr (.inr (.inr (.inl ⟨ho, ?_⟩)))
  rcases h with h | ⟨hf, h7⟩ | ⟨hf, h0, h20⟩
  · rintro (hf | ⟨hf, _⟩ | ⟨hf, _⟩) <;> simp [hf] at h
  · simp [hf, h7]
  · simp [hf, h0, h20]

end Sys2Proof

namespace Sys2Proof.Machine

/-- Settles O8: each clause is one of `IllegalFunct`'s cases, and the step takes the panic. -/
theorem illegalSubfieldsPanic : Obligations.IllegalSubfieldsPanic := by
  refine ⟨fun w ho hf => decode_invalidFunct_iff.2 (.inl ⟨ho, hf⟩),
    fun w ho hf => decode_invalidFunct_iff.2 (.inr (.inl ⟨ho, hf⟩)),
    fun w ho hf h0 h16 => decode_invalidFunct_iff.2 (.inr (.inr (.inl ⟨ho, hf, ?_⟩))),
    fun w ho h => decode_invalidFunct_iff.2 (illegalFunct_of_opImm32 ho h),
    fun w ho hk => decode_invalidFunct_iff.2 (.inr (.inr (.inr (.inr (.inl ⟨ho, hk⟩))))),
    fun w ho hk => decode_invalidFunct_iff.2 (.inr (.inr (.inr (.inr (.inr (.inl ⟨ho, hk⟩)))))),
    fun s w hf hd => (step_raises (step_of_fetches_error hf hd)).1⟩
  simpa [← BitVec.toNat_inj] using And.intro h0 h16

end Sys2Proof.Machine

/-! ## Addresses and extended values as integers (R130 to R137, R140) -/

namespace Sys2Proof.Machine

open Sys2Proof.Claims

/-- The address of a load or a store is the exact sum of register and signed immediate, modulo 2⁶⁴. -/
theorem effAddr_eq_word (s : State) (rs1 : RegIdx) (imm : BitVec 12) :
    effAddr s rs1 imm = word ((s.reg rs1).toNat + imm.toInt) := by
  rw [effAddr, sext_eq imm (by decide), word, BitVec.ofInt_add, BitVec.ofInt_natCast, BitVec.ofNat_toNat,
    BitVec.setWidth_eq]

/-- Sign extension of the low `n` bits is the signed residue modulo 2ⁿ. -/
theorem signExtend_setWidth_eq_word {n : Nat} (hn : n ≤ 64) (v : Word) :
    (v.setWidth n).signExtend 64 = word ((v.toNat : Int).bmod (2 ^ n)) := by
  rw [← sext, sext_eq _ hn, BitVec.toInt_setWidth, word]

/-- Zero extension of the low `n` bits keeps a value that fits them. -/
theorem setWidth_setWidth_of_lt {n : Nat} {v : Word} (hv : v.toNat < 2 ^ n) :
    (v.setWidth n).setWidth 64 = BitVec.ofNat 64 v.toNat := by
  apply BitVec.eq_of_toNat_eq
  rw [BitVec.toNat_setWidth, BitVec.toNat_setWidth, BitVec.toNat_ofNat, Nat.mod_eq_of_lt hv]

/-- The bytes read, as a number, are the statements' little-endian sum (`20_memory.md` R62). -/
theorem readBytes_toNat_eq_littleEndian (s : State) (a : Nat) (u : Width) :
    (s.mem.readBytes a u.bytes).toNat = littleEndian s a u.bytes := by
  rw [Memory.readBytes_toNat _ (width_bytes_le u).2, littleEndian_eq_leSum]

theorem Memory.readBytes_lt (m : Memory) (a : Nat) (u : Width) : (m.readBytes a u.bytes).toNat < 2 ^ (8 * u.bytes) := by
  rw [Memory.readBytes_toNat _ (width_bytes_le u).2]
  exact Memory.leSum_lt ..

end Sys2Proof.Machine

/-! ## What loads and stores leave (R130 to R144) -/

namespace Sys2Proof.Machine

open Sys2Proof.Claims

variable {i : Instr} {s : State}

/-- An instruction that retires completes: rd, the pc, and nothing else. -/
theorem completes_of_retire {rd : RegIdx} {v : Word} (h : exec i s = .next (retire rd v s)) :
    Completes i s rd v (s.pc + 4#64) := by
  refine ⟨_, h, fun j => ?_, retire_pc .., fun a => retire_byte .., ?_⟩
  · rw [retire_reg, reg_setReg]
  · simp [StatusKept, HostSideKept]

/-- A write in range, followed by the advance of the pc, completes a store. -/
theorem completesStoring_of_written {a v : Word} {u : Width} (h : exec i s = .next (written s a u v).advance) :
    CompletesStoring i s a.toNat u.bytes v :=
  ⟨_, h, fun _ => rfl, rfl, written_bytesStored s a u v, rfl, rfl, ⟨rfl, rfl, rfl⟩, rfl, rfl, rfl, rfl⟩

/-- An instruction that is `loadInto` at a width is the load of that many bytes, if the extension of every value that
fits them is `f`. -/
theorem meansLoad_of_loadInto {f3 : BitVec 3} {mk : RegIdx → RegIdx → BitVec 12 → Instr} {u : Width}
    {extend : Word → Word} {f : Nat → Word}
    (hdec : ∀ w, funct3Of w = f3 → decodeLoad w = .ok (mk (rdOf w) (rs1Of w) (immIOf w)))
    (hexec : ∀ rd rs1 imm s, exec (mk rd rs1 imm) s = loadInto rd rs1 imm u extend s)
    (hext : ∀ v : Word, v.toNat < 2 ^ (8 * u.bytes) → extend v = f v.toNat) : MeansLoad f3 mk u.bytes f := by
  refine ⟨fun w ho hf => (decode_load ho).trans (hdec w hf), fun rd rs1 imm s => ?_⟩
  rcases loadInto_cases rd rs1 imm u extend s with ⟨hr, e⟩ | ⟨hr, e⟩ <;> rw [← hexec] at e
  · refine ⟨fun _ => ?_, fun hn => absurd hr (by omega)⟩
    rw [← readBytes_toNat_eq_littleEndian, ← hext _ (Memory.readBytes_lt ..)]
    exact completes_of_retire e
  · exact ⟨fun h => absurd h hr, fun _ => e ▸ takePanic_raises .outOfRange s⟩

/-- An instruction that is `storeFrom` at a width is the store of that many bytes. -/
theorem meansStore_of_storeFrom {f3 : BitVec 3} {mk : RegIdx → RegIdx → BitVec 12 → Instr} {u : Width}
    (hdec : ∀ w, funct3Of w = f3 → decodeStore w = .ok (mk (rs1Of w) (rs2Of w) (immSOf w)))
    (hexec : ∀ rs1 rs2 imm s, exec (mk rs1 rs2 imm) s = storeFrom rs1 rs2 imm u s) : MeansStore f3 mk u.bytes := by
  refine ⟨fun w ho hf => (decode_store ho).trans (hdec w hf), fun rs1 rs2 imm s => ?_⟩
  rcases storeFrom_cases rs1 rs2 imm u s with ⟨hr, e⟩ | ⟨hr, e⟩ <;> rw [← hexec] at e
  · exact ⟨fun _ => completesStoring_of_written e, fun hn => absurd hr (by omega)⟩
  · exact ⟨fun h => absurd h hr, fun _ => e ▸ takePanic_raises .outOfRange s⟩

/-- Settles O30: `meansLoad_of_loadInto` at each width, with the signed or the unsigned extension. -/
theorem loadsExtendLittleEndianValue : Obligations.LoadsExtendLittleEndianValue := by
  refine ⟨effAddr_eq_word,
    meansLoad_of_loadInto (u := .byte) ?_ (fun _ _ _ _ => rfl) fun v _ => signExtend_setWidth_eq_word (by decide) v,
    meansLoad_of_loadInto (u := .half) ?_ (fun _ _ _ _ => rfl) fun v _ => signExtend_setWidth_eq_word (by decide) v,
    meansLoad_of_loadInto (u := .word) ?_ (fun _ _ _ _ => rfl) fun v _ => signExtend_setWidth_eq_word (by decide) v,
    meansLoad_of_loadInto (u := .double) ?_ (fun _ _ _ _ => rfl) fun v _ => by
      rw [BitVec.ofNat_toNat, BitVec.setWidth_eq],
    meansLoad_of_loadInto (u := .byte) ?_ (fun _ _ _ _ => rfl) fun _ => setWidth_setWidth_of_lt,
    meansLoad_of_loadInto (u := .half) ?_ (fun _ _ _ _ => rfl) fun _ => setWidth_setWidth_of_lt,
    meansLoad_of_loadInto (u := .word) ?_ (fun _ _ _ _ => rfl) fun _ => setWidth_setWidth_of_lt⟩ <;>
  · intro w hf
    simp only [decodeLoad, hf]

/-- Settles O31: `meansStore_of_storeFrom` at each width. -/
theorem storesWriteLowBytes : Obligations.StoresWriteLowBytes := by
  refine ⟨effAddr_eq_word,
    meansStore_of_storeFrom (u := .byte) ?_ fun _ _ _ _ => rfl,
    meansStore_of_storeFrom (u := .half) ?_ fun _ _ _ _ => rfl,
    meansStore_of_storeFrom (u := .word) ?_ fun _ _ _ _ => rfl,
    meansStore_of_storeFrom (u := .double) ?_ fun _ _ _ _ => rfl⟩ <;>
  · intro w hf
    simp only [decodeStore, hf]

end Sys2Proof.Machine

/-! # The register-immediate family (`41_op_imm.md`)

Operands and results as exact integers, at 64 and at 32 bits; and the result of a word instruction as a function of the
low halves of its sources. -/

/-! ## Results as exact integers (R151 to R165) -/

namespace Sys2Proof.Machine

open Sys2Proof.Claims

variable {n : Nat}

theorem eq_ofNat_of_toNat_eq {a : BitVec n} {k : Nat} (h : a.toNat = k) : a = BitVec.ofNat n k := by
  rw [← h, BitVec.ofNat_toNat, BitVec.setWidth_eq]

theorem shiftLeft_eq_ofNat (a : BitVec n) (k : Nat) : a <<< k = BitVec.ofNat n (a.toNat * 2 ^ k) := by
  apply BitVec.eq_of_toNat_eq
  rw [BitVec.toNat_shiftLeft, Nat.shiftLeft_eq, BitVec.toNat_ofNat]

theorem ushiftRight_eq_ofNat (a : BitVec n) (k : Nat) : a >>> k = BitVec.ofNat n (a.toNat / 2 ^ k) :=
  eq_ofNat_of_toNat_eq (by rw [BitVec.toNat_ushiftRight, Nat.shiftRight_eq_div_pow])

/-- An arithmetic right shift is the floor of the signed quotient (R157). -/
theorem sshiftRight_eq_ofInt (a : BitVec n) (k : Nat) : a.sshiftRight k = BitVec.ofInt n (a.toInt / 2 ^ k) := by
  rw [BitVec.sshiftRight_eq, Int.shiftRight_eq_div_pow, Nat.cast_pow, Nat.cast_ofNat]

theorem add_eq_word (a b : Word) : a + b = word (a.toInt + b.toInt) := by
  rw [word, BitVec.ofInt_add, BitVec.ofInt_toInt, BitVec.ofInt_toInt]

theorem low32_toNat_eq_lowU (a : Word) : (low32 a).toNat = lowU a := low32_toNat a

theorem low32_toInt_eq_lowS (a : Word) : (low32 a).toInt = lowS a := low32_toInt a

/-- The sign-extended low 32 bits of an exact integer, as the model narrows it (R161). -/
theorem wordResult_ofInt (x : Int) : wordResult (BitVec.ofInt 32 x) = word32 x := by
  rw [wordResult, ← sext, sext_eq _ (by decide), BitVec.toInt_ofInt, word32]

theorem wordResult_ofNat (x : Nat) : wordResult (BitVec.ofNat 32 x) = word32 (x : Int) := by
  rw [← wordResult_ofInt, BitVec.ofInt_natCast]

theorem wordResult_low32_add (a b : Word) : wordResult (low32 (a + b)) = word32 (a.toInt + b.toInt) := by
  rw [add_eq_word, word, low32_ofInt, wordResult_ofInt]

theorem wordResult_shiftLeft (a : Word) (k : Nat) :
    wordResult (low32 a <<< k) = word32 ((lowU a * 2 ^ k : Nat) : Int) := by
  rw [shiftLeft_eq_ofNat, low32_toNat_eq_lowU, wordResult_ofNat]

theorem wordResult_ushiftRight (a : Word) (k : Nat) :
    wordResult (low32 a >>> k) = word32 ((lowU a / 2 ^ k : Nat) : Int) := by
  rw [ushiftRight_eq_ofNat, low32_toNat_eq_lowU, wordResult_ofNat]

theorem wordResult_sshiftRight (a : Word) (k : Nat) :
    wordResult ((low32 a).sshiftRight k) = word32 (lowS a / 2 ^ k) := by
  rw [sshiftRight_eq_ofInt, low32_toInt_eq_lowS, wordResult_ofInt]

end Sys2Proof.Machine

/-! ## What the register-immediate instructions leave (R151 to R165) -/

namespace Sys2Proof.Machine

open Sys2Proof.Claims

/-- An instruction that retires a result completes with any other reading of that result. -/
theorem completes_of_retire_eq {i : Instr} {s : State} {rd : RegIdx} {v v' : Word}
    (h : exec i s = .next (retire rd v s)) (hv : v = v') : Completes i s rd v' (s.pc + 4#64) :=
  hv ▸ completes_of_retire h

/-- Settles O32: the decoder's row by funct3, and each result as an exact integer. -/
theorem opImmResults : Obligations.OpImmResults := by
  refine ⟨⟨?_, fun _ _ _ _ => completes_of_retire_eq rfl (add_eq_word _ _)⟩,
    ⟨?_, fun _ _ _ _ => completes_of_retire_eq rfl (bool01_decide _)⟩,
    ⟨?_, fun _ _ _ _ => completes_of_retire_eq rfl (bool01_decide _)⟩,
    ⟨?_, fun _ _ _ _ => completes_of_retire_eq rfl (eq_ofNat_of_toNat_eq (BitVec.toNat_xor _ _))⟩,
    ⟨?_, fun _ _ _ _ => completes_of_retire_eq rfl (eq_ofNat_of_toNat_eq (BitVec.toNat_or _ _))⟩,
    ⟨?_, fun _ _ _ _ => completes_of_retire_eq rfl (eq_ofNat_of_toNat_eq (BitVec.toNat_and _ _))⟩⟩ <;>
  · intro w ho hf
    simp [decode_opImm ho, decodeOpImm, hf]

/-- Settles O33: as O32, with funct6 for the right shifts. -/
theorem opImmShiftResults : Obligations.OpImmShiftResults := by
  refine ⟨⟨?_, fun _ _ _ _ => completes_of_retire_eq rfl (shiftLeft_eq_ofNat _ _)⟩,
    ⟨?_, fun _ _ _ _ => completes_of_retire_eq rfl (ushiftRight_eq_ofNat _ _)⟩,
    ⟨?_, fun _ _ _ _ => completes_of_retire_eq rfl (sshiftRight_eq_ofInt _ _)⟩⟩
  · intro w ho hf
    simp only [decode_opImm ho, decodeOpImm, hf]
  all_goals
    intro w ho hf h6
    simp only [decode_opImm ho, decodeOpImm, hf, decodeShiftRightImm, h6]

/-- Settles O34: as O32, with funct7 for the shifts and the low 32 bits of each result. -/
theorem opImm32Results : Obligations.OpImm32Results := by
  refine ⟨⟨?_, fun _ _ _ _ => completes_of_retire_eq rfl (wordResult_low32_add _ _)⟩,
    ⟨?_, fun _ _ _ _ => completes_of_retire_eq rfl (wordResult_shiftLeft _ _)⟩,
    ⟨?_, fun _ _ _ _ => completes_of_retire_eq rfl (wordResult_ushiftRight _ _)⟩,
    ⟨?_, fun _ _ _ _ => completes_of_retire_eq rfl (wordResult_sshiftRight _ _)⟩⟩
  · intro w ho hf
    simp only [decode_opImm32 ho, decodeOpImm32, hf]
  · intro w ho hf h7
    simp only [decode_opImm32 ho, decodeOpImm32, hf, decodeShiftLeftImmWord, h7]
  all_goals
    intro w ho hf h7
    simp only [decode_opImm32 ho, decodeOpImm32, hf, decodeShiftRightImmWord, h7]

end Sys2Proof.Machine

/-! ## Word instructions see only the low halves of their sources (R161, `42_op.md` R190) -/

namespace Sys2Proof.Machine

open Sys2Proof.Claims

/-- The low half is what its number says. -/
theorem low32_eq_of_lowU_eq {a b : Word} (h : lowU a = lowU b) : low32 a = low32 b :=
  BitVec.eq_of_toNat_eq (by rw [low32_toNat_eq_lowU, low32_toNat_eq_lowU, h])

/-- A word shift amount stands in the low half (R193). -/
theorem shiftAmount32_eq_low32 (b : Word) : shiftAmount32 b = (low32 b).toNat % 32 := by
  rw [shiftAmount32_eq, low32_toNat]
  omega

/-- What a word instruction of two registers does: it retires a function of their low halves. -/
theorem exec_word_eq_retire {mk : RegIdx → RegIdx → RegIdx → Instr}
    (h : mk ∈ [Instr.addw, .subw, .sllw, .srlw, .sraw, .mulw, .divw, .divuw, .remw, .remuw]) :
    ∃ f : BitVec 32 → BitVec 32 → BitVec 32, ∀ rd rs1 rs2 s, exec (mk rd rs1 rs2) s =
      .next (retire rd (wordResult (f (low32 (s.reg rs1)) (low32 (s.reg rs2)))) s) := by
  simp only [List.mem_cons, List.not_mem_nil, or_false] at h
  rcases h with rfl | rfl | rfl | rfl | rfl | rfl | rfl | rfl | rfl | rfl
  · exact ⟨(· + ·), fun _ _ _ _ => rfl⟩
  · exact ⟨(· - ·), fun _ _ _ _ => rfl⟩
  · exact ⟨fun a b => a <<< (b.toNat % 32), fun _ _ _ _ => by simp only [← shiftAmount32_eq_low32]; rfl⟩
  · exact ⟨fun a b => a >>> (b.toNat % 32), fun _ _ _ _ => by simp only [← shiftAmount32_eq_low32]; rfl⟩
  · exact ⟨fun a b => a.sshiftRight (b.toNat % 32), fun _ _ _ _ => by simp only [← shiftAmount32_eq_low32]; rfl⟩
  · exact ⟨mulLow, fun _ _ _ _ => rfl⟩
  · exact ⟨divSigned, fun _ _ _ _ => rfl⟩
  · exact ⟨divUnsigned, fun _ _ _ _ => rfl⟩
  · exact ⟨remSigned, fun _ _ _ _ => rfl⟩
  · exact ⟨remUnsigned, fun _ _ _ _ => rfl⟩

/-- What a word shift by an immediate does. -/
theorem exec_wordShift_eq_retire {mk : RegIdx → RegIdx → BitVec 5 → Instr} (h : mk ∈ [Instr.slliw, .srliw, .sraiw]) :
    ∃ f : BitVec 32 → BitVec 5 → BitVec 32, ∀ rd rs1 sh s, exec (mk rd rs1 sh) s =
      .next (retire rd (wordResult (f (low32 (s.reg rs1)) sh)) s) := by
  simp only [List.mem_cons, List.not_mem_nil, or_false] at h
  rcases h with rfl | rfl | rfl
  · exact ⟨fun a sh => a <<< sh.toNat, fun _ _ _ _ => rfl⟩
  · exact ⟨fun a sh => a >>> sh.toNat, fun _ _ _ _ => rfl⟩
  · exact ⟨fun a sh => a.sshiftRight sh.toNat, fun _ _ _ _ => rfl⟩

/-- The low half of a sum is the sum of the low halves (R162). -/
theorem exec_addiw_eq_retire (rd rs1 : RegIdx) (imm : BitVec 12) (s : State) :
    exec (.addiw rd rs1 imm) s = .next (retire rd (wordResult (low32 (s.reg rs1) + low32 (sext imm))) s) := by
  rw [low32, low32, ← BitVec.setWidth_add _ _ (by decide)]
  rfl

/-- Retiring one value leaves one rd, whatever the states were: x0 reads 0 in both (`10_state.md` R31). -/
theorem reg_eq_of_retire {i : Instr} {rd : RegIdx} {v v' : Word} {s t s' t' : State}
    (hs : exec i s = .next (retire rd v s)) (ht : exec i t = .next (retire rd v' t)) (hv : v = v')
    (e : exec i s = .next s') (e' : exec i t = .next t') : s'.reg rd = t'.reg rd := by
  cases hs.symm.trans e
  cases ht.symm.trans e'
  by_cases h0 : rd = 0#5
  · rw [h0, reg_zero, reg_zero]
  · rw [retire_reg, retire_reg, reg_setReg_self _ h0, reg_setReg_self _ h0, hv]

/-- Settles O42: equal low halves give one result, and rd reads it. -/
theorem wordInstructionsIgnoreUpperHalf : Obligations.WordInstructionsIgnoreUpperHalf := by
  refine ⟨fun mk hmk rd rs1 rs2 s t s' t' h1 h2 => ?_, fun mk hmk rd rs1 sh s t s' t' h1 => ?_,
    fun rd rs1 imm s t s' t' h1 => reg_eq_of_retire (exec_addiw_eq_retire ..) (exec_addiw_eq_retire ..) ?_⟩
  · obtain ⟨f, hf⟩ := exec_word_eq_retire hmk
    exact reg_eq_of_retire (hf ..) (hf ..) (by rw [low32_eq_of_lowU_eq h1, low32_eq_of_lowU_eq h2])
  · obtain ⟨f, hf⟩ := exec_wordShift_eq_retire hmk
    exact reg_eq_of_retire (hf ..) (hf ..) (by rw [low32_eq_of_lowU_eq h1])
  · rw [low32_eq_of_lowU_eq h1]

end Sys2Proof.Machine

/-! # The register-register family (`42_op.md`)

Each result as an exact integer narrowed at the end, at 64 and at 32 bits; the three cases of a division once for both
widths; and how quotient and remainder fit together. -/

/-! ## Sums, differences and products (R171 to R184, R191 to R196) -/

namespace Sys2Proof.Machine

open Sys2Proof.Claims

variable {n : Nat}

theorem ofInt_sub (x y : Int) : BitVec.ofInt n (x - y) = BitVec.ofInt n x - BitVec.ofInt n y := by
  rw [Int.sub_eq_add_neg, BitVec.ofInt_add, BitVec.ofInt_neg, BitVec.sub_eq_add_neg]

theorem ofInt_toNat (a : BitVec n) : BitVec.ofInt n a.toNat = a := by
  rw [BitVec.ofInt_natCast, BitVec.ofNat_toNat, BitVec.setWidth_eq]

theorem sub_eq_word (a b : Word) : a - b = word (a.toInt - b.toInt) := by
  rw [word, ofInt_sub, BitVec.ofInt_toInt, BitVec.ofInt_toInt]

theorem sll_eq_ofNat (a b : Word) : a <<< shiftAmount64 b = BitVec.ofNat 64 (a.toNat * 2 ^ (b.toNat % 64)) := by
  rw [shiftAmount64_eq, shiftLeft_eq_ofNat]

theorem srl_eq_ofNat (a b : Word) : a >>> shiftAmount64 b = BitVec.ofNat 64 (a.toNat / 2 ^ (b.toNat % 64)) := by
  rw [shiftAmount64_eq, ushiftRight_eq_ofNat]

theorem sra_eq_word (a b : Word) : a.sshiftRight (shiftAmount64 b) = word (a.toInt / 2 ^ (b.toNat % 64)) := by
  rw [shiftAmount64_eq, sshiftRight_eq_ofInt, word]

/-- The low bits of a product are the same for the signed and the unsigned operands (R181). -/
theorem mulLow_eq_mul (a b : BitVec n) : mulLow a b = a * b := by
  rw [mulLow, BitVec.ofInt_mul, BitVec.ofInt_toInt, BitVec.ofInt_toInt]

theorem mul_eq_ofInt_toNat (a b : BitVec n) : a * b = BitVec.ofInt n ((a.toNat : Int) * b.toNat) := by
  rw [BitVec.ofInt_mul, ofInt_toNat, ofInt_toNat]

theorem word_toInt_mul (a b : Word) : word (a.toInt * b.toInt) = BitVec.ofNat 64 (a.toNat * b.toNat) := by
  rw [word, ← mulLow, mulLow_eq_mul, mul_eq_ofInt_toNat, ← Nat.cast_mul, BitVec.ofInt_natCast]

theorem highHalf_natCast (x : Nat) : highHalf x = BitVec.ofNat 64 (x / 2 ^ 64) := by
  rw [highHalf_eq, ← BitVec.ofInt_natCast, Int.natCast_ediv, Nat.cast_pow, Nat.cast_ofNat]

theorem wordResult_add (a b : Word) : wordResult (low32 a + low32 b) = word32 ((lowU a : Int) + lowU b) := by
  rw [← wordResult_ofInt, BitVec.ofInt_add, ← low32_toNat_eq_lowU, ← low32_toNat_eq_lowU, ofInt_toNat, ofInt_toNat]

theorem wordResult_sub (a b : Word) : wordResult (low32 a - low32 b) = word32 ((lowU a : Int) - lowU b) := by
  rw [← wordResult_ofInt, ofInt_sub, ← low32_toNat_eq_lowU, ← low32_toNat_eq_lowU, ofInt_toNat, ofInt_toNat]

theorem wordResult_mulLow (a b : Word) : wordResult (mulLow (low32 a) (low32 b)) = word32 ((lowU a : Int) * lowU b) := by
  rw [mulLow_eq_mul, mul_eq_ofInt_toNat, low32_toNat_eq_lowU, low32_toNat_eq_lowU, wordResult_ofInt]

theorem wordResult_sll (a b : Word) :
    wordResult (low32 a <<< shiftAmount32 b) = word32 ((lowU a * 2 ^ (b.toNat % 32) : Nat) : Int) := by
  rw [shiftAmount32_eq, wordResult_shiftLeft]

theorem wordResult_srl (a b : Word) :
    wordResult (low32 a >>> shiftAmount32 b) = word32 ((lowU a / 2 ^ (b.toNat % 32) : Nat) : Int) := by
  rw [shiftAmount32_eq, wordResult_ushiftRight]

theorem wordResult_sra (a b : Word) :
    wordResult ((low32 a).sshiftRight (shiftAmount32 b)) = word32 (lowS a / 2 ^ (b.toNat % 32)) := by
  rw [shiftAmount32_eq, wordResult_sshiftRight]

end Sys2Proof.Machine

/-! ## The cases of a division, at every width (R185 to R188, R197 to R200) -/

namespace Sys2Proof.Machine

open Sys2Proof.Claims

variable {n : Nat}

theorem eq_zero_iff_toInt (b : BitVec n) : b = 0#n ↔ b.toInt = 0 := by rw [← BitVec.toInt_inj, BitVec.toInt_zero]

theorem eq_zero_iff_toNat (b : BitVec n) : b = 0#n ↔ b.toNat = 0 := by rw [← BitVec.toNat_inj, BitVec.toNat_zero]

theorem eq_intMin_iff_toInt (hn : 0 < n) (a : BitVec n) : a = BitVec.intMin n ↔ a.toInt = -(2 ^ (n - 1)) := by
  rw [← BitVec.toInt_inj, BitVec.toInt_intMin_of_pos hn]

theorem eq_allOnes_iff_toInt (hn : 0 < n) (b : BitVec n) : b = BitVec.allOnes n ↔ b.toInt = -1 := by
  rw [← BitVec.toInt_inj, BitVec.toInt_allOnes, if_pos hn]

theorem allOnes_eq_ofInt (n : Nat) : BitVec.allOnes n = BitVec.ofInt n (-1) := by
  rw [BitVec.ofInt_neg, BitVec.ofInt_ofNat, BitVec.neg_one_eq_allOnes]

theorem intMin_eq_ofInt (hn : 0 < n) : BitVec.intMin n = BitVec.ofInt n (-(2 ^ (n - 1))) := by
  rw [← BitVec.toInt_intMin_of_pos hn, BitVec.ofInt_toInt]

/-- The signed quotient with its corners, in exact integers. -/
theorem divSigned_eq_ite (hn : 0 < n) (a b : BitVec n) : divSigned a b =
    if b.toInt = 0 then BitVec.ofInt n (-1)
    else if a.toInt = -(2 ^ (n - 1)) ∧ b.toInt = -1 then BitVec.ofInt n (-(2 ^ (n - 1)))
    else BitVec.ofInt n (a.toInt.tdiv b.toInt) := by
  simp only [divSigned, eq_zero_iff_toInt, eq_intMin_iff_toInt hn, eq_allOnes_iff_toInt hn]
  rw [allOnes_eq_ofInt, intMin_eq_ofInt hn]

/-- The signed remainder with its corners, in exact integers. -/
theorem remSigned_eq_ite (hn : 0 < n) (a b : BitVec n) : remSigned a b =
    if b.toInt = 0 then a
    else if a.toInt = -(2 ^ (n - 1)) ∧ b.toInt = -1 then BitVec.ofInt n 0
    else BitVec.ofInt n (a.toInt - b.toInt * a.toInt.tdiv b.toInt) := by
  simp only [remSigned, eq_zero_iff_toInt, eq_intMin_iff_toInt hn, eq_allOnes_iff_toInt hn, BitVec.ofInt_ofNat]

theorem divUnsigned_eq_ite (a b : BitVec n) :
    divUnsigned a b = if b.toNat = 0 then BitVec.ofInt n (-1) else BitVec.ofNat n (a.toNat / b.toNat) := by
  simp only [divUnsigned, eq_zero_iff_toNat, allOnes_eq_ofInt]

theorem remUnsigned_eq_ite (a b : BitVec n) :
    remUnsigned a b = if b.toNat = 0 then a else BitVec.ofNat n (a.toNat % b.toNat) := by
  simp only [remUnsigned, eq_zero_iff_toNat]

theorem lowS_eq_zero_iff (b : Word) : lowS b = 0 ↔ lowU b = 0 := by
  rw [← low32_toInt_eq_lowS, ← eq_zero_iff_toInt, eq_zero_iff_toNat, low32_toNat_eq_lowU]

theorem wordResult_low32 (a : Word) : wordResult (low32 a) = word32 (lowU a) := by
  rw [← wordResult_ofNat, ← low32_toNat_eq_lowU, BitVec.ofNat_toNat, BitVec.setWidth_eq]

theorem wordResult_divSigned (a b : Word) : wordResult (divSigned (low32 a) (low32 b)) =
    if lowU b = 0 then word32 (-1)
    else if lowS a = -(2 ^ 31) ∧ lowS b = -1 then word32 (-(2 ^ 31))
    else word32 ((lowS a).tdiv (lowS b)) := by
  simp only [divSigned_eq_ite (n := 32) (by decide), low32_toInt_eq_lowS, lowS_eq_zero_iff, apply_ite wordResult,
    wordResult_ofInt, Nat.reduceSub]

theorem wordResult_remSigned (a b : Word) : wordResult (remSigned (low32 a) (low32 b)) =
    if lowU b = 0 then word32 (lowU a)
    else if lowS a = -(2 ^ 31) ∧ lowS b = -1 then word32 0
    else word32 (lowS a - lowS b * (lowS a).tdiv (lowS b)) := by
  simp only [remSigned_eq_ite (n := 32) (by decide), low32_toInt_eq_lowS, lowS_eq_zero_iff, apply_ite wordResult,
    wordResult_ofInt, wordResult_low32, Nat.reduceSub]

theorem wordResult_divUnsigned (a b : Word) : wordResult (divUnsigned (low32 a) (low32 b)) =
    if lowU b = 0 then word32 (-1) else word32 ((lowU a / lowU b : Nat) : Int) := by
  simp only [divUnsigned_eq_ite, low32_toNat_eq_lowU, apply_ite wordResult, wordResult_ofInt, wordResult_ofNat]

theorem wordResult_remUnsigned (a b : Word) : wordResult (remUnsigned (low32 a) (low32 b)) =
    if lowU b = 0 then word32 (lowU a) else word32 ((lowU a % lowU b : Nat) : Int) := by
  simp only [remUnsigned_eq_ite, low32_toNat_eq_lowU, apply_ite wordResult, wordResult_ofNat, wordResult_low32]

end Sys2Proof.Machine

/-! ## What the register-register instructions leave (R171 to R188, R191 to R200) -/

namespace Sys2Proof.Machine

open Sys2Proof.Claims

/-- Settles O35: the decoder's row by the key, and each result as an exact integer. -/
theorem opResults : Obligations.OpResults := by
  refine ⟨⟨?_, fun _ _ _ _ => completes_of_retire_eq rfl (add_eq_word _ _)⟩,
    ⟨?_, fun _ _ _ _ => completes_of_retire_eq rfl (sub_eq_word _ _)⟩,
    ⟨?_, fun _ _ _ _ => completes_of_retire_eq rfl (sll_eq_ofNat _ _)⟩,
    ⟨?_, fun _ _ _ _ => completes_of_retire_eq rfl (eq_ofNat_of_toNat_eq (BitVec.toNat_xor _ _))⟩,
    ⟨?_, fun _ _ _ _ => completes_of_retire_eq rfl (srl_eq_ofNat _ _)⟩,
    ⟨?_, fun _ _ _ _ => completes_of_retire_eq rfl (sra_eq_word _ _)⟩,
    ⟨?_, fun _ _ _ _ => completes_of_retire_eq rfl (eq_ofNat_of_toNat_eq (BitVec.toNat_or _ _))⟩,
    ⟨?_, fun _ _ _ _ => completes_of_retire_eq rfl (eq_ofNat_of_toNat_eq (BitVec.toNat_and _ _))⟩⟩ <;>
  · intro w ho hk
    simp only [decode_op ho, decodeOp, hk]

/-- Settles O36: as O35; MUL's result is its definition, and `word_toInt_mul` reads it unsigned. -/
theorem opSetAndMulResults : Obligations.OpSetAndMulResults := by
  refine ⟨⟨?_, fun _ _ _ _ => completes_of_retire_eq rfl (bool01_decide _)⟩,
    ⟨?_, fun _ _ _ _ => completes_of_retire_eq rfl (bool01_decide _)⟩,
    ⟨?_, fun _ _ _ _ => completes_of_retire rfl⟩, word_toInt_mul,
    ⟨?_, fun _ _ _ _ => completes_of_retire_eq rfl (highHalf_eq _)⟩⟩ <;>
  · intro w ho hk
    simp only [decode_op ho, decodeOp, hk]

/-- Settles O37: as O35, with the high half of the exact product. -/
theorem mulHighResults : Obligations.MulHighResults := by
  refine ⟨⟨?_, fun _ _ _ _ => completes_of_retire_eq rfl (highHalf_eq _)⟩,
    ⟨?_, fun _ _ _ _ => completes_of_retire_eq rfl (highHalf_natCast _)⟩⟩ <;>
  · intro w ho hk
    simp only [decode_op ho, decodeOp, hk]

/-- Settles O38: as O35, with the zero divisor apart. -/
theorem unsignedDivisionResults : Obligations.UnsignedDivisionResults := by
  refine ⟨⟨?_, fun _ _ _ _ => completes_of_retire_eq rfl (divUnsigned_eq_ite _ _)⟩,
    ⟨?_, fun _ _ _ _ => completes_of_retire_eq rfl (remUnsigned_eq_ite _ _)⟩⟩ <;>
  · intro w ho hk
    simp only [decode_op ho, decodeOp, hk]

/-- Settles O39: as O35, with both corners apart. -/
theorem signedDivisionResults : Obligations.SignedDivisionResults := by
  refine ⟨⟨?_, fun _ _ _ _ => completes_of_retire_eq rfl (divSigned_eq_ite (by decide) _ _)⟩,
    ⟨?_, fun _ _ _ _ => completes_of_retire_eq rfl (remSigned_eq_ite (by decide) _ _)⟩⟩ <;>
  · intro w ho hk
    simp only [decode_op ho, decodeOp, hk]

/-- Settles O40: as O35, on the low halves. -/
theorem op32Results : Obligations.Op32Results := by
  refine ⟨⟨?_, fun _ _ _ _ => completes_of_retire_eq rfl (wordResult_add _ _)⟩,
    ⟨?_, fun _ _ _ _ => completes_of_retire_eq rfl (wordResult_sub _ _)⟩,
    ⟨?_, fun _ _ _ _ => completes_of_retire_eq rfl (wordResult_sll _ _)⟩,
    ⟨?_, fun _ _ _ _ => completes_of_retire_eq rfl (wordResult_srl _ _)⟩,
    ⟨?_, fun _ _ _ _ => completes_of_retire_eq rfl (wordResult_sra _ _)⟩,
    ⟨?_, fun _ _ _ _ => completes_of_retire_eq rfl (wordResult_mulLow _ _)⟩⟩ <;>
  · intro w ho hk
    simp only [decode_op32 ho, decodeOp32, hk]

/-- Settles O41: as O38 and O39, on the low halves. -/
theorem op32DivisionResults : Obligations.Op32DivisionResults := by
  refine ⟨⟨?_, fun _ _ _ _ => completes_of_retire_eq rfl (wordResult_divSigned _ _)⟩,
    ⟨?_, fun _ _ _ _ => completes_of_retire_eq rfl (wordResult_divUnsigned _ _)⟩,
    ⟨?_, fun _ _ _ _ => completes_of_retire_eq rfl (wordResult_remSigned _ _)⟩,
    ⟨?_, fun _ _ _ _ => completes_of_retire_eq rfl (wordResult_remUnsigned _ _)⟩⟩ <;>
  · intro w ho hk
    simp only [decode_op32 ho, decodeOp32, hk]

end Sys2Proof.Machine

/-! ## Quotient and remainder (R185 to R188) -/

namespace Sys2Proof.Machine

open Sys2Proof.Claims

variable {n : Nat}

/-- The two corners are no exception: x % 0 is x and MIN % −1 is 0 in exact integers too. -/
theorem remSigned_eq_srem (a b : BitVec n) : remSigned a b = a.srem b := by
  rw [← BitVec.ofInt_toInt (x := a.srem b), BitVec.toInt_srem]
  unfold remSigned
  split
  next hb => rw [hb, BitVec.toInt_zero, Int.tmod_zero, BitVec.ofInt_toInt]
  next hb =>
    split
    next hc =>
      rw [hc.2, BitVec.toInt_allOnes, if_pos (BitVec.length_pos_of_ne hb), Int.tmod_neg, Int.tmod_one, BitVec.ofInt_ofNat]
    next => rw [Int.tmod_def]

/-- MIN / −1 is no exception: the exact quotient is MIN modulo 2ⁿ. -/
theorem divSigned_eq_ofInt_tdiv {a b : BitVec n} (hb : b ≠ 0#n) :
    divSigned a b = BitVec.ofInt n (a.toInt.tdiv b.toInt) := by
  by_cases hc : a = BitVec.intMin n ∧ b = BitVec.allOnes n
  · rw [divSigned, if_neg hb, if_pos hc, hc.1, hc.2, BitVec.toInt_allOnes, if_pos (BitVec.length_pos_of_ne hb),
      Int.tdiv_neg, Int.tdiv_one, BitVec.ofInt_neg, BitVec.ofInt_toInt, BitVec.neg_intMin]
  · exact divSigned_of_ne hb hc

theorem divSigned_mul_add_remSigned (a b : BitVec n) : divSigned a b * b + remSigned a b = a := by
  by_cases hb : b = 0#n
  · rw [hb, remSigned_zero, BitVec.mul_zero, BitVec.zero_add]
  · calc divSigned a b * b + remSigned a b
      _ = BitVec.ofInt n (a.toInt.tdiv b.toInt * b.toInt + a.toInt.tmod b.toInt) := by
        rw [divSigned_eq_ofInt_tdiv hb, remSigned_eq_srem, BitVec.ofInt_add, BitVec.ofInt_mul, ← BitVec.toInt_srem,
          BitVec.ofInt_toInt, BitVec.ofInt_toInt]
      _ = a := by rw [Int.tdiv_mul_add_tmod, BitVec.ofInt_toInt]

theorem natAbs_remSigned_lt (a : BitVec n) {b : BitVec n} (hb : b ≠ 0#n) :
    (remSigned a b).toInt.natAbs < b.toInt.natAbs := by
  rw [remSigned_eq_srem, BitVec.toInt_srem, Int.natAbs_tmod]
  exact Nat.mod_lt _ (Int.natAbs_pos.2 fun h => hb ((eq_zero_iff_toInt b).2 h))

/-- A truncated remainder has the sign of the dividend, or is 0. -/
theorem tmod_mul_nonneg (x y : Int) : 0 ≤ x.tmod y * x := by
  rcases Int.le_total 0 x with hx | hx
  · exact Int.mul_nonneg (Int.tmod_nonneg y hx) hx
  · have h := Int.tmod_nonneg y (Int.neg_nonneg_of_nonpos hx)
    rw [Int.neg_tmod] at h
    exact Int.mul_nonneg_of_nonpos_of_nonpos (Int.nonpos_of_neg_nonneg h) hx

theorem remSigned_mul_nonneg (a b : BitVec n) : 0 ≤ (remSigned a b).toInt * a.toInt := by
  rw [remSigned_eq_srem, BitVec.toInt_srem]
  exact tmod_mul_nonneg ..

theorem remUnsigned_eq_umod (a b : BitVec n) : remUnsigned a b = a % b := by
  unfold remUnsigned
  split
  next hb => rw [hb, BitVec.umod_zero]
  next => exact (eq_ofNat_of_toNat_eq BitVec.toNat_umod).symm

theorem divUnsigned_mul_add_remUnsigned (a b : BitVec n) : divUnsigned a b * b + remUnsigned a b = a := by
  by_cases hb : b = 0#n
  · rw [hb, remUnsigned_zero, BitVec.mul_zero, BitVec.zero_add]
  · calc divUnsigned a b * b + remUnsigned a b
      _ = BitVec.ofNat n (a.toNat / b.toNat * b.toNat + a.toNat % b.toNat) := by
        rw [divUnsigned, if_neg hb, remUnsigned, if_neg hb, BitVec.ofNat_add, BitVec.ofNat_mul, BitVec.ofNat_toNat n b,
          BitVec.setWidth_eq]
      _ = a := by rw [Nat.div_add_mod', BitVec.ofNat_toNat, BitVec.setWidth_eq]

theorem remUnsigned_lt (a : BitVec n) {b : BitVec n} (hb : b ≠ 0#n) : (remUnsigned a b).toNat < b.toNat := by
  rw [remUnsigned_eq_umod, BitVec.toNat_umod]
  exact Nat.mod_lt _ (Nat.pos_of_ne_zero fun h => hb ((eq_zero_iff_toNat b).2 h))

/-- What rd reads after an instruction that retires a result, x0 apart. -/
theorem reg_of_retire {i : Instr} {rd : RegIdx} {v : Word} {s t : State} (h0 : rd ≠ 0#5)
    (h : exec i s = .next (retire rd v s)) (e : exec i s = .next t) : t.reg rd = v := by
  cases h.symm.trans e
  rw [retire_reg, reg_setReg_self _ h0]

/-- Settles O43: the quotient and the remainder are read from rd, and their words agree at every width. -/
theorem quotientAndRemainderAgree : Obligations.QuotientAndRemainderAgree := by
  refine fun rd rs1 rs2 s h0 => ⟨fun q r eq er => ?_, fun q r eq er => ?_⟩ <;>
    rw [reg_of_retire h0 rfl eq, reg_of_retire h0 rfl er]
  · exact ⟨divSigned_mul_add_remSigned _ _, fun hb => ⟨natAbs_remSigned_lt _ hb, remSigned_mul_nonneg _ _⟩⟩
  · exact ⟨divUnsigned_mul_add_remUnsigned _ _, remUnsigned_lt _⟩

end Sys2Proof.Machine

/-! # The upper-immediate and control family (`43_upper_and_control.md`)

Targets as exact integers; what a link and a branch leave, once for all of them. -/

/-! ## Upper immediates (R210, R211) -/

namespace Sys2Proof.Machine

open Sys2Proof.Claims

/-- A target relative to the pc is the exact sum of the pc and the signed immediate, modulo 2⁶⁴. -/
theorem pcTarget_eq_word {n : Nat} (hn : n ≤ 64) (s : State) (imm : BitVec n) :
    pcTarget s imm = word ((s.pc.toNat : Int) + imm.toInt) := by
  rw [pcTarget, sext_eq imm hn, word, BitVec.ofInt_add, ofInt_toNat]

/-- Settles O44: the decoder's two opcodes, and each retired value as an exact integer. -/
theorem upperImmediateResults : Obligations.UpperImmediateResults :=
  ⟨fun _ => decode_lui, fun _ imm _ => completes_of_retire_eq rfl (sext_eq imm (by decide)),
    fun _ => decode_auipc, fun _ imm s => completes_of_retire_eq rfl (pcTarget_eq_word (by decide) s imm)⟩

end Sys2Proof.Machine

/-! ## Jumps that link (R212, R213) -/

namespace Sys2Proof.Machine

open Sys2Proof.Claims

theorem link_regsSet (rd : RegIdx) (p : Word) (s : State) : RegsSet s (link rd p s) rd (s.pc + 4#64) := fun j => by
  rw [link_reg, reg_setReg]

/-- An instruction that links completes with its target in the pc, however the target is read. -/
theorem completes_of_link_eq {i : Instr} {s : State} {rd : RegIdx} {p p' : Word}
    (h : exec i s = .next (link rd p s)) (hp : p = p') : Completes i s rd (s.pc + 4#64) p' := by
  refine ⟨_, h, link_regsSet rd p s, (link_pc ..).trans hp, fun a => link_byte .., ?_⟩
  simp [StatusKept, HostSideKept]

/-- Settles O45: JAL links to its target, and the state it leaves still runs, so a bad target is that state's own fetch or
decode panic (O22). -/
theorem jalLinksAndJumps : Obligations.JalLinksAndJumps := by
  refine ⟨fun _ => decode_jal, fun rd imm s => ⟨completes_of_link_eq rfl (pcTarget_eq_word (by decide) s imm),
    fun hr => ⟨link rd (pcTarget s imm) s, rfl, link_regsSet rd _ s, fun hp => ?_, fun w r hf hd => ?_⟩⟩⟩
  · have running : (link rd (pcTarget s imm) s).running = true := (link_running ..).trans hr
    exact (fetchAndDecodePanics.1 _ running hp).1
  · exact (fetchAndDecodePanics.2 _ w r hf hd).1

/-- Settles O46: JALR links to the old x[rs1] plus the immediate, rounded down to an even number. -/
theorem jalrLinksAndJumps : Obligations.JalrLinksAndJumps :=
  ⟨fun _ => decode_jalr, fun _ _ _ _ => completes_of_link_eq rfl (clearBit0_eq _)⟩

end Sys2Proof.Machine

/-! ## Branches (R214 to R220) -/

namespace Sys2Proof.Machine

open Sys2Proof.Claims

theorem bne_eq_decide_ne (a b : Word) : (a != b) = decide (a ≠ b) := by rw [bne, beq_eq_decide, decide_not]

theorem not_ltSigned_eq_decide (a b : Word) : (!ltSigned a b) = decide (a.toInt ≥ b.toInt) := by
  rw [ltSigned, ← decide_not, decide_eq_decide, Int.not_lt]

theorem not_ltUnsigned_eq_decide (a b : Word) : (!ltUnsigned a b) = decide (a.toNat ≥ b.toNat) := by
  rw [ltUnsigned, ← decide_not, decide_eq_decide, Nat.not_lt]

/-- An instruction that only sets the pc completes so. -/
theorem completesPcOnly_of_setPc {i : Instr} {s : State} {p : Word} (h : exec i s = .next (s.setPc p)) :
    CompletesPcOnly i s p :=
  ⟨_, h, fun _ => rfl, rfl, fun _ => rfl, rfl, rfl, ⟨rfl, rfl, rfl⟩, rfl, rfl, rfl, rfl⟩

/-- An instruction that is `branchIf` on a comparison is the branch on that comparison. -/
theorem meansBranch_of_branchIf {f3 : BitVec 3} {mk : RegIdx → RegIdx → BitVec 13 → Instr} {c : Word → Word → Prop}
    [∀ a b, Decidable (c a b)] {taken : Word → Word → Bool}
    (hdec : ∀ w, funct3Of w = f3 → decodeBranch w = .ok (mk (rs1Of w) (rs2Of w) (immBOf w)))
    (hexec : ∀ rs1 rs2 imm s, exec (mk rs1 rs2 imm) s = .next (branchIf (taken (s.reg rs1) (s.reg rs2)) imm s))
    (htaken : ∀ a b, taken a b = decide (c a b)) : MeansBranch f3 mk c := by
  refine ⟨fun w ho hf => (decode_branch ho).trans (hdec w hf), fun rs1 rs2 imm s => ?_⟩
  have goes := hexec rs1 rs2 imm s
  refine ⟨fun hc => ?_, fun hc => ?_⟩
  · rw [htaken, decide_eq_true hc, branchIf_true] at goes
    exact completesPcOnly_of_setPc goes
  · rw [htaken, decide_eq_false hc, branchIf_false] at goes
    exact completesPcOnly_of_setPc goes

/-- Settles O47: `meansBranch_of_branchIf` at each comparison. -/
theorem branchesCompare : Obligations.BranchesCompare := by
  refine ⟨meansBranch_of_branchIf ?_ (fun _ _ _ _ => rfl) beq_eq_decide,
    meansBranch_of_branchIf ?_ (fun _ _ _ _ => rfl) bne_eq_decide_ne,
    meansBranch_of_branchIf ?_ (fun _ _ _ _ => rfl) fun _ _ => rfl,
    meansBranch_of_branchIf ?_ (fun _ _ _ _ => rfl) not_ltSigned_eq_decide,
    meansBranch_of_branchIf ?_ (fun _ _ _ _ => rfl) fun _ _ => rfl,
    meansBranch_of_branchIf ?_ (fun _ _ _ _ => rfl) not_ltUnsigned_eq_decide⟩ <;>
  · intro w hf
    simp only [decodeBranch, hf]

end Sys2Proof.Machine

/-! # The system family (`44_system.md`)

FENCE, EBREAK and the words that are no SYSTEM instruction; each way an ECALL goes, with what a handler's actions leave;
how a step of a run ends it; and the host's calls between runs. -/

/-! ## FENCE, EBREAK and the other SYSTEM words (R230, R235, R236) -/

namespace Sys2Proof

variable {w : InstWord}

theorem decode_invalidSystem_iff :
    decode w = .error .invalidSystem ↔ opcodeOf w = 0x73#7 ∧ funct12Of w ≠ 0#12 ∧ funct12Of w ≠ 1#12 := by
  simp [decode_error_iff]

theorem decode_ecall (ho : opcodeOf w = 0x73#7) (hf : funct12Of w = 0#12) : decode w = .ok .ecall := by
  simp only [decode_system ho, decodeSystem, hf]

theorem decode_ebreak (ho : opcodeOf w = 0x73#7) (hf : funct12Of w = 1#12) : decode w = .ok .ebreak := by
  simp only [decode_system ho, decodeSystem, hf]

end Sys2Proof

namespace Sys2Proof.Machine

open Sys2Proof.Claims

/-- Settles O10: `decode_invalidSystem_iff`, and the step takes the panic. -/
theorem invalidSystemExactly : Obligations.InvalidSystemExactly :=
  ⟨fun _ => decode_invalidSystem_iff, decode_invalidSystem_iff.2 (by decide), decode_invalidSystem_iff.2 (by decide),
    fun _ _ hf hd => (step_raises (step_of_fetches_error hf hd)).1⟩

/-- Settles O48: every word of the opcode is FENCE, which only sets the pc. -/
theorem fenceIsNoOp : Obligations.FenceIsNoOp := ⟨fun _ => decode_fence, fun _ => completesPcOnly_of_setPc rfl⟩

/-- Settles O54: EBREAK leaves `broken`. -/
theorem ebreakHalts : Obligations.EbreakHalts :=
  ⟨fun _ => decode_ebreak, fun s => ⟨broken s, rfl, rfl, rfl, rfl, fun _ => rfl, rfl, fun _ => rfl, ⟨rfl, rfl, rfl⟩,
    rfl, rfl, rfl⟩⟩

end Sys2Proof.Machine

/-! ## Which way an ECALL goes (R231 to R234) -/

namespace Sys2Proof.Machine

open Sys2Proof.Claims

variable {s : State}

/-- The status that goes back to x10 is the one it holds (R232). -/
theorem exitSyscall_eq_advance (s : State) : exitSyscall s = (exited (s.reg 10#5) s).advance :=
  congrArg State.advance (setReg_reg_self (exited (s.reg 10#5) s) 10#5)

theorem exec_ecall_of_exit (hz : s.reg 17#5 = 0#64) : exec .ecall s = .next (exited (s.reg 10#5) s).advance := by
  rw [← exitSyscall_eq_advance]
  exact if_pos hz

theorem exec_ecall_of_unregistered (hcode : s.reg 17#5 ≠ 0#64) (hfind : getSystemCall (s.reg 17#5) s = none) :
    exec .ecall s = .next (takePanic .invalidSyscall s) := by
  rcases execEcall_cases s with ⟨hz, _⟩ | ⟨_, _, e⟩ | ⟨g, _, hg, _⟩
  · exact absurd hz hcode
  · exact e
  · exact absurd (hfind.symm.trans hg) nofun

theorem exec_ecall_of_registered {h : HandlerId} (hcode : s.reg 17#5 ≠ 0#64)
    (hfind : getSystemCall (s.reg 17#5) s = some h) : exec .ecall s = callHandler h s := by
  rcases execEcall_cases s with ⟨hz, _⟩ | ⟨_, hn, _⟩ | ⟨g, _, hg, e⟩
  · exact absurd hz hcode
  · exact absurd (hfind.symm.trans hn) nofun
  · obtain rfl : h = g := Option.some.inj (hfind.symm.trans hg)
    exact e

theorem callHandler_of_hangs {h : HandlerId} {rest : List HandlerMove} (hm : s.handlerMoves = .hangs :: rest) :
    callHandler h s = .fault (.handlerNeverReturns h) := by
  simp only [callHandler, nextMove, hm]

/-- The exit callback is called once, if it is recorded (R248). -/
theorem exitCalls_eq (s : State) (status : Word) :
    exitCalls s status = s.exitCb.toList.map fun cb => .exit cb status := by
  unfold exitCalls
  cases s.exitCb <;> rfl

/-- Settles O49: the exit syscall advances `exited`, which writes no register. -/
theorem ecallExits : Obligations.EcallExits := by
  refine ⟨fun _ => decode_ecall, fun s hz => ⟨_, exec_ecall_of_exit hz, rfl, rfl, rfl, fun _ => rfl, rfl, fun _ => rfl,
    ⟨rfl, rfl, rfl⟩, rfl, rfl, fun h => ?_, fun cb h => ?_⟩⟩
  · simp [exited, exitCalls_eq, h]
  · simp [exited, exitCalls_eq, h]

/-- Settles O50: the ECALL takes the panic. -/
theorem ecallUnregisteredPanics : Obligations.EcallUnregisteredPanics := fun s hcode hfind =>
  have e := exec_ecall_of_unregistered hcode hfind
  ⟨e ▸ takePanic_raises .invalidSyscall s, _, e, pcAfterPanic_cases s .invalidSyscall, rfl⟩

/-- Settles O53: the handler's call answers the fault. -/
theorem hangingHandlerHangsEcall : Obligations.HangingHandlerHangsEcall := fun _ _ _ hcode hfind hm =>
  (exec_ecall_of_registered hcode hfind).trans (callHandler_of_hangs hm)

end Sys2Proof.Machine

/-! ## What a handler's actions leave (R233, R238, R240) -/

namespace Sys2Proof.Machine

open Sys2Proof.Claims

variable {s : State} {as : List HandlerAction} {r : HandlerReturn}

theorem foldl_acted_reg (as : List HandlerAction) (s : State) (j : RegIdx) :
    (as.foldl acted s).reg j = regAfter j as (s.reg j) := by
  induction as generalizing s with
  | nil => rfl
  | cons a as ih =>
    rw [List.foldl_cons, ih]
    cases a with
    | setReg i v =>
      simp only [acted, reg_setReg, regAfter, eq_comm (a := j) (b := i)]
    | readMem a w => rfl
    | writeMem a w v => rfl
    | stop => rfl

/-- Once an action is `stop()`, no later one sets the running flag again. -/
theorem foldl_acted_running_of_stop (ha : ∀ a ∈ as, actionInRange a) (hstop : .stop ∈ as) (s : State) :
    (as.foldl acted s).running = false := by
  obtain ⟨before, after, rfl⟩ := List.append_of_mem hstop
  have hafter : ∀ a ∈ after, actionInRange a := fun a hm => ha a (by simp [hm])
  rw [List.foldl_append, List.foldl_cons]
  exact Bool.eq_false_iff.2 fun hr => nomatch (foldl_acted_keeps hafter _).running hr

/-- Actions up to the first access out of range are done, in order, and no more. -/
theorem runActions_append_bad {before after : List HandlerAction} {bad : HandlerAction}
    (hb : ∀ a ∈ before, actionInRange a) (hbad : ¬ actionInRange bad) (s : State) :
    runActions (before ++ bad :: after) s = .outOfRange (before.foldl acted s) := by
  induction before generalizing s with
  | nil =>
    cases bad with
    | setReg i v => exact absurd trivial hbad
    | readMem a w => rw [List.nil_append, runActions, memRead_outOfRange hbad]; rfl
    | writeMem a w v => rw [List.nil_append, runActions, memWrite_outOfRange hbad]; rfl
    | stop => exact absurd trivial hbad
  | cons a before ih =>
    obtain ⟨ha, hb⟩ := List.forall_mem_cons.1 hb
    rw [List.cons_append, runActions_cons ha, ih hb, List.foldl_cons]

/-- The state a handler acts on: its move, or the free value, is used up (log entry 7). -/
def moved (s : State) : State :=
  { s with handlerMoves := s.handlerMoves.tail, draws := if s.handlerMoves = [] then s.draws + 1 else s.draws }

theorem nextMove_snd (h : HandlerId) (s : State) : (nextMove h s).2 = moved s := by
  rcases nextMove_cases h s with ⟨m, rest, hm, e⟩ | ⟨hm, e⟩ <;> simp [e, moved, hm]

/-- The state after these actions of a handler that `s` invokes. -/
def afterActions (as : List HandlerAction) (s : State) : State := as.foldl acted (moved s)

@[simp] theorem afterActions_reg (as : List HandlerAction) (s : State) (j : RegIdx) :
    (afterActions as s).reg j = regAfter j as (s.reg j) := foldl_acted_reg ..

@[simp] theorem afterActions_byte (as : List HandlerAction) (s : State) (b : Nat) :
    (afterActions as s).byte b = byteAfter b as (s.byte b) := foldl_acted_byte ..

theorem afterActions_keeps (ha : ∀ a ∈ as, actionInRange a) (s : State) : HandlerKeeps (moved s) (afterActions as s) :=
  foldl_acted_keeps ha _

/-- The ECALL of a handler that makes every access in range finishes (R233). -/
theorem exec_ecall_of_inRange (hi : Invokes s r) (ha : ∀ a ∈ r.actions, actionInRange a) :
    exec .ecall s = .next (finishHandler r.result (afterActions r.actions s)) := by
  obtain ⟨h, e, hm⟩ := exec_ecall_of_invokes hi
  rw [e, callHandler_done hm (runActions_inRange ha _), nextMove_snd, afterActions]

/-- A handler whose access is out of range panics with what it did before. -/
theorem callHandler_outOfRange {h : HandlerId} {u : State} (hm : (nextMove h s).1 = .returns r)
    (hu : runActions r.actions (nextMove h s).2 = .outOfRange u) :
    callHandler h s = .next (takePanic .outOfRange u) := by
  rcases e : nextMove h s with ⟨m, t⟩
  rw [e] at hm hu
  subst hm
  simp only [callHandler, e, hu]

/-- The ECALL of a handler with an access out of range takes the panic there (D23). -/
theorem exec_ecall_of_failsAfter {before : List HandlerAction} (hi : Invokes s r) (hf : FailsAfter r before) :
    exec .ecall s = .next (takePanic .outOfRange (afterActions before s)) := by
  obtain ⟨h, e, hm⟩ := exec_ecall_of_invokes hi
  obtain ⟨hb, bad, after, hr, hbad⟩ := hf
  rw [e, callHandler_outOfRange hm (hr ▸ runActions_append_bad hb hbad _), nextMove_snd, afterActions]

theorem finishHandler_reg (v : Word) (s : State) (j : RegIdx) :
    (finishHandler v s).reg j = if j = 10#5 then v else s.reg j := by
  rw [finishHandler, retire_reg, reg_setReg]
  by_cases hj : j = 10#5
  · rw [if_pos ⟨hj, hj ▸ by decide⟩, if_pos hj]
  · rw [if_neg fun h => hj h.1, if_neg hj]
    rfl

@[simp] theorem finishHandler_exitCode (v : Word) (s : State) : (finishHandler v s).exitCode = s.exitCode :=
  retire_exitCode ..

@[simp] theorem finishHandler_callbackCalls (v : Word) (s : State) :
    (finishHandler v s).callbackCalls = s.callbackCalls := retire_callbackCalls ..

@[simp] theorem finishHandler_handlerMoves (v : Word) (s : State) :
    (finishHandler v s).handlerMoves = s.handlerMoves := retire_handlerMoves ..

@[simp] theorem finishHandler_draws (v : Word) (s : State) : (finishHandler v s).draws = s.draws := retire_draws ..

/-- The run is recorded as stopped exactly if the handler left the block not running (R240, D26). -/
@[simp] theorem finishHandler_outcome (v : Word) (s : State) :
    (finishHandler v s).outcome = if s.running then s.outcome else some .stopped := retire_outcome ..

theorem afterActions_running (hstop : .stop ∉ as) (s : State) : (afterActions as s).running = s.running :=
  foldl_acted_running hstop _

theorem afterActions_running_of_stop (ha : ∀ a ∈ as, actionInRange a) (hstop : .stop ∈ as) (s : State) :
    (afterActions as s).running = false := foldl_acted_running_of_stop ha hstop _

/-- Settles O51: the ECALL finishes from the state the actions leave, and they keep what no action touches. -/
theorem ecallRunsHandler : Obligations.EcallRunsHandler := by
  intro s r hi ha
  have k := afterActions_keeps ha s
  refine ⟨_, exec_ecall_of_inRange hi ha, fun j => ?_, fun b => ?_, ?_, ?_,
    (k.keeps.trans (finishHandler_keeps ..)).hostSide, ?_, ?_, fun hm => ?_, fun hm => ?_, fun hstop => ?_,
    fun hstop => ?_⟩
  · rw [finishHandler_reg, afterActions_reg]
  · rw [finishHandler_byte, afterActions_byte]
  · rw [finishHandler_pc, k.pc, moved]
  · rw [finishHandler_exitCode, k.exitCode, moved]
  · rw [finishHandler_callbackCalls, k.callbackCalls, moved]
  · rw [finishHandler_handlerMoves, k.handlerMoves, moved]
  · rw [finishHandler_draws, k.draws, moved, if_pos hm]
  · rw [finishHandler_draws, k.draws, moved, if_neg hm]
  · have stopped := afterActions_running_of_stop ha hstop s
    simp [stopped]
  · have running := afterActions_running hstop s
    refine ⟨by rw [finishHandler_running, running], fun hr => ?_⟩
    rw [finishHandler_outcome, running, if_pos hr, k.outcome, moved]

/-- A panic of a state with the panic callback and the calls of another is reported as that one's (R262). -/
theorem takePanic_reported_of_eq {u : State} (p : PanicReason) (hcb : u.panicCb = s.panicCb)
    (hcalls : u.callbackCalls = s.callbackCalls) : PanicReported s (takePanic p u) p := by
  simpa only [PanicReported, hcb, hcalls] using takePanic_reported p u

/-- Settles O52: the panic is taken in the state that the actions before the access leave. -/
theorem handlerOutOfRangePanics : Obligations.HandlerOutOfRangePanics := by
  intro s r before hi hf
  have k := afterActions_keeps hf.1 s
  obtain ⟨-, hpc⟩ := takePanic_panickedFrom (s := s) .outOfRange k.pc
  exact ⟨_, exec_ecall_of_failsAfter hi hf, rfl, rfl, rfl, fun j => afterActions_reg before s j,
    fun b => afterActions_byte before s b, hpc, takePanic_reported_of_eq _ k.panicCb k.callbackCalls, k.keeps.hostSide,
    k.handlerMoves⟩

end Sys2Proof.Machine

/-! ## How a step of a run goes on or ends it (`60_exceptions.md` R276) -/

namespace Sys2Proof.Machine

open Sys2Proof.Claims

variable {s t : State} {w : InstWord}

theorem retire_statusKept (rd : RegIdx) (v : Word) (s : State) : StatusKept s (retire rd v s) := by
  simp [StatusKept, HostSideKept]

theorem link_statusKept (rd : RegIdx) (p : Word) (s : State) : StatusKept s (link rd p s) := by
  simp [StatusKept, HostSideKept]

theorem setPc_statusKept (p : Word) (s : State) : StatusKept s (s.setPc p) :=
  ⟨rfl, rfl, ⟨rfl, rfl, rfl⟩, rfl, rfl, rfl, rfl⟩

theorem loadInto_statusKept {rd rs1 : RegIdx} {imm : BitVec 12} {u : Width} {f : Word → Word}
    (e : loadInto rd rs1 imm u f s = .next t) : StatusKept s t ∨ t = takePanic .outOfRange s := by
  rcases loadInto_cases rd rs1 imm u f s with ⟨_, e'⟩ | ⟨_, e'⟩ <;> rw [e'] at e <;> cases e
  · exact .inl (retire_statusKept ..)
  · exact .inr rfl

theorem storeFrom_statusKept {rs1 rs2 : RegIdx} {imm : BitVec 12} {u : Width}
    (e : storeFrom rs1 rs2 imm u s = .next t) : StatusKept s t ∨ t = takePanic .outOfRange s := by
  rcases storeFrom_cases rs1 rs2 imm u s with ⟨_, e'⟩ | ⟨_, e'⟩ <;> rw [e'] at e <;> cases e
  · exact .inl ⟨rfl, rfl, ⟨rfl, rfl, rfl⟩, rfl, rfl, rfl, rfl⟩
  · exact .inr rfl

theorem branchIf_statusKept (c : Bool) (imm : BitVec 13) (s : State) : StatusKept s (branchIf c imm s) := by
  cases c with
  | true => rw [branchIf_true]; exact setPc_statusKept ..
  | false => rw [branchIf_false]; exact setPc_statusKept ..

/-- An instruction that is no environment call or break goes on with the run's status as it was, or panics at its
access. -/
theorem exec_statusKept {i : Instr} (hc : i ≠ .ecall) (hb : i ≠ .ebreak) (e : exec i s = .next t) :
    StatusKept s t ∨ t = takePanic .outOfRange s := by
  cases i with
  | lb => exact loadInto_statusKept e
  | lh => exact loadInto_statusKept e
  | lw => exact loadInto_statusKept e
  | ld => exact loadInto_statusKept e
  | lbu => exact loadInto_statusKept e
  | lhu => exact loadInto_statusKept e
  | lwu => exact loadInto_statusKept e
  | sb => exact storeFrom_statusKept e
  | sh => exact storeFrom_statusKept e
  | sw => exact storeFrom_statusKept e
  | sd => exact storeFrom_statusKept e
  | beq => cases e; exact .inl (branchIf_statusKept ..)
  | bne => cases e; exact .inl (branchIf_statusKept ..)
  | blt => cases e; exact .inl (branchIf_statusKept ..)
  | bge => cases e; exact .inl (branchIf_statusKept ..)
  | bltu => cases e; exact .inl (branchIf_statusKept ..)
  | bgeu => cases e; exact .inl (branchIf_statusKept ..)
  | jal => cases e; exact .inl (link_statusKept ..)
  | jalr => cases e; exact .inl (link_statusKept ..)
  | fence => cases e; exact .inl (setPc_statusKept ..)
  | ecall => exact absurd rfl hc
  | ebreak => exact absurd rfl hb
  | _ => cases e; exact .inl (retire_statusKept ..)

/-- A handler whose move returns is invoked. -/
theorem invokes_of_nextMove {h : HandlerId} {r : HandlerReturn} (hcode : s.reg 17#5 ≠ 0#64)
    (hfind : getSystemCall (s.reg 17#5) s = some h) (hm : (nextMove h s).1 = .returns r) : Invokes s r := by
  refine ⟨hcode, h, hfind, ?_⟩
  rcases nextMove_cases h s with ⟨m, rest, hs, e⟩ | ⟨hs, e⟩ <;> rw [e] at hm
  · exact .inl ⟨rest, hm ▸ hs⟩
  · exact .inr ⟨hs, (HandlerMove.returns.inj hm).symm⟩

/-- Every ECALL with a next state exits, has no handler, or invokes one. -/
theorem exec_ecall_next (e : exec .ecall s = .next t) :
    s.reg 17#5 = 0#64 ∨ (s.reg 17#5 ≠ 0#64 ∧ getSystemCall (s.reg 17#5) s = none) ∨ ∃ r, Invokes s r := by
  rcases execEcall_cases s with ⟨hz, _⟩ | ⟨hcode, hfind, _⟩ | ⟨h, hcode, hfind, e'⟩
  · exact .inl hz
  · exact .inr (.inl ⟨hcode, hfind⟩)
  · have e := e'.symm.trans e
    rcases callHandler_cases h s with ⟨_, _, e''⟩ | ⟨r, _, _, hm, _⟩ | ⟨r, _, _, hm, _⟩
    · cases e''.symm.trans e
    · exact .inr (.inr ⟨r, invokes_of_nextMove hcode hfind (by rw [hm])⟩)
    · exact .inr (.inr ⟨r, invokes_of_nextMove hcode hfind (by rw [hm])⟩)

/-- A handler's accesses are all in range, or a first one is not. -/
theorem inRange_or_failsAfter (r : HandlerReturn) :
    (∀ a ∈ r.actions, actionInRange a) ∨ ∃ before, FailsAfter r before := by
  classical
  cases h : r.actions.find? fun a => ¬ actionInRange a with
  | none => exact .inl (by simpa using h)
  | some bad =>
    obtain ⟨hbad, before, after, hr, hb⟩ := List.find?_eq_some_iff_append.1 h
    exact .inr ⟨before, by simpa using hb, bad, after, hr, by simpa using hbad⟩

theorem fetches_of_fetch (hr : s.running = true) (hf : fetch s = .ok w) : Fetches s w := by
  by_cases hp : s.pc.toNat + 4 ≤ 65536
  · obtain ⟨v, hv, hw⟩ := fetch_toNat hp
    cases hv.symm.trans hf
    exact ⟨hr, hp, hw.trans (littleEndian_eq_leSum s _ 4).symm⟩
  · cases (fetch_outOfRange hp).symm.trans hf

/-- The run goes on, with exit code and callbacks' calls as before. -/
def GoesOn (s t : State) : Prop :=
  t.running = true ∧ t.outcome = none ∧ t.exitCode = s.exitCode ∧ t.callbackCalls = s.callbackCalls

/-- R276's row of `Exited`. -/
def ExitsRun (s t : State) : Prop :=
  Executes s .ecall ∧ s.reg 17#5 = 0#64 ∧ t.outcome = some (.exited (s.reg 10#5)) ∧
    t.exitCode = (s.reg 10#5).toInt ∧ RegsKept s t ∧ t.pc = s.pc + 4#64 ∧
    t.callbackCalls = s.callbackCalls ++ (s.exitCb.toList.map fun cb => .exit cb (s.reg 10#5))

/-- R276's row of `Broke`. -/
def BreaksRun (s t : State) : Prop :=
  Executes s .ebreak ∧ t.outcome = some .broke ∧ t.exitCode = -1 ∧ RegsKept s t ∧ t.pc = s.pc + 4#64 ∧
    t.callbackCalls = s.callbackCalls

/-- R276's row of `Stopped`. -/
def StopsRun (s t : State) : Prop :=
  Executes s .ecall ∧ t.outcome = some .stopped ∧ t.exitCode = s.exitCode ∧
    (∃ m, Invokes s m ∧ .stop ∈ m.actions ∧ t.reg 10#5 = m.result) ∧ t.pc = s.pc + 4#64 ∧
    t.callbackCalls = s.callbackCalls

/-- R276's row of `Panicked`. -/
def PanicsRun (s t : State) : Prop :=
  ∃ r, t.outcome = some (.panicked r) ∧ t.exitCode = -1 ∧ PcAfterPanic s t ∧ PanicReported s t r ∧
    (RegsKept s t ∨ (Executes s .ecall ∧ r = .outOfRange ∧
      ∃ m before, Invokes s m ∧ FailsAfter m before ∧ ∀ j, t.reg j = regAfter j before (s.reg j)))

/-- What a step of a run can do: go on, or end the run by one of R276's rows. -/
def RunStep (s t : State) : Prop :=
  GoesOn s t ∨ (t.running = false ∧ (ExitsRun s t ∨ BreaksRun s t ∨ StopsRun s t ∨ PanicsRun s t))

theorem goesOn_of_statusKept (hr : s.running = true) (ho : s.outcome = none) (h : StatusKept s t) : GoesOn s t := by
  obtain ⟨hrun, hexit, -, -, -, hcalls, hout⟩ := h
  exact ⟨hrun.trans hr, hout.trans ho, hexit, hcalls⟩

theorem takePanic_runStep (r : PanicReason) (s : State) : RunStep s (takePanic r s) :=
  .inr ⟨rfl, .inr (.inr (.inr ⟨r, rfl, rfl, pcAfterPanic_cases s r, takePanic_reported r s, .inl fun _ => rfl⟩))⟩

theorem exited_runStep (hx : Executes s .ecall) (hz : s.reg 17#5 = 0#64) :
    RunStep s (exited (s.reg 10#5) s).advance :=
  .inr ⟨rfl, .inl ⟨hx, hz, rfl, rfl, fun _ => rfl, rfl, congrArg _ (exitCalls_eq s _)⟩⟩

/-- An ECALL that invokes a handler: O51 where every access is in range, with and without a `stop()`, and O52 where one
is not. -/
theorem invokes_runStep {r : HandlerReturn} (hx : Executes s .ecall) (hr : s.running = true) (ho : s.outcome = none)
    (hi : Invokes s r) (e : exec .ecall s = .next t) : RunStep s t := by
  rcases inRange_or_failsAfter r with ha | ⟨before, hf⟩
  · obtain ⟨t', e', hreg, -, hpc, hexit, -, hcalls, -, -, -, hstops, hgoes⟩ := ecallRunsHandler s r hi ha
    cases e'.symm.trans e
    by_cases hstop : .stop ∈ r.actions
    · obtain ⟨hrun, hout⟩ := hstops hstop
      exact .inr ⟨hrun, .inr (.inr (.inl ⟨hx, hout, hexit, ⟨r, hi, hstop, hreg 10#5⟩, hpc, hcalls⟩))⟩
    · obtain ⟨hrun, hout⟩ := hgoes hstop
      exact .inl ⟨hrun.trans hr, (hout hr).trans ho, hexit, hcalls⟩
  · obtain ⟨t', e', hout, hexit, hrun, hreg, -, hpc, hreport, -⟩ := handlerOutOfRangePanics s r before hi hf
    cases e'.symm.trans e
    exact .inr ⟨hrun, .inr (.inr (.inr ⟨_, hout, hexit, hpc, hreport, .inr ⟨hx, rfl, r, before, hi, hf, hreg⟩⟩))⟩

theorem exec_runStep {i : Instr} (hx : Executes s i) (hr : s.running = true) (ho : s.outcome = none)
    (e : exec i s = .next t) : RunStep s t := by
  by_cases hc : i = .ecall
  · subst hc
    rcases exec_ecall_next e with hz | ⟨hcode, hfind⟩ | ⟨r, hi⟩
    · cases (exec_ecall_of_exit hz).symm.trans e
      exact exited_runStep hx hz
    · cases (exec_ecall_of_unregistered hcode hfind).symm.trans e
      exact takePanic_runStep .invalidSyscall s
    · exact invokes_runStep hx hr ho hi e
  by_cases hb : i = .ebreak
  · subst hb
    cases e
    exact .inr ⟨rfl, .inr (.inl ⟨hx, rfl, rfl, fun _ => rfl, rfl, rfl⟩)⟩
  · rcases exec_statusKept hc hb e with h | rfl
    · exact .inl (goesOn_of_statusKept hr ho h)
    · exact takePanic_runStep .outOfRange s

/-- Settles O29: a panic of fetch or decoder ends the run, and else the instruction at the pc decides. -/
theorem runEndsInFourWays : Obligations.RunEndsInFourWays := by
  intro s t hr ho e
  change RunStep s t
  rcases step_cases s with ⟨hn, _⟩ | ⟨_, _, e'⟩ | ⟨_, r, _, _, _, e'⟩ | ⟨w, i, _, hf, hd, e'⟩
  · exact absurd (hr.symm.trans hn) nofun
  · cases e'.symm.trans e; exact takePanic_runStep .outOfRange s
  · cases e'.symm.trans e; exact takePanic_runStep r s
  · exact exec_runStep ⟨w, fetches_of_fetch hr hf, hd⟩ hr ho (e'.symm.trans e)

end Sys2Proof.Machine

/-! ## The host's calls between runs (R237 to R245, `70_reset_and_hazards.md` R291, R292) -/

namespace Sys2Proof.Machine

open Sys2Proof.Claims

variable {s t : State}

theorem hostInit_inv (e p : Option CallbackId) (hs : s.inv = true) : (hostInit e p s).inv = true := by
  obtain ⟨hmem, -⟩ := State.inv_iff.1 hs
  exact State.inv_iff.2 ⟨hmem, rfl, (by decide : evenOffset 0x1000#64 = true), rfl, nofun⟩

theorem setSystemCall_inv (code : Word) (h : HandlerId) (hs : s.inv = true) : (setSystemCall code h s).inv = true := by
  obtain ⟨hmem, htable, hpc, hexit, hout⟩ := State.inv_iff.1 hs
  exact State.inv_iff.2 ⟨hmem, SyscallTable.wf_install htable code.isLt h, hpc, hexit, hout⟩

theorem startRun_inv (hs : s.inv = true) : (startRun s).inv = true := by
  obtain ⟨hmem, htable, hpc, hexit, -⟩ := State.inv_iff.1 hs
  exact State.inv_iff.2 ⟨hmem, htable, hpc, hexit, fun _ => rfl⟩

/-- An image that is taken fits between 0x1000 and the end of the arena (R292). -/
theorem loadFromBytes_inv (data : List Byte) (hs : s.inv = true) : (loadFromBytes data s).2.inv = true := by
  unfold loadFromBytes
  split
  · exact hs
  · next hlen =>
    obtain ⟨hmem, htable, hpc, hexit, hout⟩ := State.inv_iff.1 hs
    have fits : Config.loadBase + data.length ≤ Config.memSize := by
      have hmax : data.length ≤ 65536 - 0x1000 := Nat.le_of_not_lt (not_or.1 hlen).2
      exact (by omega : 0x1000 + data.length ≤ 65536)
    refine State.inv_iff.2 ⟨?_, ?_, ?_, ?_, ?_⟩
    · rw [setReg_mem]; exact Memory.wf_copy data hmem fits
    · rw [setReg_syscalls]; exact htable
    · rw [State.pcEven, setReg_pc]; exact hpc
    · rw [State.exitCodeFits, setReg_exitCode]; exact hexit
    · rw [setReg_running, setReg_outcome]; exact hout

theorem hostStop_inv (hs : s.inv = true) : (hostStop s).inv = true := by
  obtain ⟨hmem, htable, hpc, hexit, -⟩ := State.inv_iff.1 hs
  exact State.inv_iff.2 ⟨hmem, htable, hpc, hexit, nofun⟩

/-- Settles O20: a call that is answered leaves the state or makes one of five updates, each of which keeps the
invariant. -/
theorem hostCallKeepsInvariant : Obligations.HostCallKeepsInvariant := by
  intro s t c r hs e
  unfold hostCall at e
  split at e
  · cases e
  · cases c with
    | init => cases e; exact hostInit_inv _ _ hs
    | load data => cases e; exact loadFromBytes_inv data hs
    | setSystemCall code h => cases e; exact setSystemCall_inv code h hs
    | run => cases e; exact startRun_inv hs
    | stop => cases e; exact hostStop_inv hs
    | getPointerParam i =>
      cases hp : getPointerParam i s <;> simp only [hp] at e <;> cases e
      exact hs
    | _ => cases e; exact hs

theorem getSystemCall_setSystemCall (code c : Word) (h : HandlerId) (s : State) :
    getSystemCall c (setSystemCall code h s) = if c = code then some h else getSystemCall c s := by
  simp only [getSystemCall, setSystemCall, SyscallTable.find_install, BitVec.toNat_inj]

theorem hostCall_getSystemCall (c : Word) (hs : s.running = false) :
    hostCall (.getSystemCall c) s = .next (s, .handler (getSystemCall c s)) := if_neg (by simp [hs])

theorem hostCall_setSystemCall (code : Word) (h : HandlerId) (hs : s.running = false) :
    hostCall (.setSystemCall code h) s = .next (setSystemCall code h s, .unit) := if_neg (by simp [hs])

/-- Settles O57: only the table changes, and it is read by `getSystemCall_setSystemCall`. -/
theorem setSystemCallInstalls : Obligations.SetSystemCallInstalls := by
  intro s code h hs
  refine ⟨setSystemCall code h s, hostCall_setSystemCall code h hs, fun c => ?_, fun _ => rfl, fun _ => rfl, rfl, rfl,
    rfl, rfl, rfl⟩
  rw [hostCall_getSystemCall (s := setSystemCall code h s) c hs, getSystemCall_setSystemCall]

theorem Memory.stringBytes_of_zero {m : Memory} {a : Nat} (h : m.readByte a = 0#8) (n : Nat) :
    m.stringBytes a n = [] := by
  cases n <;> simp [Memory.stringBytes, h]

theorem Memory.stringBytes_of_nonzero {m : Memory} {a : Nat} (h : m.readByte a ≠ 0#8) (n : Nat) :
    m.stringBytes a (n + 1) = m.readByte a :: m.stringBytes (a + 1) n := by
  simp [Memory.stringBytes, h]

/-- What `get_string_pointer` reads (R243): at most the bytes there are, each as it stands and none of them 0, up to
a zero byte or to the last one. -/
theorem Memory.stringBytes_spec (m : Memory) (a n : Nat) :
    (m.stringBytes a n).length ≤ n ∧
    (∀ i < (m.stringBytes a n).length,
      (m.stringBytes a n).getD i 0#8 = m.readByte (a + i) ∧ m.readByte (a + i) ≠ 0#8) ∧
    ((m.stringBytes a n).length < n → m.readByte (a + (m.stringBytes a n).length) = 0#8) := by
  induction n generalizing a with
  | zero => simp [Memory.stringBytes]
  | succ n ih =>
    by_cases h : m.readByte a = 0#8
    · simp [Memory.stringBytes_of_zero h, h]
    · obtain ⟨hlen, hbytes, hend⟩ := ih (a + 1)
      rw [Memory.stringBytes_of_nonzero h, List.length_cons]
      refine ⟨Nat.succ_le_succ hlen, fun i hi => ?_, fun hl => ?_⟩
      · cases i with
        | zero => exact ⟨rfl, h⟩
        | succ i =>
          rw [List.getD_cons_succ, show a + (i + 1) = a + 1 + i by omega]
          exact hbytes i (Nat.lt_of_succ_lt_succ hi)
      · rw [← Nat.succ_add_eq_add_succ]
        exact hend (Nat.lt_of_succ_lt_succ hl)

theorem hostCall_getPointerParam {i : Nat} (hi : i < 22) (hs : s.running = false) :
    hostCall (.getPointerParam i) s = .next (s, .word (s.reg (BitVec.ofNat 5 (10 + i)))) := by
  rw [hostCall, if_neg (by simp [hs]), getPointerParam, if_pos hi]

theorem hostCall_getPointerParam_refused {i : Nat} (hi : ¬ i < 22) (hs : s.running = false) :
    hostCall (.getPointerParam i) s = .refused (.pointerParamOutOfRange i) := by
  rw [hostCall, if_neg (by simp [hs]), getPointerParam, if_neg hi]

theorem hostCall_getStringPointer (p : Word) (hs : s.running = false) :
    hostCall (.getStringPointer p) s = .next (s, .string (getStringPointer p s)) := if_neg (by simp [hs])

/-- Settles O58: the calls one by one; the bytes of a string are those of `Memory.stringBytes_spec` up to the arena's
end. -/
theorem hostReads : Obligations.HostReads := by
  intro s hs
  have halted : ¬ s.running = true := by simp [hs]
  refine ⟨fun i hi => hostCall_getPointerParam (by omega) hs,
    fun i hi => hostCall_getPointerParam_refused (by omega) hs, hostCall_getStringPointer 0#64 hs, fun p hp => ?_, ?_, if_neg halted⟩
  · obtain ⟨hlen, hbytes, hend⟩ := Memory.stringBytes_spec s.mem p.toNat (65536 - p.toNat)
    have hlen : (stringBytesAt p s).length ≤ 65536 - p.toNat := hlen
    refine ⟨stringBytesAt p s, ?_, by omega, hbytes, fun h => hend (Nat.lt_sub_iff_add_lt'.2 h)⟩
    rw [hostCall_getStringPointer p hs, getStringPointer, if_neg hp]
  · rw [hostCall, if_neg halted, hs]

end Sys2Proof.Machine

/-! ## `initialize` and `load_from_bytes` (`70_reset_and_hazards.md` R291, R292) -/

namespace Sys2Proof.Machine

open Sys2Proof.Claims

theorem hostCall_init {s : State} (e p : Option CallbackId) (hs : s.running = false) :
    hostCall (.init e p) s = .next (hostInit e p s, .unit) := if_neg (by simp [hs])

/-- Settles O55: `hostInit` sets each field named and none that a register or a byte is read from. -/
theorem initializeResets : Obligations.InitializeResets := fun s e p hs =>
  ⟨hostInit e p s, hostCall_init e p hs, rfl, rfl, rfl, fun _ => rfl, rfl, rfl, fun _ => rfl, fun _ => rfl⟩

theorem hostCall_load {s : State} (data : List Byte) (hs : s.running = false) :
    hostCall (.load data) s = .next ((loadFromBytes data s).2, .flag (loadFromBytes data s).1) := if_neg (by simp [hs])

theorem loadFromBytes_of_fits {data : List Byte} (s : State) (h : 1 ≤ data.length ∧ data.length ≤ 61440) :
    loadFromBytes data s = (true, State.setReg { s with mem := s.mem.copy 0x1000 data } 2#5 0x10000#64) := by
  refine if_neg ?_
  change ¬ (data.length = 0 ∨ 61440 < data.length)
  omega

theorem loadFromBytes_of_not_fits {data : List Byte} (s : State) (h : ¬ (1 ≤ data.length ∧ data.length ≤ 61440)) :
    loadFromBytes data s = (false, s) := by
  refine if_pos ?_
  change data.length = 0 ∨ 61440 < data.length
  omega

/-- `Memory.readByte_copy` with the image's byte read by `getD`. -/
theorem Memory.readByte_copy_getD (bs : List Byte) (m : Memory) (a b : Nat) :
    (m.copy a bs).readByte b = if a ≤ b ∧ b < a + bs.length then bs.getD (b - a) 0#8 else m.readByte b := by
  rw [Memory.readByte_copy]
  split
  · exact (List.getD_eq_getElem ..).symm
  · rfl

/-- Settles O56: an image that fits is one `Memory.copy` and one `setReg`, and each has its own law; any other leaves the
state. -/
theorem loadFromBytesCopiesImage : Obligations.LoadFromBytesCopiesImage := by
  intro s data hs
  constructor
  · intro fits
    have e := hostCall_load data hs
    rw [loadFromBytes_of_fits s fits] at e
    refine ⟨_, e, fun j => reg_setReg .., setReg_pc .., by simp [StatusKept, HostSideKept], fun b => ?_⟩
    rw [setReg_byte]
    exact Memory.readByte_copy_getD data s.mem 0x1000 b
  · intro misfit
    rw [hostCall_load data hs, loadFromBytes_of_not_fits s misfit]

end Sys2Proof.Machine
